-- ==== Sys2Proof/Word.lean ====
section
/-! DEFINITION. The three widths of QRE: a memory byte, a register word, and a byte offset in the window
(00_scope.md R5: `ADDR_W` = 16, `DATA_W` = 32). -/

namespace Sys2Proof

/-- One byte of a memory, and one element of GF(256) (40_gf.md R87). -/
abbrev Byte := BitVec 8

/-- One register, and the command word (00_scope.md R5, 30_encoding.md R71). -/
abbrev Word := BitVec 32

/-- A byte offset inside QRE's 64 KiB window (20_memory.md R45, R47). -/
abbrev Offset := BitVec 16

end Sys2Proof
end

