-- ==== Sys2Proof/Syntax.lean ====
section
/-! DEFINITION. The command set (30_encoding.md R74): one constructor per row of the opcode table. -/

namespace Sys2Proof

/-- The fifteen commands. No command carries an operand in its word (30_encoding.md R71); MASK_SELECT carries the
two flags COMMIT and FORCE (R75). -/
inductive Instr where
  /-- NOP, 44_control.md R143. -/
  | nop
  /-- GF_MUL, 40_gf.md R93. -/
  | gfMul
  /-- GF_POW, 40_gf.md R94. -/
  | gfPow
  /-- POLY_MUL, 41_poly.md R100. -/
  | polyMul
  /-- GEN_POLY, 41_poly.md R102. -/
  | genPoly
  /-- RS_ECC, 41_poly.md R104. -/
  | rsEcc
  /-- POLY_EVAL, 41_poly.md R106. -/
  | polyEval
  /-- PACK_NUM, 42_pack.md R112. -/
  | packNum
  /-- PACK_ALNUM, 42_pack.md R114. -/
  | packAlnum
  /-- PACK_KANJI, 42_pack.md R116. -/
  | packKanji
  /-- PACK_BYTE, 42_pack.md R118. -/
  | packByte
  /-- PACK_BITS, 42_pack.md R119. -/
  | packBits
  /-- MASK_APPLY, 43_mask.md R138. -/
  | maskApply
  /-- MASK_SCORE, 43_mask.md R140. -/
  | maskScore
  /-- MASK_SELECT, .C, .F and .FC, 43_mask.md R141. -/
  | maskSelect (commit force : Bool)
  deriving DecidableEq, Repr

end Sys2Proof
end

