-- ==== Sys2Proof/WellFormed.lean ====
section
/-! DEFINITION. Which command words are legal (30_encoding.md R80, R81), said on the word's number and apart from
the decoder, so that a statement can hold the two against each other. The commands themselves are typed so that
every term of Instr is one the spec has: the flags a command does not define have nowhere to stand. -/

namespace Sys2Proof

/-- The opcodes of 30_encoding.md R74, in its order. Every other value is reserved (R81). -/
def assignedOpcodes : List Nat :=
  [0x00, 0x01, 0x02, 0x10, 0x11, 0x12, 0x13, 0x20, 0x21, 0x22, 0x23, 0x24, 0x30, 0x31, 0x32]

/-- First condition of 30_encoding.md R80: CMD[7:0] is an assigned opcode. -/
def opcodeAssigned (w : Word) : Bool := assignedOpcodes.contains (w.toNat % 256)

/-- Second condition of R80: the FLAGS bits, CMD[15:8], that the opcode does not define are 0. MASK_SELECT defines
bits 0 and 1, every other command none (R75). -/
def undefinedFlagsClear (w : Word) : Bool :=
  if w.toNat % 256 = 0x32 then w.toNat / 256 % 256 < 4 else w.toNat / 256 % 256 = 0

/-- Third condition of R80: CMD[31:16] = 0. -/
def reservedClear (w : Word) : Bool := w.toNat < 65536

/-- A legal command word (30_encoding.md R80): all three conditions. -/
def legalWord (w : Word) : Bool := opcodeAssigned w && undefinedFlagsClear w && reservedClear w

/-- Every term of Instr is a command of the spec: no constructor has a field that could hold an ill-formed value. -/
def Instr.wellFormed : Instr → Bool
  | .nop | .gfMul | .gfPow | .polyMul | .genPoly | .rsEcc | .polyEval | .packNum | .packAlnum | .packKanji
  | .packByte | .packBits | .maskApply | .maskScore => true
  | .maskSelect _ _ => true

end Sys2Proof
end

