-- ==== Sys2Proof/Decode.lean ====
section
/-! DEFINITION. Decoding a command word (30_encoding.md R83) and, after it, encoding a command (R74, R75). -/

namespace Sys2Proof

/-- OPC = CMD[7:0] (30_encoding.md R73). -/
def opcField (w : Word) : BitVec 8 := w.extractLsb' 0 8

/-- FLAGS = CMD[15:8] (30_encoding.md R73). -/
def flagsField (w : Word) : BitVec 8 := w.extractLsb' 8 8

/-- RSVD = CMD[31:16] (30_encoding.md R73). -/
def rsvdField (w : Word) : BitVec 16 := w.extractLsb' 16 16

/-- The FLAGS bits a command does not define: for MASK_SELECT bits 7:2, for every other command all eight
(30_encoding.md R75). -/
def undefinedFlags (opc flags : BitVec 8) : BitVec 8 := if opc = 0x32#8 then flags &&& 0xFC#8 else flags

/-- Why a word does not decode, with the field the spec reports (30_encoding.md R83; 60_exceptions.md R151). -/
inductive DecodeError where
  /-- An unassigned opcode: BAD_OPC. -/
  | badOpc (opc : BitVec 8)
  /-- A FLAGS bit the opcode does not define: BAD_FLAGS. -/
  | badFlags (flags : BitVec 8)
  /-- A non-zero RSVD field: BAD_RSVD. -/
  | badRsvd (rsvd : BitVec 16)
  deriving DecidableEq, Repr

/-- The command an assigned opcode names, given the two flag bits (30_encoding.md R74, R75). -/
def instrOfOpcode (opc : BitVec 8) (commit force : Bool) : Option Instr :=
  match opc.toNat with
  | 0x00 => some .nop
  | 0x01 => some .gfMul
  | 0x02 => some .gfPow
  | 0x10 => some .polyMul
  | 0x11 => some .genPoly
  | 0x12 => some .rsEcc
  | 0x13 => some .polyEval
  | 0x20 => some .packNum
  | 0x21 => some .packAlnum
  | 0x22 => some .packKanji
  | 0x23 => some .packByte
  | 0x24 => some .packBits
  | 0x30 => some .maskApply
  | 0x31 => some .maskScore
  | 0x32 => some (.maskSelect commit force)
  | _ => none

/-- 30_encoding.md R83: OPC is checked first, then FLAGS, then RSVD, and the first fault is reported. -/
def decodeWord (w : Word) : Except DecodeError Instr :=
  match instrOfOpcode (opcField w) ((flagsField w).getLsbD 0) ((flagsField w).getLsbD 1) with
  | none => .error (.badOpc (opcField w))
  | some i =>
    if undefinedFlags (opcField w) (flagsField w) ≠ 0#8 then .error (.badFlags (flagsField w))
    else if rsvdField w ≠ 0#16 then .error (.badRsvd (rsvdField w))
    else .ok i

/-- The command in the 32-bit word `w` of the opcode table's numbering. Every row has 32 bits (30_encoding.md R72);
a longer `nbits` is no command of QRE. -/
def decodeTableWord (nbits w : Nat) : Option Instr :=
  if nbits ≤ 32 then
    match decodeWord (BitVec.ofNat 32 (w % 2 ^ nbits)) with
    | .ok i => some i
    | .error _ => none
  else none

/-- The opcode of a command (30_encoding.md R74). -/
def Instr.opcode : Instr → BitVec 8
  | .nop => 0x00
  | .gfMul => 0x01
  | .gfPow => 0x02
  | .polyMul => 0x10
  | .genPoly => 0x11
  | .rsEcc => 0x12
  | .polyEval => 0x13
  | .packNum => 0x20
  | .packAlnum => 0x21
  | .packKanji => 0x22
  | .packByte => 0x23
  | .packBits => 0x24
  | .maskApply => 0x30
  | .maskScore => 0x31
  | .maskSelect _ _ => 0x32

/-- The FLAGS field of a command: COMMIT is bit 0 and FORCE is bit 1 of MASK_SELECT's (30_encoding.md R75). -/
def Instr.flags : Instr → BitVec 8
  | .maskSelect commit force => (if commit then 0x01 else 0x00) ||| (if force then 0x02 else 0x00)
  | .nop | .gfMul | .gfPow | .polyMul | .genPoly | .rsEcc | .polyEval | .packNum | .packAlnum | .packKanji
  | .packByte | .packBits | .maskApply | .maskScore => 0x00

/-- The command word of a command (30_encoding.md R71): RSVD = 0, FLAGS, OPC. -/
def encode (i : Instr) : Word := (0 : BitVec 16) ++ (i.flags ++ i.opcode)

end Sys2Proof
end

