-- ==== Sys2Proof/Config.lean ====
section
/-! DEFINITION. What the spec leaves to the platform or to the implementation. Every constant here is without a
body: nothing can evaluate it, so a statement about one holds whatever its value. -/

namespace Sys2Proof

/-- Which 64 KiB window of the host bus QRE occupies: `P_BASE` divided by 0x10000 (00_scope.md R5; 93 entry I6). -/
opaque Config.windowIndex : Nat

/-- `P_BASE`, the bus address of offset 0: any multiple of 0x10000 (00_scope.md R5). -/
def Config.pBase : Nat := Config.windowIndex * 0x10000

/-- `P_IRQ`, the input of the platform's interrupt controller that the irq line drives (60_exceptions.md R158; I7). -/
opaque Config.pIrq : Nat

/-- How many host events pass between the launch of a command and its completion: any finite number, zero included
(44_control.md R145; I5). Applied to the counter `draws` of State, so that every launch has its own. An illegal word
waits for none (30_encoding.md R82). Log entry 2. -/
opaque Config.latency : Nat → Nat

/-- What a read of the byte at window offset `addr` finds in the bits that hold no value: an independent draw, any
byte (10_state.md R38, R39; I2, I3). Applied to the counter `draws` of State, which every step that takes an event
or completes a command advances. Log entry 3. -/
opaque Config.freeByte : (draw : Nat) → (addr : Nat) → Byte

end Sys2Proof
end

