-- ==== Sys2Proof/Machine/State.lean ====
section
/-! DEFINITION. Everything the spec gives QRE (10_state.md R15), as plain data, and the state after power-on reset
(R44, R167). Beside it the four fields of the model's own: the host's pending events, the last answer, and two
counters for what the spec leaves open. -/

namespace Sys2Proof.Machine

/-- The RAMs, keyed by window offset (20_memory.md R48). A plane is a list of (address, byte) pairs with rising
addresses and no 0x00 entry; an unlisted address reads 0x00 in it. `known` says which bits of a byte hold a value,
`val` holds those values. A bit that is 0 in `known` has no value: power-on leaves all RAM so (10_state.md R38), and
a soft reset leaves an aborted command's destination so, down to single BITBUF bits (R39; 70 R169). Log entry 3. -/
structure Memory where
  val : List Host.Cell
  known : List Host.Cell
  deriving DecidableEq, Repr

/-- The RAMs of which no bit has a value (10_state.md R38). -/
def Memory.unwritten : Memory := ⟨[], []⟩

/-- CTRL (10_state.md R19). SRST holds nothing: it reads as 0. -/
structure Ctrl where
  ie : Bool
  deriving DecidableEq, Repr

/-- STATUS (10_state.md R20). `busy` is also the sequencer state of R40. -/
structure Status where
  busy : Bool
  done : Bool
  err : Bool
  ovr : Bool
  ecode : BitVec 4
  deriving DecidableEq, Repr

/-- ERRINFO (10_state.md R28). -/
structure ErrInfo where
  sub : BitVec 8
  idx : BitVec 24
  deriving DecidableEq, Repr

/-- BCFG (10_state.md R29). -/
structure Bcfg where
  ver : BitVec 6
  micro : Bool
  deriving DecidableEq, Repr

/-- ARG0..ARG3 (10_state.md R26). -/
structure Args where
  a0 : Word
  a1 : Word
  a2 : Word
  a3 : Word
  deriving DecidableEq, Repr

/-- RES0..RES3 (10_state.md R27). -/
structure Results where
  r0 : Word
  r1 : Word
  r2 : Word
  r3 : Word
  deriving DecidableEq, Repr

/-- SCORE0..SCORE7 (10_state.md R30). -/
structure Scores where
  s0 : Word
  s1 : Word
  s2 : Word
  s3 : Word
  s4 : Word
  s5 : Word
  s6 : Word
  s7 : Word
  deriving DecidableEq, Repr

/-- PEN1..PEN4 (10_state.md R31). -/
structure Penalties where
  n1 : Word
  n2 : Word
  n3 : Word
  n4 : Word
  deriving DecidableEq, Repr

/-- The size of a bus transaction: 1, 2 or 4 bytes (20_memory.md R45). -/
inductive Size where
  | one
  | two
  | four
  deriving DecidableEq, Repr

/-- A bus transaction (20_memory.md R45). Of `wdata` the low `size` bytes are the write data; the bits above are no
part of the transaction (log entry 10). -/
inductive Transaction where
  | read (off : Offset) (size : Size)
  | write (off : Offset) (size : Size) (wdata : Word)
  deriving DecidableEq, Repr

/-- What the outside does to QRE: a bus transaction (20_memory.md R45), or the release of the power-on reset
(70_reset_and_hazards.md R167; 93 entry I18). -/
inductive HostEvent where
  | bus (t : Transaction)
  | powerOnReset
  deriving DecidableEq, Repr

/-- The response to a transaction (20_memory.md R45): OKAY or ERROR, and a read's data in the low `size` bytes
(0 for a write, and for a read answered ERROR). -/
structure Answer where
  okay : Bool
  rdata : Word
  deriving DecidableEq, Repr

/-- The error kinds (60_exceptions.md R149, R150). -/
inductive ErrorKind where
  | invalidInput
  | unsupportedConfiguration
  /-- Its code is reserved; QRE never raises it (60_exceptions.md R150). -/
  | capacityExceeded
  | internalError
  | illegalCommand
  deriving DecidableEq, Repr

/-- The error subcodes (60_exceptions.md R151). -/
inductive Subcode where
  | badOpc
  | badFlags
  | badRsvd
  | argRange
  | fieldSize
  | lenRange
  | logZero
  | inRange
  | outRange
  | badChar
  | oddLength
  | badVersion
  | badMask
  | badCell
  deriving DecidableEq, Repr

/-- A command error as its `raise` gives it (00_scope.md R9; 60_exceptions.md R148). -/
structure CmdError where
  kind : ErrorKind
  sub : Subcode
  idx : BitVec 24
  deriving DecidableEq, Repr

/-- Nothing stops QRE: a command error is a completion (44_control.md R146, R147) and a bus ERROR is an answer
(60_exceptions.md R156), and the machine goes on after both. So there is no fault to name. Log entry 9. -/
inductive Fault where
  deriving DecidableEq, Repr

/-- The one refusal the interface asks for. No arm of exec answers it. -/
inductive Refusal where
  /-- An instruction with no meaning in this model; raised by exec's arm alone, and by none now. Safe. -/
  | notModelled (mnemonic : String)
  deriving DecidableEq, Repr

/-- The state of QRE (10_state.md R15) and, from `host` on, the model's own fields. -/
structure State where
  ctrl : Ctrl
  status : Status
  cmd : Word
  args : Args
  res : Results
  errInfo : ErrInfo
  bcfg : Bcfg
  scores : Scores
  pens : Penalties
  /-- MEM_A, MEM_B, MEM_R, IN, BITBUF and BOARD (10_state.md R33 to R36). -/
  ram : Memory
  /-- Host events not yet taken, oldest first (log entry 1). -/
  host : List HostEvent
  /-- The response to the last transaction taken (log entry 10). -/
  answer : Option Answer
  /-- How many more host events the running command lets pass (44_control.md R145; log entry 2). -/
  wait : Nat
  /-- The number of the next draw of a free value (log entry 3). -/
  draws : Nat
  deriving DecidableEq, Repr

/-- The state after power-on reset (10_state.md R44; 70_reset_and_hazards.md R167). The values of the last four
fields are the model's (log entry 13). -/
def State.reset : State where
  ctrl := ⟨false⟩
  status := ⟨false, false, false, false, 0⟩
  cmd := 0
  args := ⟨0, 0, 0, 0⟩
  res := ⟨0, 0, 0, 0⟩
  errInfo := ⟨0, 0⟩
  bcfg := ⟨0, false⟩
  scores := ⟨0, 0, 0, 0, 0, 0, 0, 0⟩
  pens := ⟨0, 0, 0, 0⟩
  ram := Memory.unwritten
  host := []
  answer := none
  wait := 0
  draws := 0

end Sys2Proof.Machine
end

