-- ==== Sys2Proof/Machine/Map.lean ====
section
/-! DEFINITION. The window: its regions, register offsets and memories (20_memory.md R48, R52), the sizes of
00_scope.md R5, and where the platform puts the window on its bus. -/

namespace Sys2Proof.Machine

/-- The memories of the window (20_memory.md R52). -/
inductive Window where
  | exp
  | log
  | memA
  | memB
  | memR
  | inBytes
  | bitbuf
  | board
  deriving DecidableEq, Repr

/-- The window base of a memory (20_memory.md R52). -/
def Window.base : Window → Nat
  | .exp => 0x1000
  | .log => 0x1100
  | .memA => 0x1200
  | .memB => 0x1300
  | .memR => 0x1400
  | .inBytes => 0x2000
  | .bitbuf => 0x4000
  | .board => 0x8000

/-- The size of a memory in bytes (20_memory.md R52; 00_scope.md R5). -/
def Window.size : Window → Nat
  | .exp | .log | .memA | .memB | .memR => 256
  | .inBytes => 8192
  | .bitbuf => 4096
  | .board => 32768

/-- Which memories are RAM; EXP and LOG are ROM (20_memory.md R48; 10_state.md R32). -/
def Window.isRam : Window → Bool
  | .exp | .log => false
  | .memA | .memB | .memR | .inBytes | .bitbuf | .board => true

/-- The memory that holds the byte at an offset, if one does (20_memory.md R48). -/
def windowAt (a : Nat) : Option Window :=
  if a < 0x1000 then none
  else if a < 0x1100 then some .exp
  else if a < 0x1200 then some .log
  else if a < 0x1300 then some .memA
  else if a < 0x1400 then some .memB
  else if a < 0x1500 then some .memR
  else if a < 0x2000 then none
  else if a < 0x4000 then some .inBytes
  else if a < 0x5000 then some .bitbuf
  else if a < 0x8000 then none
  else if a < 0x10000 then some .board
  else none

/-- Whether the byte at an offset is RAM. -/
def isRam (a : Nat) : Bool :=
  match windowAt a with
  | some w => w.isRam
  | none => false

/-- BITBUF's size in bits (00_scope.md R5). -/
def bitbufBits : Nat := 32768

/-- The registers (20_memory.md R52). -/
inductive Reg where
  | id
  | ctrl
  | status
  | cmd
  | arg (n : Fin 4)
  | res (n : Fin 4)
  | errInfo
  | bcfg
  | score (n : Fin 8)
  | pen (n : Fin 4)
  deriving DecidableEq, Repr

/-- The register at an offset (20_memory.md R52); the offsets not listed there are unmapped (R49). -/
def regAt (off : Nat) : Option Reg :=
  match off with
  | 0x000 => some .id
  | 0x004 => some .ctrl
  | 0x008 => some .status
  | 0x00C => some .cmd
  | 0x010 => some (.arg 0)
  | 0x014 => some (.arg 1)
  | 0x018 => some (.arg 2)
  | 0x01C => some (.arg 3)
  | 0x020 => some (.res 0)
  | 0x024 => some (.res 1)
  | 0x028 => some (.res 2)
  | 0x02C => some (.res 3)
  | 0x030 => some .errInfo
  | 0x034 => some .bcfg
  | 0x040 => some (.score 0)
  | 0x044 => some (.score 1)
  | 0x048 => some (.score 2)
  | 0x04C => some (.score 3)
  | 0x050 => some (.score 4)
  | 0x054 => some (.score 5)
  | 0x058 => some (.score 6)
  | 0x05C => some (.score 7)
  | 0x060 => some (.pen 0)
  | 0x064 => some (.pen 1)
  | 0x068 => some (.pen 2)
  | 0x06C => some (.pen 3)
  | _ => none

/-- The offset of a register (20_memory.md R52). -/
def Reg.offset : Reg → Nat
  | .id => 0x000
  | .ctrl => 0x004
  | .status => 0x008
  | .cmd => 0x00C
  | .arg n => 0x010 + 4 * n.val
  | .res n => 0x020 + 4 * n.val
  | .errInfo => 0x030
  | .bcfg => 0x034
  | .score n => 0x040 + 4 * n.val
  | .pen n => 0x060 + 4 * n.val

/-- The number of bytes of a transaction (20_memory.md R45). -/
def Size.bytes : Size → Nat
  | .one => 1
  | .two => 2
  | .four => 4

/-- The bus address of an offset: the platform puts the window at `P_BASE` (20_memory.md R45; 00_scope.md R5). -/
def busAddress (off : Offset) : Nat := Config.pBase + off.toNat

/-- The offset a bus address names, if it lies in QRE's window. -/
def offsetOfBusAddress (addr : Nat) : Option Offset :=
  if Config.pBase ≤ addr ∧ addr < Config.pBase + 0x10000 then some (BitVec.ofNat 16 (addr - Config.pBase)) else none

end Sys2Proof.Machine
end

