-- ==== Sys2Proof/Machine/Flags.lean ====
section
/-! DEFINITION. Every flag computation of QRE: STATUS through the lifecycle (44_control.md R144, R146) and the host's
writes (10_state.md R22 to R24), the words STATUS, ERRINFO, CTRL and BCFG read as, and the irq line. -/

namespace Sys2Proof.Machine

/-- The code ECODE holds for an error kind (60_exceptions.md R150). -/
def ErrorKind.code : ErrorKind → BitVec 4
  | .invalidInput => 1
  | .unsupportedConfiguration => 2
  | .capacityExceeded => 3
  | .internalError => 4
  | .illegalCommand => 5

/-- The code ERRINFO.SUB holds for a subcode (60_exceptions.md R151). -/
def Subcode.code : Subcode → BitVec 8
  | .badOpc => 0x01
  | .badFlags => 0x02
  | .badRsvd => 0x03
  | .argRange => 0x10
  | .fieldSize => 0x11
  | .lenRange => 0x12
  | .logZero => 0x13
  | .inRange => 0x20
  | .outRange => 0x21
  | .badChar => 0x22
  | .oddLength => 0x23
  | .badVersion => 0x30
  | .badMask => 0x31
  | .badCell => 0x32

/-- The error kind each subcode belongs to (60_exceptions.md R151, column ECODE). -/
def Subcode.kind : Subcode → ErrorKind
  | .badOpc | .badFlags | .badRsvd => .illegalCommand
  | .argRange | .fieldSize | .lenRange | .logZero | .inRange | .outRange | .badCell => .internalError
  | .badChar | .oddLength => .invalidInput
  | .badVersion | .badMask => .unsupportedConfiguration

/-- STATUS at a launch (44_control.md R144): DONE, ERR and ECODE cleared, BUSY set, OVR kept. -/
def Status.launched (st : Status) : Status := ⟨true, false, false, st.ovr, 0⟩

/-- STATUS at a successful completion (44_control.md R146): DONE set, BUSY cleared, ERR and ECODE 0, OVR kept. -/
def Status.succeeded (st : Status) : Status := ⟨false, true, false, st.ovr, 0⟩

/-- STATUS at a completion with an error (44_control.md R146; 10_state.md R23). -/
def Status.failed (st : Status) (code : BitVec 4) : Status := ⟨false, true, true, st.ovr, code⟩

/-- STATUS after a write was dropped while BUSY (10_state.md R24; 20_memory.md R66). -/
def Status.overrun (st : Status) : Status := { st with ovr := true }

/-- A host write to STATUS (10_state.md R20, R22 to R24): a 1 in bit 1 clears DONE, in bit 2 ERR with ECODE, in bit
3 OVR; every other bit of the written word is ignored. -/
def Status.writeOneToClear (st : Status) (w : Word) : Status where
  busy := st.busy
  done := st.done && !w.getLsbD 1
  err := st.err && !w.getLsbD 2
  ovr := st.ovr && !w.getLsbD 3
  ecode := if w.getLsbD 2 then 0 else st.ecode

/-- One bit as a number. -/
def bit (b : Bool) : BitVec 1 := BitVec.ofBool b

/-- STATUS as it reads (10_state.md R20). -/
def Status.word (st : Status) : Word :=
  (0 : BitVec 20) ++ (st.ecode ++ ((0 : BitVec 4) ++ (bit st.ovr ++ (bit st.err ++ (bit st.done ++ bit st.busy)))))

/-- ERRINFO as it reads (10_state.md R28). -/
def ErrInfo.word (e : ErrInfo) : Word := e.sub ++ e.idx

/-- CTRL as it reads (10_state.md R19): SRST and the reserved bits are 0. -/
def Ctrl.word (c : Ctrl) : Word := (0 : BitVec 31) ++ bit c.ie

/-- BCFG as it reads (10_state.md R29). -/
def Bcfg.word (b : Bcfg) : Word := (0 : BitVec 23) ++ (bit b.micro ++ ((0 : BitVec 2) ++ b.ver))

/-- What a write leaves in BCFG (10_state.md R29): VER and MICRO, whatever their values. -/
def Bcfg.ofWord (w : Word) : Bcfg := ⟨w.extractLsb' 0 6, w.getLsbD 8⟩

/-- The irq output: a level, IE and DONE (10_state.md R42; 60_exceptions.md R158). -/
def irq (s : State) : Bool := s.ctrl.ie && s.status.done

/-- The level QRE puts on input `n` of the platform's interrupt controller: irq on input `P_IRQ`, nothing elsewhere
(60_exceptions.md R158). -/
def irqInput (s : State) (n : Nat) : Bool := n == Config.pIrq && irq s

end Sys2Proof.Machine
end

