-- ==== Sys2Proof/Machine/Operands.lean ====
section
/-! DEFINITION. Every operand form of QRE: the ARG registers as 32-bit unsigned numbers (30_encoding.md R77), the
board geometry of BCFG (R78; 43_mask.md R122, R123), and the errors the operand checks raise, with the index each
reports (60_exceptions.md R151). -/

namespace Sys2Proof.Machine

/-- ARG0 as the command sees it: all 32 bits, unsigned (30_encoding.md R77). -/
def arg0 (s : State) : Nat := s.args.a0.toNat

/-- ARG1, likewise. -/
def arg1 (s : State) : Nat := s.args.a1.toNat

/-- ARG2, likewise. -/
def arg2 (s : State) : Nat := s.args.a2.toNat

/-- The board dimension of a version (43_mask.md R122). -/
def boardDim (ver : Nat) (micro : Bool) : Nat := if micro then 11 + 2 * (ver - 1) else 21 + 4 * (ver - 1)

/-- VER of BCFG (30_encoding.md R78). -/
def verOf (s : State) : Nat := s.bcfg.ver.toNat

/-- The dimension of the board a mask command works on (43_mask.md R123). -/
def dimOf (s : State) : Nat := boardDim (verOf s) s.bcfg.micro

/-- Whether BCFG is a legal configuration (43_mask.md R130). -/
def bcfgLegal (b : Bcfg) : Bool :=
  if b.micro then decide (1 ≤ b.ver.toNat ∧ b.ver.toNat ≤ 4) else decide (1 ≤ b.ver.toNat ∧ b.ver.toNat ≤ 40)

/-- An index as ERRINFO.IDX holds it, clamped to 24 bits (60_exceptions.md R151). -/
def clampIdx (n : Nat) : BitVec 24 := BitVec.ofNat 24 (min n 0xFFFFFF)

/-- `raise <Error>(sub, idx)` (00_scope.md R9), the kind being the subcode's (60_exceptions.md R151). -/
def raise (sub : Subcode) (idx : BitVec 24) : CmdError := ⟨sub.kind, sub, idx⟩

/-- ARG_RANGE, naming the offending ARG (60_exceptions.md R151). -/
def argRange (n : Nat) : CmdError := raise .argRange (BitVec.ofNat 24 n)

/-- The low 32 bits of a number, as a register holds it (00_scope.md R7). -/
def toWord (n : Nat) : Word := BitVec.ofNat 32 n

/-- `zext_32` of a byte (00_scope.md R6). -/
def byteToWord (b : Byte) : Word := BitVec.ofNat 32 b.toNat

end Sys2Proof.Machine
end

