-- ==== Sys2Proof/Machine/Ops.lean ====
section
/-! DEFINITION. The named operations over memory and registers (00_scope.md R9; 20_memory.md), the launch of a command,
its completion with or without an error (44_control.md R144, R146; 60_exceptions.md R153, R154), and the
acknowledgement of an error report (R155). -/

namespace Sys2Proof.Machine

/-- The byte a plane holds at an address; 0x00 where none is listed. -/
def planeGet : List Host.Cell → Nat → Byte
  | [], _ => 0#8
  | (k, c) :: rest, a => if k = a then c else if a < k then 0#8 else planeGet rest a

/-- Put a byte at an address, keeping the addresses rising and no 0x00 listed. -/
def planeSet (a : Nat) (b : Byte) : List Host.Cell → List Host.Cell
  | [] => if b = 0#8 then [] else [(a, b)]
  | (k, c) :: rest =>
    if a < k then (if b = 0#8 then (k, c) :: rest else (a, b) :: (k, c) :: rest)
    else if k = a then (if b = 0#8 then rest else (a, b) :: rest)
    else (k, c) :: planeSet a b rest

/-- The canonical form of a plane whose addresses lie above `lo`: rising, all in RAM, no 0x00 byte. -/
def planeWfFrom : Nat → List Host.Cell → Bool
  | _, [] => true
  | lo, (k, c) :: rest => decide (lo ≤ k) && isRam k && decide (c ≠ 0#8) && planeWfFrom (k + 1) rest

/-- The canonical form of the RAMs: both planes canonical, and no value where no bit is known. -/
def Memory.wf (m : Memory) : Bool :=
  planeWfFrom 0 m.val && planeWfFrom 0 m.known && m.val.all (fun c => c.2 &&& ~~~ planeGet m.known c.1 == 0#8)

/-- Give the bits of `mask` of the RAM byte at `a` the values they have in `b`; every other bit keeps its value, or
its having none. A ROM byte or an unmapped offset does not change (20_memory.md R54). -/
def putBits (m : Memory) (a : Nat) (mask b : Byte) : Memory :=
  if isRam a then
    { val := planeSet a ((planeGet m.val a &&& ~~~ mask) ||| (b &&& mask)) m.val
      known := planeSet a (planeGet m.known a ||| mask) m.known }
  else m

/-- Take their value from the bits of `mask` of the RAM byte at `a` (10_state.md R39). -/
def forgetBits (m : Memory) (a : Nat) (mask : Byte) : Memory :=
  if isRam a then
    { val := planeSet a (planeGet m.val a &&& ~~~ mask) m.val
      known := planeSet a (planeGet m.known a &&& ~~~ mask) m.known }
  else m

/-- `MemRead(a, 1)` (00_scope.md R9): a ROM byte, or a RAM byte, whose bits without a value are drawn (10_state.md
R38). `draw` numbers the draw; one step reads a byte at most once, so two reads of a byte are two draws. -/
def readByte (m : Memory) (draw a : Nat) : Byte :=
  match romByte a with
  | some b => b
  | none =>
    if planeGet m.known a = 0xFF#8 then planeGet m.val a
    else (planeGet m.val a &&& planeGet m.known a) ||| (Config.freeByte draw a &&& ~~~ planeGet m.known a)

/-- Whether every bit of a byte holds a value, so that reading it draws nothing. -/
def byteKnown (m : Memory) (a : Nat) : Bool := (romByte a).isSome || planeGet m.known a == 0xFF#8

/-- `MemWrite(a, 1, b)` (00_scope.md R9). -/
def writeByte (m : Memory) (a : Nat) (b : Byte) : Memory := putBits m a 0xFF#8 b

/-- The `n` bytes from `a` on, lowest address first. -/
def readBytes (m : Memory) (draw a n : Nat) : List Byte := (List.range n).map fun i => readByte m draw (a + i)

/-- Write bytes from `a` on, lowest address first. -/
def writeBytes (m : Memory) (a : Nat) : List Byte → Memory
  | [] => m
  | b :: bs => writeBytes (writeByte m a b) (a + 1) bs

/-- Take their value from `n` whole bytes. -/
def forgetBytes (m : Memory) (a : Nat) : Nat → Memory
  | 0 => m
  | n + 1 => forgetBytes (forgetBits m a 0xFF#8) (a + 1) n

/-- The window offset of the BITBUF byte that holds bit `p` (20_memory.md R59). -/
def bitAddr (p : Nat) : Nat := Window.bitbuf.base + p / 8

/-- The place of BITBUF bit `p` in its byte: bit 7 - (p mod 8) (20_memory.md R59). -/
def bitMask (p : Nat) : Byte := 1#8 <<< (7 - p % 8)

/-- `BitRead(p)` (20_memory.md R59). -/
def bitRead (m : Memory) (draw p : Nat) : Bool := (readByte m draw (bitAddr p)).getLsbD (7 - p % 8)

/-- Set BITBUF bit `p`. BITBUF has no bit above 32767, so none is written there. -/
def putBit (m : Memory) (p : Nat) (b : Bool) : Memory :=
  if p < bitbufBits then putBits m (bitAddr p) (bitMask p) (if b then 0xFF#8 else 0x00#8) else m

/-- `BitWrite(p, w, v)` (20_memory.md R60): bit p + t becomes bit w - 1 - t of v, and every other bit keeps its value. -/
def bitWrite (m : Memory) (p : Nat) : (w v : Nat) → Memory
  | 0, _ => m
  | w + 1, v => bitWrite (putBit m p (v.testBit w)) (p + 1) w v

/-- A field to emit: its width in bits and its value. -/
abbrev Field := Nat × Nat

/-- Emit fields one after the other with BitWrite, starting at bit `p` (42_pack.md R109). -/
def writeFields (m : Memory) (p : Nat) : List Field → Memory
  | [] => m
  | (w, v) :: fs => writeFields (bitWrite m p w v) (p + w) fs

/-- Take their value from BITBUF bits p .. p+n-1 (70_reset_and_hazards.md R169). -/
def forgetBitRange (m : Memory) (p : Nat) : Nat → Memory
  | 0 => m
  | n + 1 => forgetBitRange (if p < bitbufBits then forgetBits m (bitAddr p) (bitMask p) else m) (p + 1) n

/-- Bytes as the little-endian number they are in a host access (20_memory.md R57). -/
def littleEndian : List Byte → Nat
  | [] => 0
  | b :: bs => b.toNat + 256 * littleEndian bs

/-- A number as `n` bytes, little-endian (20_memory.md R57). -/
def toLittleEndian : (n v : Nat) → List Byte
  | 0, _ => []
  | n + 1, v => BitVec.ofNat 8 (v % 256) :: toLittleEndian n (v / 256)

/-- ARGn (10_state.md R26). -/
def Args.get (a : Args) : Fin 4 → Word
  | 0 => a.a0
  | 1 => a.a1
  | 2 => a.a2
  | 3 => a.a3

/-- Write ARGn (10_state.md R26). -/
def Args.set (a : Args) (w : Word) : Fin 4 → Args
  | 0 => { a with a0 := w }
  | 1 => { a with a1 := w }
  | 2 => { a with a2 := w }
  | 3 => { a with a3 := w }

/-- RESn (10_state.md R27). -/
def Results.get (r : Results) : Fin 4 → Word
  | 0 => r.r0
  | 1 => r.r1
  | 2 => r.r2
  | 3 => r.r3

/-- SCOREn (10_state.md R30). -/
def Scores.get (c : Scores) : Fin 8 → Word
  | 0 => c.s0
  | 1 => c.s1
  | 2 => c.s2
  | 3 => c.s3
  | 4 => c.s4
  | 5 => c.s5
  | 6 => c.s6
  | 7 => c.s7

/-- PEN(n+1) (10_state.md R31). -/
def Penalties.get (p : Penalties) : Fin 4 → Word
  | 0 => p.n1
  | 1 => p.n2
  | 2 => p.n3
  | 3 => p.n4

/-- The value of ID: MAGIC "QRE", REV 1 (10_state.md R18). -/
def idWord : Word := 0x51524501

/-- `x[R]`, the value a register reads as (10_state.md R18 to R31; 20_memory.md R51). -/
def readReg (s : State) : Reg → Word
  | .id => idWord
  | .ctrl => s.ctrl.word
  | .status => s.status.word
  | .cmd => s.cmd
  | .arg n => s.args.get n
  | .res n => s.res.get n
  | .errInfo => s.errInfo.word
  | .bcfg => s.bcfg.word
  | .score n => s.scores.get n
  | .pen n => s.pens.get n

/-- RES0 becomes `w`; the other RES keep their values (10_state.md R27). -/
def setRes0 (s : State) (w : Word) : State := { s with res := { s.res with r0 := w } }

/-- RES0 and RES1. -/
def setRes01 (s : State) (w0 w1 : Word) : State := { s with res := { s.res with r0 := w0, r1 := w1 } }

/-- RES0, RES1 and RES2. -/
def setRes012 (s : State) (w0 w1 w2 : Word) : State := { s with res := { s.res with r0 := w0, r1 := w1, r2 := w2 } }

/-- Launch (44_control.md R144): CMD is stored, DONE, ERR, ECODE and ERRINFO are cleared, BUSY is set, and `wait`
host events may pass before the completion (R145). -/
def launch (s : State) (w : Word) (wait : Nat) : State :=
  { s with cmd := w, status := s.status.launched, errInfo := ⟨0, 0⟩, wait := wait }

/-- What a command's own pseudocode leaves: its first `raise`, or the state with its register and memory writes. -/
abbrev Run := Except CmdError State

/-- A completion with an error, QRE's form of taking an exception (60_exceptions.md R153, R154; 44_control.md R146):
nothing of the command's outputs is written; DONE, ERR, ECODE and ERRINFO report it and BUSY ends. -/
def completeError (s : State) (e : CmdError) : State :=
  { s with
    status := s.status.failed e.kind.code
    errInfo := ⟨e.sub.code, e.idx⟩
    wait := 0
    draws := s.draws + 1 }

/-- A successful completion (44_control.md R146): `t` holds the command's writes. -/
def completeOk (t : State) : State :=
  { t with
    status := t.status.succeeded
    errInfo := ⟨0, 0⟩
    wait := 0
    draws := t.draws + 1 }

/-- Completion (44_control.md R146) of a command launched in `s`. -/
def complete (s : State) : Run → State
  | .error e => completeError s e
  | .ok t => completeOk t

/-- The acknowledgement of a report by a write to STATUS, QRE's form of a return from an exception (60_exceptions.md
R155): the W1C bits written 1 are cleared and nothing is restored. -/
def acknowledge (s : State) (w : Word) : State := { s with status := s.status.writeOneToClear w }

/-- A host write to CMD, ARG or BCFG while BUSY: dropped, and OVR set (20_memory.md R66). -/
def dropWrite (s : State) : State := { s with status := s.status.overrun }

/-- The error a word that does not decode completes with (30_encoding.md R82; 60_exceptions.md R151). -/
def decodeFailure : Sys2Proof.DecodeError → CmdError
  | .badOpc opc => raise .badOpc (BitVec.ofNat 24 opc.toNat)
  | .badFlags flags => raise .badFlags (BitVec.ofNat 24 flags.toNat)
  | .badRsvd rsvd => raise .badRsvd (BitVec.ofNat 24 rsvd.toNat)

end Sys2Proof.Machine
end

