-- ==== Sys2Proof/Machine/Control.lean ====
section
/-! DEFINITION. The control command, NOP (44_control.md R143). -/

namespace Sys2Proof.Machine

/-- NOP's own effect: none (44_control.md R143). -/
def runNop (s : State) : Run := .ok s

/-- NOP (44_control.md R143): nothing but the lifecycle. -/
def execNop (s : State) : Host.Outcome State Fault Refusal := .next (complete s (runNop s))

end Sys2Proof.Machine
end

