-- ==== Sys2Proof/Machine/Mask.lean ====
section
/-! DEFINITION. The masking engine: the board, the masks, the scores, and MASK_APPLY, MASK_SCORE and MASK_SELECT
(43_mask.md). A board is the list of its dim*dim cell bytes, row by row (R124). -/

namespace Sys2Proof.Machine

/-- COLOR, bits 1:0 of a cell byte (10_state.md R37). -/
def cellColor (b : Byte) : Nat := b.toNat % 4

/-- TAG, bits 5:2 of a cell byte (10_state.md R37). -/
def cellTag (b : Byte) : Nat := b.toNat / 4 % 16

/-- A malformed cell byte (10_state.md R37; 43_mask.md R131). -/
def cellMalformed (b : Byte) : Bool := cellColor b == 3 || decide (10 ≤ cellTag b) || b.toNat / 64 != 0

/-- A masked cell (43_mask.md R129): tag 7, 8 or 9, colour unset or set. -/
def cellMasked (b : Byte) : Bool :=
  (cellTag b == 7 || cellTag b == 8 || cellTag b == 9) && (cellColor b == 0 || cellColor b == 1)

/-- `dk`: whether a cell counts as dark (43_mask.md R126). -/
def cellDark (b : Byte) : Bool := cellColor b == 1

/-- `pred(m, i, j)`, i the row and j the column (43_mask.md R127). -/
def maskPred (m i j : Nat) : Bool :=
  match m with
  | 0 => (i + j) % 2 == 0
  | 1 => i % 2 == 0
  | 2 => j % 3 == 0
  | 3 => (i + j) % 3 == 0
  | 4 => (i / 2 + j / 3) % 2 == 0
  | 5 => (i * j) % 2 + (i * j) % 3 == 0
  | 6 => ((i * j) % 2 + (i * j) % 3) % 2 == 0
  | 7 => ((i + j) % 2 + (i * j) % 3) % 2 == 0
  | _ => false

/-- One cell under mask `m` (43_mask.md R129). -/
def maskCell (m r c : Nat) (b : Byte) : Byte := if cellMasked b && maskPred m r c then b ^^^ 1#8 else b

/-- `apply_mask` from cell index `t` on (43_mask.md R129): cell t is row t / dim, column t mod dim. -/
def applyMaskFrom (dim m : Nat) : Nat → List Byte → List Byte
  | _, [] => []
  | t, b :: bs => maskCell m (t / dim) (t % dim) b :: applyMaskFrom dim m (t + 1) bs

/-- `apply_mask(B, m)` (43_mask.md R129). -/
def applyMask (dim m : Nat) (cells : List Byte) : List Byte := applyMaskFrom dim m 0 cells

/-- The rows of a board, as dark or light, top row first; `n` rows of `dim` cells. -/
def rowsOf (dim : Nat) : (n : Nat) → List Bool → List (List Bool)
  | 0, _ => []
  | n + 1, xs => xs.take dim :: rowsOf dim n (xs.drop dim)

/-- The columns of a board from its rows, leftmost first. -/
def columnsOf (dim : Nat) (rows : List (List Bool)) : List (List Bool) :=
  rows.foldr (fun row cols => List.zipWith (fun x col => x :: col) row cols) (List.replicate dim [])

/-- The rows of a board (43_mask.md R132: a line is a row or a column). -/
def boardRows (dim : Nat) (cells : List Byte) : List (List Bool) := rowsOf dim dim (cells.map cellDark)

/-- The 2*dim lines of a board: its rows, then its columns (43_mask.md R132). -/
def boardLines (dim : Nat) (cells : List Byte) : List (List Bool) :=
  boardRows dim cells ++ columnsOf dim (boardRows dim cells)

/-- What a maximal run scores (43_mask.md R132). -/
def runScore (run : Nat) : Nat := if 5 ≤ run then 3 + (run - 5) else 0

/-- The runs of a line after `run` cells of colour `x` (43_mask.md R132). -/
def runsFrom (x : Bool) (run : Nat) : List Bool → Nat
  | [] => runScore run
  | y :: ys => if y = x then runsFrom x (run + 1) ys else runScore run + runsFrom y 1 ys

/-- N1 of one line (43_mask.md R132). -/
def lineN1 : List Bool → Nat
  | [] => 0
  | x :: xs => runsFrom x 1 xs

/-- N1 (43_mask.md R132): the runs of every row and column. -/
def penaltyN1 (dim : Nat) (cells : List Byte) : Nat := ((boardLines dim cells).map lineN1).sum

/-- The uniform 2 x 2 positions of two rows, one above the other (43_mask.md R133). -/
def pairBlocks : List Bool → List Bool → Nat
  | a :: as, b :: bs =>
    (match as, bs with
      | a' :: _, b' :: _ => if a = a' ∧ a = b ∧ a = b' then 1 else 0
      | _, _ => 0) + pairBlocks as bs
  | _, _ => 0

/-- The uniform 2 x 2 positions of all rows (43_mask.md R133). -/
def rowsBlocks : List (List Bool) → Nat
  | [] => 0
  | a :: rows =>
    (match rows with
      | b :: _ => pairBlocks a b
      | [] => 0) + rowsBlocks rows

/-- N2 (43_mask.md R133): 3 for every uniform 2 x 2 position. -/
def penaltyN2 (dim : Nat) (cells : List Byte) : Nat := 3 * rowsBlocks (boardRows dim cells)

/-- P1, dark = true (43_mask.md R134). -/
def finderP1 : List Bool := [true, false, true, true, true, false, true, false, false, false, false]

/-- P2, P1 reversed (43_mask.md R134). -/
def finderP2 : List Bool := [false, false, false, false, true, false, true, true, true, false, true]

/-- N3 of one line (43_mask.md R134): every start is compared with both sequences; a window that would reach past the
end of the line is shorter than either and equals neither. -/
def lineN3 : List Bool → Nat
  | [] => 0
  | x :: xs =>
    (if (x :: xs).take 11 = finderP1 then 40 else 0) + (if (x :: xs).take 11 = finderP2 then 40 else 0) + lineN3 xs

/-- N3 (43_mask.md R134). -/
def penaltyN3 (dim : Nat) (cells : List Byte) : Nat := ((boardLines dim cells).map lineN3).sum

/-- The number of dark cells (43_mask.md R135, R140). -/
def darkCount (cells : List Byte) : Nat := (cells.filter cellDark).length

/-- `|a - b|` (00_scope.md R7). -/
def absDiff (a b : Nat) : Nat := (a - b) + (b - a)

/-- N4 from the number of dark cells and of all cells (43_mask.md R135). -/
def balanceN4 (dark total : Nat) : Nat :=
  10 * min (absDiff (20 * dark / total) 10) (absDiff (20 * dark / total) 9)

/-- N4 (43_mask.md R135). -/
def penaltyN4 (dim : Nat) (cells : List Byte) : Nat := balanceN4 (darkCount cells) (dim * dim)

/-- `score_std(B)` (43_mask.md R136). -/
def scoreStd (dim : Nat) (cells : List Byte) : Nat :=
  penaltyN1 dim cells + penaltyN2 dim cells + penaltyN3 dim cells + penaltyN4 dim cells

/-- The dark cells of column dim-1 (43_mask.md R137). -/
def sumR (dim : Nat) (cells : List Byte) : Nat :=
  ((List.range dim).filter fun r => cellDark (cells.getD (r * dim + (dim - 1)) 0#8)).length

/-- The dark cells of row dim-1 (43_mask.md R137). -/
def sumB (dim : Nat) (cells : List Byte) : Nat :=
  ((List.range dim).filter fun c => cellDark (cells.getD ((dim - 1) * dim + c) 0#8)).length

/-- `score_micro(B)` (43_mask.md R137). -/
def scoreMicro (dim : Nat) (cells : List Byte) : Nat :=
  min (sumR dim cells) (sumB dim cells) * 16 + max (sumR dim cells) (sumB dim cells)

/-- The mask IDs of the candidates, in slot order (43_mask.md R128). -/
def candidates (micro : Bool) : List Nat := if micro then [1, 4, 6, 7] else [0, 1, 2, 3, 4, 5, 6, 7]

/-- The mask ID of a slot (43_mask.md R128). -/
def candidateAt (micro : Bool) (slot : Nat) : Nat := (candidates micro).getD slot 0

/-- The score that decides on a board of this kind (43_mask.md R139). -/
def scoreOf (micro : Bool) (dim : Nat) (cells : List Byte) : Nat :=
  if micro then scoreMicro dim cells else scoreStd dim cells

/-- The scores of the candidates, in slot order (43_mask.md R139). -/
def candidateScores (micro : Bool) (dim : Nat) (cells : List Byte) : List Nat :=
  (candidates micro).map fun m => scoreOf micro dim (applyMask dim m cells)

/-- Whether score `a` beats score `b`: lower on a standard board, higher on a Micro board (43_mask.md R139). -/
def beats (micro : Bool) (a b : Nat) : Bool := if micro then decide (b < a) else decide (a < b)

/-- The first best slot, given the best one so far: `slot` is the slot of the list's head (43_mask.md R139). -/
def bestFrom (micro : Bool) (best bestScore : Nat) : (slot : Nat) → List Nat → Nat
  | _, [] => best
  | slot, x :: xs =>
    if beats micro x bestScore then bestFrom micro slot x (slot + 1) xs
    else bestFrom micro best bestScore (slot + 1) xs

/-- The winning slot: the least slot whose score no other beats (43_mask.md R139). -/
def bestSlot (micro : Bool) (scores : List Nat) : Nat :=
  match scores with
  | [] => 0
  | x :: xs => bestFrom micro 0 x 1 xs

/-- The lowest malformed index, from index `t` on (43_mask.md R131). -/
def firstMalformed : (t : Nat) → List Byte → Option Nat
  | _, [] => none
  | t, b :: bs => if cellMalformed b then some t else firstMalformed (t + 1) bs

/-- `BOARD[0 .. dim*dim-1]` as a mask command reads it: its input at launch (43_mask.md R123; 20_memory.md R62). -/
def boardCells (s : State) : List Byte := readBytes s.ram s.draws Window.board.base (dimOf s * dimOf s)

/-- BOARD[0 ..] becomes these cells (43_mask.md R138, R141). -/
def putBoard (s : State) (cells : List Byte) : State :=
  { s with ram := writeBytes s.ram Window.board.base cells }

/-- `check_bcfg()` (43_mask.md R130). -/
def checkBcfg (s : State) : Option CmdError :=
  if bcfgLegal s.bcfg then none
  else some (raise .badVersion (BitVec.ofNat 24 (s.bcfg.word.toNat % 512)))

/-- `check_mask_id(m)` (43_mask.md R131). -/
def checkMaskId (s : State) (m : Nat) : Option CmdError :=
  if 7 < m then some (argRange 0)
  else if s.bcfg.micro = true ∧ m ∉ candidates true then some (raise .badMask (BitVec.ofNat 24 m))
  else none

/-- `check_board()` (43_mask.md R131). -/
def checkBoard (cells : List Byte) : Option CmdError :=
  (firstMalformed 0 cells).map fun t => raise .badCell (BitVec.ofNat 24 t)

/-- The first error of a list of checks in order, or the result (60_exceptions.md R152). -/
def firstError : List (Option CmdError) → State → Run
  | [], t => .ok t
  | none :: checks, t => firstError checks t
  | some e :: _, _ => .error e

/-- MASK_APPLY's checks and result (43_mask.md R138). -/
def runMaskApply (s : State) : Run :=
  firstError [checkBcfg s, checkMaskId s (arg0 s), checkBoard (boardCells s)]
    (setRes0 (putBoard s (applyMask (dimOf s) (arg0 s) (boardCells s))) (toWord (arg0 s)))

/-- MASK_APPLY (43_mask.md R138). -/
def execMaskApply (s : State) : Host.Outcome State Fault Refusal := .next (complete s (runMaskApply s))

/-- PEN1..PEN4 of a standard board (43_mask.md R140). -/
def penaltiesOf (dim : Nat) (cells : List Byte) : Penalties :=
  ⟨toWord (penaltyN1 dim cells), toWord (penaltyN2 dim cells), toWord (penaltyN3 dim cells),
    toWord (penaltyN4 dim cells)⟩

/-- What MASK_SCORE writes (43_mask.md R140): on a standard board PEN1..PEN4, the score and the dark count, on a Micro
board the score and the two edge sums. -/
def putScore (s : State) (cells : List Byte) : State :=
  if s.bcfg.micro then
    setRes012 s (toWord (scoreMicro (dimOf s) cells)) (toWord (sumR (dimOf s) cells)) (toWord (sumB (dimOf s) cells))
  else
    setRes01 { s with pens := penaltiesOf (dimOf s) cells }
      (toWord (scoreStd (dimOf s) cells)) (toWord (darkCount cells))

/-- MASK_SCORE's checks and result (43_mask.md R140). -/
def runMaskScore (s : State) : Run :=
  firstError [checkBcfg s, checkBoard (boardCells s)] (putScore s (boardCells s))

/-- MASK_SCORE (43_mask.md R140). -/
def execMaskScore (s : State) : Host.Outcome State Fault Refusal := .next (complete s (runMaskScore s))

/-- SCORE0..SCORE7 from the candidates' scores; the slots a Micro board does not have are 0 (43_mask.md R141). -/
def scoresOf (sc : List Nat) : Scores :=
  ⟨toWord (sc.getD 0 0), toWord (sc.getD 1 0), toWord (sc.getD 2 0), toWord (sc.getD 3 0), toWord (sc.getD 4 0),
    toWord (sc.getD 5 0), toWord (sc.getD 6 0), toWord (sc.getD 7 0)⟩

/-- The slot of a forced mask: its Micro mask index on a Micro board, its ID on a standard one (43_mask.md R141). -/
def slotOf (micro : Bool) (m : Nat) : Nat := (candidates micro).idxOf m

/-- BOARD under mask `m` where COMMIT is set (43_mask.md R141). -/
def commitMask (commit : Bool) (s : State) (m : Nat) (cells : List Byte) : State :=
  if commit then putBoard s (applyMask (dimOf s) m cells) else s

/-- MASK_SELECT with FORCE, after its checks (43_mask.md R141). -/
def selectForced (commit : Bool) (s : State) (cells : List Byte) : State :=
  setRes012 (commitMask commit s (arg0 s) cells) (toWord (arg0 s)) 0 (toWord (slotOf s.bcfg.micro (arg0 s)))

/-- MASK_SELECT without FORCE, given the candidates' scores and the winning slot (43_mask.md R141). -/
def selectWinner (commit : Bool) (s : State) (cells : List Byte) (sc : List Nat) (w : Nat) : State :=
  setRes012 { commitMask commit s (candidateAt s.bcfg.micro w) cells with scores := scoresOf sc }
    (toWord (candidateAt s.bcfg.micro w)) (toWord (sc.getD w 0)) (toWord w)

/-- MASK_SELECT without FORCE, after its checks: evaluate (43_mask.md R139), then report and commit (R141). -/
def selectScored (commit : Bool) (s : State) (cells : List Byte) : State :=
  selectWinner commit s cells (candidateScores s.bcfg.micro (dimOf s) cells)
    (bestSlot s.bcfg.micro (candidateScores s.bcfg.micro (dimOf s) cells))

/-- MASK_SELECT's checks and result (43_mask.md R141). -/
def runMaskSelect (commit force : Bool) (s : State) : Run :=
  if force then
    firstError [checkBcfg s, checkMaskId s (arg0 s), checkBoard (boardCells s)]
      (selectForced commit s (boardCells s))
  else firstError [checkBcfg s, checkBoard (boardCells s)] (selectScored commit s (boardCells s))

/-- MASK_SELECT (43_mask.md R141). -/
def execMaskSelect (commit force : Bool) (s : State) : Host.Outcome State Fault Refusal :=
  .next (complete s (runMaskSelect commit force s))

end Sys2Proof.Machine
end

