-- ==== Sys2Proof/Machine/Pack.lean ====
section
/-! DEFINITION. The bit-packing sub-encoders PACK_NUM, PACK_ALNUM, PACK_KANJI, PACK_BYTE and the raw field writer
PACK_BITS (42_pack.md). -/

namespace Sys2Proof.Machine

/-- The value of a Numeric character (42_pack.md R111). -/
def digitValue (b : Byte) : Option Nat := if 0x30 ≤ b.toNat ∧ b.toNat ≤ 0x39 then some (b.toNat - 0x30) else none

/-- The value of an Alphanumeric character, its place in the 45-symbol table (42_pack.md R113). -/
def alnumValue (b : Byte) : Option Nat :=
  if 0x30 ≤ b.toNat ∧ b.toNat ≤ 0x39 then some (b.toNat - 0x30)
  else if 0x41 ≤ b.toNat ∧ b.toNat ≤ 0x5A then some (b.toNat - 0x41 + 10)
  else
    match b.toNat with
    | 0x20 => some 36
    | 0x24 => some 37
    | 0x25 => some 38
    | 0x2A => some 39
    | 0x2B => some 40
    | 0x2D => some 41
    | 0x2E => some 42
    | 0x2F => some 43
    | 0x3A => some 44
    | _ => none

/-- `kanji_value(c)` (42_pack.md R115): the offset of the range, then msb * 0xC0 + lsb. -/
def kanjiValue (c : Nat) : Option Nat :=
  if 0x8140 ≤ c ∧ c ≤ 0x9FFC then some ((c - 0x8140) / 256 * 0xC0 + (c - 0x8140) % 256)
  else if 0xE040 ≤ c ∧ c ≤ 0xEBBF then some ((c - 0xC140) / 256 * 0xC0 + (c - 0xC140) % 256)
  else none

/-- `nbits(NUM, len)` (42_pack.md R111). -/
def numBits (len : Nat) : Nat := 10 * (len / 3) + (if len % 3 = 0 then 0 else if len % 3 = 1 then 4 else 7)

/-- `nbits(ALNUM, len)` (42_pack.md R113). -/
def alnumBits (len : Nat) : Nat := 11 * (len / 2) + 6 * (len % 2)

/-- `nbits(KANJI, len)` (42_pack.md R115). -/
def kanjiBits (len : Nat) : Nat := 13 * (len / 2)

/-- `nbits(BYTE, len)` (42_pack.md R117). -/
def byteBits (len : Nat) : Nat := 8 * len

/-- The values of single-byte characters in input order, or the offset of the first that has none (42_pack.md R109);
`off` is the offset of the list's head. -/
def charValues (value : Byte → Option Nat) : Nat → List Byte → Except Nat (List Nat)
  | _, [] => .ok []
  | off, b :: bs =>
    match value b with
    | none => .error off
    | some v =>
      match charValues value (off + 1) bs with
      | .error e => .error e
      | .ok vs => .ok (v :: vs)

/-- The values of two-byte Kanji characters, high byte first (42_pack.md R115), or the offset of the first byte of
the first invalid pair (R116). -/
def pairValues : Nat → List Byte → Except Nat (List Nat)
  | _, [] => .ok []
  | _, [_] => .ok []
  | off, hi :: lo :: bs =>
    match kanjiValue (hi.toNat * 256 + lo.toNat) with
    | none => .error off
    | some v =>
      match pairValues (off + 2) bs with
      | .error e => .error e
      | .ok vs => .ok (v :: vs)

/-- PACK_NUM's fields: groups of three digits from the first digit on, then what is left (42_pack.md R112). -/
def numFields : List Nat → List Field
  | a :: b :: c :: ds => (10, 100 * a + 10 * b + c) :: numFields ds
  | [a, b] => [(7, 10 * a + b)]
  | [a] => [(4, a)]
  | [] => []

/-- PACK_ALNUM's fields: pairs, then a lone character (42_pack.md R114). -/
def alnumFields : List Nat → List Field
  | a :: b :: vs => (11, 45 * a + b) :: alnumFields vs
  | [a] => [(6, a)]
  | [] => []

/-- The fields of the four mode packers, or the offset of the first invalid character (42_pack.md R109). -/
def numEncode (bs : List Byte) : Except Nat (List Field) := (charValues digitValue 0 bs).map numFields

/-- PACK_ALNUM's fields (42_pack.md R114). -/
def alnumEncode (bs : List Byte) : Except Nat (List Field) := (charValues alnumValue 0 bs).map alnumFields

/-- PACK_KANJI's fields (42_pack.md R116). -/
def kanjiEncode (bs : List Byte) : Except Nat (List Field) := (pairValues 0 bs).map fun vs => vs.map fun v => (13, v)

/-- PACK_BYTE's fields; no character is invalid (42_pack.md R117, R118). -/
def byteEncode (bs : List Byte) : Except Nat (List Field) := .ok (bs.map fun b => (8, b.toNat))

/-- The common steps of the mode packers (42_pack.md R109), in their order: source range, odd length where `paired`,
destination range, characters; then the fields from bit dst on, RES0 the bit count, RES1 the next bit. -/
def runPack (paired : Bool) (nbits : Nat → Nat) (fields : List Byte → Except Nat (List Field)) (s : State) : Run :=
  if Window.inBytes.size < arg0 s + arg1 s then .error (raise .inRange (clampIdx (arg0 s + arg1 s)))
  else if paired = true ∧ arg1 s % 2 = 1 then .error (raise .oddLength (clampIdx (arg1 s)))
  else if bitbufBits < arg2 s + nbits (arg1 s) then .error (raise .outRange (clampIdx (arg2 s + nbits (arg1 s))))
  else
    match fields (readBytes s.ram s.draws (Window.inBytes.base + arg0 s) (arg1 s)) with
    | .error off => .error (raise .badChar (clampIdx off))
    | .ok fs =>
      .ok (setRes01 { s with ram := writeFields s.ram (arg2 s) fs }
        (toWord (nbits (arg1 s))) (toWord (arg2 s + nbits (arg1 s))))

/-- PACK_NUM's checks and result (42_pack.md R112). -/
def runPackNum (s : State) : Run := runPack false numBits numEncode s

/-- PACK_NUM (42_pack.md R112). -/
def execPackNum (s : State) : Host.Outcome State Fault Refusal := .next (complete s (runPackNum s))

/-- PACK_ALNUM's checks and result (42_pack.md R114). -/
def runPackAlnum (s : State) : Run := runPack false alnumBits alnumEncode s

/-- PACK_ALNUM (42_pack.md R114). -/
def execPackAlnum (s : State) : Host.Outcome State Fault Refusal := .next (complete s (runPackAlnum s))

/-- PACK_KANJI's checks and result (42_pack.md R116). -/
def runPackKanji (s : State) : Run := runPack true kanjiBits kanjiEncode s

/-- PACK_KANJI (42_pack.md R116). -/
def execPackKanji (s : State) : Host.Outcome State Fault Refusal := .next (complete s (runPackKanji s))

/-- PACK_BYTE's checks and result (42_pack.md R118). -/
def runPackByte (s : State) : Run := runPack false byteBits byteEncode s

/-- PACK_BYTE (42_pack.md R118). -/
def execPackByte (s : State) : Host.Outcome State Fault Refusal := .next (complete s (runPackByte s))

/-- PACK_BITS's checks and result (42_pack.md R119): the width is checked before the value, which is refused, never
truncated, where it is wider than the field. -/
def runPackBits (s : State) : Run :=
  if arg1 s < 1 ∨ 32 < arg1 s then .error (argRange 1)
  else if arg1 s < 32 ∧ 2 ^ arg1 s ≤ arg0 s then .error (argRange 0)
  else if bitbufBits < arg2 s + arg1 s then .error (raise .outRange (clampIdx (arg2 s + arg1 s)))
  else
    .ok (setRes01 { s with ram := bitWrite s.ram (arg2 s) (arg1 s) (arg0 s) }
      (toWord (arg1 s)) (toWord (arg2 s + arg1 s)))

/-- PACK_BITS (42_pack.md R119). -/
def execPackBits (s : State) : Host.Outcome State Fault Refusal := .next (complete s (runPackBits s))

end Sys2Proof.Machine
end

