-- ==== Sys2Proof/Machine/Gf.lean ====
section
/-! DEFINITION. GF(256): the field product and the commands GF_MUL and GF_POW (40_gf.md R92 to R94). -/

namespace Sys2Proof.Machine

/-- `gf_mul(a, b)` (40_gf.md R92). -/
def gfMul (a b : Byte) : Byte := if a = 0#8 ∨ b = 0#8 then 0#8 else expAt ((logAt a + logAt b) % 255)

/-- The power of a non-zero element (40_gf.md R94): `EXP[(LOG[a] * n) mod 255]`. -/
def gfPow (a : Byte) (n : Nat) : Byte := expAt ((logAt a * n) % 255)

/-- GF_MUL's checks and result (40_gf.md R93). -/
def runGfMul (s : State) : Run :=
  if 255 < arg0 s then .error (argRange 0)
  else if 255 < arg1 s then .error (argRange 1)
  else .ok (setRes0 s (byteToWord (gfMul (BitVec.ofNat 8 (arg0 s)) (BitVec.ofNat 8 (arg1 s)))))

/-- GF_MUL (40_gf.md R93). -/
def execGfMul (s : State) : Host.Outcome State Fault Refusal := .next (complete s (runGfMul s))

/-- GF_POW's checks and result (40_gf.md R94): both ranges before LOG_ZERO. -/
def runGfPow (s : State) : Run :=
  if 255 < arg0 s then .error (argRange 0)
  else if 255 < arg1 s then .error (argRange 1)
  else if arg0 s = 0 then .error (raise .logZero 0)
  else .ok (setRes0 s (byteToWord (gfPow (BitVec.ofNat 8 (arg0 s)) (arg1 s))))

/-- GF_POW (40_gf.md R94). -/
def execGfPow (s : State) : Host.Outcome State Fault Refusal := .next (complete s (runGfPow s))

end Sys2Proof.Machine
end

