-- ==== Sys2Proof/Machine/Poly.lean ====
section
/-! DEFINITION. The polynomial engine: POLY_MUL, GEN_POLY, RS_ECC and POLY_EVAL (41_poly.md). A polynomial is a byte
list, highest power first, and leading zeros stay (R97). -/

namespace Sys2Proof.Machine

/-- XOR two byte lists from index 0 on; what one has beyond the other's end stays (41_poly.md R98, R103: `r[i+j] <-
r[i+j] ⊕ ...`). -/
def xorInto : List Byte → List Byte → List Byte
  | [], q => q
  | p, [] => p
  | a :: p, b :: q => (a ^^^ b) :: xorInto p q

/-- `poly_mul(p, q)` (41_poly.md R98): row i of the loop adds `p[i]` times q at index i, so what the rows after the
first add is the same product one index later. -/
def polyMul : List Byte → List Byte → List Byte
  | [], _ => []
  | a :: p, q => xorInto (q.map fun b => gfMul a b) (0#8 :: polyMul p q)

/-- `gen(k)` (41_poly.md R99): the product of the factors [1, 2^i], i = 0..k-1. -/
def genPoly : Nat → List Byte
  | 0 => [1#8]
  | k + 1 => polyMul (genPoly k) [1#8, expAt k]

/-- `n` steps of the synthetic division (41_poly.md R103). A step XORs the generator `g`, scaled by the leading
coefficient c, into the list and leaves the leading place, which no later step reads. -/
def divideSteps (g : List Byte) : Nat → List Byte → List Byte
  | 0, r => r
  | _ + 1, [] => []
  | n + 1, c :: r =>
    divideSteps g n (if c = 0#8 then r else (xorInto (c :: r) (g.map fun x => gfMul x c)).tail)

/-- `rs_remainder(msg, k)` (41_poly.md R103): msg times x^k, one step for each message byte; the k terms that remain. -/
def rsRemainder (msg : List Byte) (k : Nat) : List Byte :=
  divideSteps (genPoly k) msg.length (msg ++ List.replicate k 0#8)

/-- Horner's rule (41_poly.md R106). -/
def polyEval (p : List Byte) (pt : Byte) : Byte := p.foldl (fun acc c => gfMul acc pt ^^^ c) 0#8

/-- The `n` first bytes of MEM_A as a command reads them: its inputs at launch (20_memory.md R62). -/
def memABytes (s : State) (n : Nat) : List Byte := readBytes s.ram s.draws Window.memA.base n

/-- The `n` first bytes of MEM_B, likewise. -/
def memBBytes (s : State) (n : Nat) : List Byte := readBytes s.ram s.draws Window.memB.base n

/-- Write a result to MEM_R from index 0 on, and its length, or another count, to RES0. -/
def putResult (s : State) (r : List Byte) (count : Nat) : State :=
  setRes0 { s with ram := writeBytes s.ram Window.memR.base r } (toWord count)

/-- POLY_MUL's checks and result (41_poly.md R100). -/
def runPolyMul (s : State) : Run :=
  if arg0 s < 1 ∨ 256 < arg0 s then .error (argRange 0)
  else if arg1 s < 1 ∨ 256 < arg1 s then .error (argRange 1)
  else if 256 < arg0 s + arg1 s - 1 then .error (raise .lenRange (clampIdx (arg0 s + arg1 s - 1)))
  else .ok (putResult s (polyMul (memABytes s (arg0 s)) (memBBytes s (arg1 s))) (arg0 s + arg1 s - 1))

/-- POLY_MUL (41_poly.md R100). -/
def execPolyMul (s : State) : Host.Outcome State Fault Refusal := .next (complete s (runPolyMul s))

/-- GEN_POLY's check and result (41_poly.md R102). -/
def runGenPoly (s : State) : Run :=
  if arg0 s < 1 ∨ 255 < arg0 s then .error (argRange 0)
  else .ok (putResult s (genPoly (arg0 s)) (arg0 s + 1))

/-- GEN_POLY (41_poly.md R102). -/
def execGenPoly (s : State) : Host.Outcome State Fault Refusal := .next (complete s (runGenPoly s))

/-- RS_ECC's checks and result (41_poly.md R104). -/
def runRsEcc (s : State) : Run :=
  if arg0 s < 1 then .error (argRange 0)
  else if arg1 s < 1 then .error (argRange 1)
  else if 255 < arg0 s + arg1 s then .error (raise .fieldSize (clampIdx (arg0 s + arg1 s)))
  else .ok (putResult s (rsRemainder (memABytes s (arg0 s)) (arg1 s)) (arg1 s))

/-- RS_ECC (41_poly.md R104). -/
def execRsEcc (s : State) : Host.Outcome State Fault Refusal := .next (complete s (runRsEcc s))

/-- POLY_EVAL's checks and result (41_poly.md R106). -/
def runPolyEval (s : State) : Run :=
  if arg0 s < 1 ∨ 256 < arg0 s then .error (argRange 0)
  else if 255 < arg1 s then .error (argRange 1)
  else .ok (setRes0 s (byteToWord (polyEval (memABytes s (arg0 s)) (BitVec.ofNat 8 (arg1 s)))))

/-- POLY_EVAL (41_poly.md R106). -/
def execPolyEval (s : State) : Host.Outcome State Fault Refusal := .next (complete s (runPolyEval s))

end Sys2Proof.Machine
end

