-- ==== Sys2Proof/Machine/Dispatch.lean ====
section
/-! DEFINITION. The meaning of each command, one arm a constructor. -/

namespace Sys2Proof.Machine

def exec (i : Instr) (s : State) : Host.Outcome State Fault Refusal :=
  match i with
  | .nop => Sys2Proof.Machine.execNop s
  | .gfMul => Sys2Proof.Machine.execGfMul s
  | .gfPow => Sys2Proof.Machine.execGfPow s
  | .polyMul => Sys2Proof.Machine.execPolyMul s
  | .genPoly => Sys2Proof.Machine.execGenPoly s
  | .rsEcc => Sys2Proof.Machine.execRsEcc s
  | .polyEval => Sys2Proof.Machine.execPolyEval s
  | .packNum => Sys2Proof.Machine.execPackNum s
  | .packAlnum => Sys2Proof.Machine.execPackAlnum s
  | .packKanji => Sys2Proof.Machine.execPackKanji s
  | .packByte => Sys2Proof.Machine.execPackByte s
  | .packBits => Sys2Proof.Machine.execPackBits s
  | .maskApply => Sys2Proof.Machine.execMaskApply s
  | .maskScore => Sys2Proof.Machine.execMaskScore s
  | .maskSelect commit force => Sys2Proof.Machine.execMaskSelect commit force s

end Sys2Proof.Machine
end

