-- ==== Sys2Proof/Machine/Bus.lean ====
section
/-! DEFINITION. What the host does to QRE: bus transactions (20_memory.md), the register writes with their effects,
soft reset with the abort of a running command (70_reset_and_hazards.md R168, R169), power-on reset (R167); and the
execution of the command that CMD holds (44_control.md R145). -/

namespace Sys2Proof.Machine

/-- The destination region of a command (70_reset_and_hazards.md R169). -/
inductive Destination where
  | nothing
  /-- `n` whole bytes from window offset `base` on. -/
  | bytes (base n : Nat)
  /-- BITBUF bits p .. p+n-1. -/
  | bits (p n : Nat)
  deriving DecidableEq, Repr

/-- The destination region of each command (70_reset_and_hazards.md R169). -/
def destination (i : Instr) (s : State) : Destination :=
  match i with
  | .nop | .gfMul | .gfPow | .polyEval | .maskScore => .nothing
  | .polyMul => .bytes Window.memR.base (arg0 s + arg1 s - 1)
  | .genPoly => .bytes Window.memR.base (arg0 s + 1)
  | .rsEcc => .bytes Window.memR.base (arg1 s)
  | .packNum => .bits (arg2 s) (numBits (arg1 s))
  | .packAlnum => .bits (arg2 s) (alnumBits (arg1 s))
  | .packKanji => .bits (arg2 s) (kanjiBits (arg1 s))
  | .packByte => .bits (arg2 s) (byteBits (arg1 s))
  | .packBits => .bits (arg2 s) (arg1 s)
  | .maskApply => .bytes Window.board.base (dimOf s * dimOf s)
  | .maskSelect commit _ => if commit then .bytes Window.board.base (dimOf s * dimOf s) else .nothing

/-- Take their value from the bytes or bits of a region (10_state.md R39). -/
def forgetRegion (m : Memory) : Destination → Memory
  | .nothing => m
  | .bytes base n => forgetBytes m base n
  | .bits p n => forgetBitRange m p n

/-- Whether a command would complete without an error (60_exceptions.md R152). -/
def wouldSucceed (i : Instr) (s : State) : Bool :=
  match exec i s with
  | .next t => !t.status.err
  | .fault _ => false
  | .refused _ => false

/-- The RAMs after the running command is aborted (70_reset_and_hazards.md R168, R169): its destination region loses
its values, but a command that would have failed changes nothing. -/
def abortedRam (s : State) : Memory :=
  if s.status.busy then
    match decodeWord s.cmd with
    | .ok i => if wouldSucceed i s then forgetRegion s.ram (destination i s) else s.ram
    | .error _ => s.ram
  else s.ram

/-- Soft reset (70_reset_and_hazards.md R168, steps 1 to 3): every register takes its reset value and the sequencer
is idle. The RAMs stay, but for an aborted command's destination. -/
def softReset (s : State) : State :=
  { State.reset with ram := abortedRam s, host := s.host, answer := s.answer, draws := s.draws }

/-- A host write to CTRL (10_state.md R19): with SRST the soft reset and then IE; without it IE alone. -/
def writeCtrl (s : State) (w : Word) : State :=
  { (if w.getLsbD 1 then softReset s else s) with ctrl := ⟨w.getLsbD 0⟩ }

/-- How many host events the launch of `w` lets pass before the completion: any number for a command (44_control.md
R145), none for a word that does not decode, which completes at once (30_encoding.md R82). Log entry 2. -/
def launchWait (s : State) (w : Word) : Nat :=
  match decodeWord w with
  | .ok _ => Config.latency s.draws
  | .error _ => 0

/-- A host write to a register (10_state.md R18 to R31; 20_memory.md R51, R54, R66). -/
def writeReg (s : State) (w : Word) : Reg → State
  | .id | .res _ | .errInfo | .score _ | .pen _ => s
  | .ctrl => writeCtrl s w
  | .status => acknowledge s w
  | .cmd => if s.status.busy then dropWrite s else launch s w (launchWait s w)
  | .arg n => if s.status.busy then dropWrite s else { s with args := s.args.set w n }
  | .bcfg => if s.status.busy then dropWrite s else { s with bcfg := Bcfg.ofWord w }

/-- What a transaction reaches. -/
inductive Target where
  | reg (r : Reg)
  | mem (w : Window)
  deriving DecidableEq, Repr

/-- What a transaction at an offset with a size reaches, if QRE does not answer it ERROR (20_memory.md R49, R50, R53,
R55): a register as a whole word, or naturally aligned bytes of a memory that is not locked. -/
def target (s : State) (off : Offset) (size : Size) : Option Target :=
  match windowAt off.toNat with
  | some w =>
    if off.toNat % size.bytes = 0 ∧ ¬ (w.isRam = true ∧ s.status.busy = true) then some (.mem w) else none
  | none => if size = .four then (regAt off.toNat).map .reg else none

/-- OKAY with data (20_memory.md R45). -/
def okay (rdata : Word) : Answer := ⟨true, rdata⟩

/-- ERROR: rdata = 0 (20_memory.md R45). -/
def busError : Answer := ⟨false, 0⟩

/-- QRE's answer to a transaction and the state it leaves (20_memory.md R45). A write to a ROM is answered OKAY and
changes nothing (R54). -/
def serve (s : State) : Transaction → State × Answer
  | .read off size =>
    match target s off size with
    | some (.reg r) => (s, okay (readReg s r))
    | some (.mem _) => (s, okay (toWord (littleEndian (readBytes s.ram s.draws off.toNat size.bytes))))
    | none => (s, busError)
  | .write off size wdata =>
    match target s off size with
    | some (.reg r) => (writeReg s wdata r, okay 0)
    | some (.mem _) => ({ s with ram := writeBytes s.ram off.toNat (toLittleEndian size.bytes wdata.toNat) }, okay 0)
    | none => (s, busError)

/-- Power-on reset (70_reset_and_hazards.md R167): the reset state. Of the model's own fields the events still to come
stay, and so does the numbering of the draws, so that no draw repeats (log entry 12). -/
def powerOn (s : State) : State := { State.reset with host := s.host, draws := s.draws }

/-- Take one host event; `s.host` holds the events after it. -/
def takeEvent (s : State) : HostEvent → State
  | .powerOnReset => { powerOn s with draws := s.draws + 1 }
  | .bus t => { (serve s t).1 with answer := some (serve s t).2, draws := s.draws + 1 }

/-- The execution and completion of the command in CMD (44_control.md R145, R146): decode, then the command's meaning;
a word that does not decode completes with IllegalCommand (30_encoding.md R82). -/
def runCommand (s : State) : Host.Outcome State Fault Refusal :=
  match decodeWord s.cmd with
  | .ok i => exec i s
  | .error e => .next (complete s (.error (decodeFailure e)))

end Sys2Proof.Machine
end

