-- ==== Sys2Proof/Machine/Step.lean ====
section
/-! DEFINITION. One step of QRE (00_scope.md R13; 60_exceptions.md R159): a host event, or the execution and
completion of the running command. Also where the next command to run stands. -/

namespace Sys2Proof.Machine

/-- One step. A running command completes when no host event is left or it has let `wait` of them pass
(44_control.md R145); otherwise the oldest host event is taken. With nothing running and no event, QRE does nothing
(70_reset_and_hazards.md R170). -/
def step (s : State) : Host.Outcome State Fault Refusal :=
  match s.status.busy, s.host with
  | true, [] => runCommand s
  | true, ev :: rest =>
    if s.wait = 0 then runCommand s
    else .next (takeEvent { s with host := rest, wait := s.wait - 1 } ev)
  | false, [] => .next s
  | false, ev :: rest => .next (takeEvent { s with host := rest } ev)

/-- `s` with the command word `w` just launched and about to complete: QRE fetches nothing (10_state.md R17), it runs
the word a launch has left in CMD (20_memory.md R68; 44_control.md R144). Log entry 8. -/
def State.withFetchWord (s : State) (nbits w : Nat) : State :=
  launch s (BitVec.ofNat 32 (w % 2 ^ nbits)) 0

end Sys2Proof.Machine
end

