-- ==== Sys2Proof/Machine/HostProgram.lean ====
section
/-! DEFINITION. Host programs in the notation of 30_encoding.md R84 to R86: the mnemonics, the lines, the expansion of
the pseudo-instructions, and a host that runs a program against the machine's step. QRE itself sees only the
transactions (R85). Log entry 14. -/

namespace Sys2Proof.Machine

/-- The mnemonic of a command (30_encoding.md R74, R84). -/
def mnemonicOf : Instr → String
  | .nop => "NOP"
  | .gfMul => "GF_MUL"
  | .gfPow => "GF_POW"
  | .polyMul => "POLY_MUL"
  | .genPoly => "GEN_POLY"
  | .rsEcc => "RS_ECC"
  | .polyEval => "POLY_EVAL"
  | .packNum => "PACK_NUM"
  | .packAlnum => "PACK_ALNUM"
  | .packKanji => "PACK_KANJI"
  | .packByte => "PACK_BYTE"
  | .packBits => "PACK_BITS"
  | .maskApply => "MASK_APPLY"
  | .maskScore => "MASK_SCORE"
  | .maskSelect false false => "MASK_SELECT"
  | .maskSelect true false => "MASK_SELECT.C"
  | .maskSelect false true => "MASK_SELECT.F"
  | .maskSelect true true => "MASK_SELECT.FC"

/-- The command a mnemonic names; both orders of the two suffix letters are accepted (30_encoding.md R84). -/
def assemble (m : String) : Option Instr :=
  if m = "MASK_SELECT.CF" then some (.maskSelect true true)
  else
    [Instr.nop, .gfMul, .gfPow, .polyMul, .genPoly, .rsEcc, .polyEval, .packNum, .packAlnum, .packKanji, .packByte,
      .packBits, .maskApply, .maskScore, .maskSelect false false, .maskSelect true false, .maskSelect false true,
      .maskSelect true true].find? fun i => mnemonicOf i == m

/-- A value in a line: a number, or a host variable set by an earlier RD or RB (30_encoding.md R85). -/
inductive HostValue where
  | lit (v : Nat)
  | var (x : String)
  deriving DecidableEq, Repr

/-- What of a variable an IF or EXPECT looks at: the whole value, or one field of it, bits `hi` to `lo`
(30_encoding.md R85; the fields are those of 10_state.md). -/
inductive HostField where
  | whole
  | bits (hi lo : Nat)
  deriving DecidableEq, Repr

/-- STATUS.BUSY (10_state.md R20). -/
def fieldBusy : HostField := .bits 0 0

/-- STATUS.ERR (10_state.md R20). -/
def fieldErr : HostField := .bits 2 2

/-- ERRINFO.SUB (10_state.md R28). -/
def fieldSub : HostField := .bits 31 24

/-- ERRINFO.IDX (10_state.md R28). -/
def fieldIdx : HostField := .bits 23 0

/-- A label: one of the program's own, or the one the n-th WAIT brings (30_encoding.md R86). -/
inductive HostLabel where
  | named (name : String)
  | wait (n : Nat)
  deriving DecidableEq, Repr

/-- The lines of 30_encoding.md R85, and the word write WW stands for (R86). -/
inductive HostLine where
  | wr (r : Reg) (v : HostValue)
  | rd (r : Reg) (x : String)
  | wb (mem : Window) (i : Nat) (bs : List HostValue)
  | rb (mem : Window) (i j : Nat) (x : String)
  | ww (mem : Window) (i : Nat) (v : HostValue)
  | cmd (i : Instr)
  | label (l : HostLabel)
  | ifEq (x : String) (f : HostField) (v : HostValue) (l : HostLabel)
  | ifNe (x : String) (f : HostField) (v : HostValue) (l : HostLabel)
  | goto (l : HostLabel)
  | expect (x : String) (f : HostField) (vs : List HostValue)
  deriving DecidableEq, Repr

/-- A line as written: one of R85, or a pseudo-instruction of R86. -/
inductive SourceLine where
  | line (l : HostLine)
  | wait
  | run (i : Instr)
  | clr
  | wbz (mem : Window) (i j : Nat)
  deriving DecidableEq, Repr

/-- WAIT (30_encoding.md R86): read STATUS into `s` until BUSY is 0. -/
def waitLines (n : Nat) : List HostLine :=
  [.label (.wait n), .rd .status "s", .ifEq "s" fieldBusy (.lit 1) (.wait n)]

/-- The expansion of a source line (30_encoding.md R86); `n` numbers its WAIT, if it has one. -/
def expandLine (n : Nat) : SourceLine → List HostLine
  | .line l => [l]
  | .wait => waitLines n
  | .run i => .cmd i :: waitLines n
  | .clr => [.wr .status (.lit 0x0000000E)]
  | .wbz mem i j => [.wb mem i (List.replicate (j + 1 - i) (.lit 0))]

/-- The expansion of a program; `n` is the number of its first line. -/
def expandFrom : (n : Nat) → List SourceLine → List HostLine
  | _, [] => []
  | n, l :: ls => expandLine n l ++ expandFrom (n + 1) ls

/-- The values of the host's variables, the latest first. -/
abbrev HostVars := List (String × List Nat)

/-- A variable's value: a number from RD, a byte list from RB. -/
def lookupVar (vars : HostVars) (x : String) : Option (List Nat) := (vars.find? fun e => e.1 == x).map (·.2)

/-- The numbers a value stands for; a variable set by RB stands for its whole byte list (30_encoding.md R85). -/
def valueNumbers (vars : HostVars) : HostValue → Option (List Nat)
  | .lit v => some [v]
  | .var x => lookupVar vars x

/-- The numbers of a list of values, in order. -/
def valuesNumbers (vars : HostVars) : List HostValue → Option (List Nat)
  | [] => some []
  | v :: vs =>
    match valueNumbers vars v, valuesNumbers vars vs with
    | some ns, some rest => some (ns ++ rest)
    | _, _ => none

/-- The part of a value a field names. -/
def fieldOf : HostField → List Nat → List Nat
  | .whole, ns => ns
  | .bits hi lo, ns => ns.map fun v => v / 2 ^ lo % 2 ^ (hi + 1 - lo)

/-- The size-1 writes of bytes to rising offsets (30_encoding.md R85). -/
def byteWrites (a : Nat) : List Nat → List Transaction
  | [] => []
  | b :: bs => .write (BitVec.ofNat 16 a) .one (BitVec.ofNat 32 b) :: byteWrites (a + 1) bs

/-- The size-1 reads of `n` bytes at rising offsets (30_encoding.md R85). -/
def byteReads (a : Nat) : (n : Nat) → List Transaction
  | 0 => []
  | n + 1 => .read (BitVec.ofNat 16 a) .one :: byteReads (a + 1) n

/-- The offset of a register, as a transaction carries it. -/
def regOffset (r : Reg) : Offset := BitVec.ofNat 16 r.offset

/-- The transactions of a line, given the variables (30_encoding.md R85); none where a variable was never set, or a
number was needed and a byte list found. Labels, IF, GOTO and EXPECT make no transaction. -/
def lineTransactions (vars : HostVars) : HostLine → Option (List Transaction)
  | .wr r v =>
    match valueNumbers vars v with
    | some [n] => some [.write (regOffset r) .four (toWord n)]
    | _ => none
  | .rd r _ => some [.read (regOffset r) .four]
  | .wb mem i bs => (valuesNumbers vars bs).map (byteWrites (mem.base + i))
  | .rb mem i j _ => some (byteReads (mem.base + i) (j + 1 - i))
  | .ww mem i v =>
    match valueNumbers vars v with
    | some [n] => some [.write (BitVec.ofNat 16 (mem.base + i)) .four (toWord n)]
    | _ => none
  | .cmd i => some [.write (regOffset .cmd) .four (encode i)]
  | .label _ | .ifEq _ _ _ _ | .ifNe _ _ _ _ | .goto _ | .expect _ _ _ => some []

/-- Why a host program stopped. -/
inductive HostEnd where
  | running
  | finished
  /-- An EXPECT did not hold. -/
  | expectFailed
  /-- The program is no program: an unset variable, or a label that names no line. -/
  | malformed
  deriving DecidableEq, Repr

/-- A host that runs a program against QRE. -/
structure HostRun where
  qre : State
  at_ : Nat
  vars : HostVars
  ended : HostEnd
  deriving DecidableEq, Repr

/-- One transaction against QRE: at most one completion comes before it (60_exceptions.md R159). -/
def transact (s : State) (t : Transaction) : Option (State × Answer) :=
  match step { s with host := [.bus t] } with
  | .next s1 =>
    if s1.host = [] then s1.answer.map fun a => (s1, a)
    else
      match step s1 with
      | .next s2 => s2.answer.map fun a => (s2, a)
      | .fault _ => none
      | .refused _ => none
  | .fault _ => none
  | .refused _ => none

/-- Transactions in order, and the data read. -/
def transactAll (s : State) : List Transaction → Option (State × List Nat)
  | [] => some (s, [])
  | t :: ts =>
    match transact s t with
    | none => none
    | some (s1, a) =>
      match transactAll s1 ts with
      | none => none
      | some (s2, data) => some (s2, a.rdata.toNat :: data)

/-- The line after a label (30_encoding.md R85). -/
def labelLine (prog : List HostLine) (l : HostLabel) : Option Nat :=
  (prog.findIdx? fun line => line == .label l).map (· + 1)

/-- Go to a label if a condition holds, else to the next line. -/
def branch (prog : List HostLine) (h : HostRun) (taken : Bool) (l : HostLabel) : HostRun :=
  if taken then
    match labelLine prog l with
    | some n => { h with at_ := n }
    | none => { h with ended := .malformed }
  else { h with at_ := h.at_ + 1 }

/-- Run one line on the host (30_encoding.md R85). -/
def hostStep (prog : List HostLine) (h : HostRun) : HostRun :=
  match prog[h.at_]? with
  | none => { h with ended := .finished }
  | some line =>
    match (lineTransactions h.vars line).bind (transactAll h.qre) with
    | none => { h with ended := .malformed }
    | some (qre, data) =>
      match line with
      | .rd _ x | .rb _ _ _ x => { h with qre := qre, at_ := h.at_ + 1, vars := (x, data) :: h.vars }
      | .wr _ _ | .wb _ _ _ | .ww _ _ _ | .cmd _ | .label _ => { h with qre := qre, at_ := h.at_ + 1 }
      | .goto l => branch prog h true l
      | .ifEq x f v l =>
        match lookupVar h.vars x, valueNumbers h.vars v with
        | some a, some b => branch prog h (fieldOf f a == b) l
        | _, _ => { h with ended := .malformed }
      | .ifNe x f v l =>
        match lookupVar h.vars x, valueNumbers h.vars v with
        | some a, some b => branch prog h (fieldOf f a != b) l
        | _, _ => { h with ended := .malformed }
      | .expect x f vs =>
        match lookupVar h.vars x, valuesNumbers h.vars vs with
        | some a, some b =>
          if fieldOf f a = b then { h with at_ := h.at_ + 1 } else { h with ended := .expectFailed }
        | _, _ => { h with ended := .malformed }

/-- At most `fuel` lines of an expanded program. -/
def runLines (prog : List HostLine) : (fuel : Nat) → HostRun → HostRun
  | 0, h => h
  | fuel + 1, h => if h.ended = .running then runLines prog fuel (hostStep prog h) else h

/-- A host program from its first line, on QRE in state `s`. -/
def runProgram (prog : List SourceLine) (fuel : Nat) (s : State) : HostRun :=
  runLines (expandFrom 0 prog) fuel ⟨s, 0, [], .running⟩

end Sys2Proof.Machine
end

