-- ==== Sys2Proof/Safety.lean ====
section
/-! DEFINITION. The terms claims use: the invariant of QRE's state, when a command is ready to run, what counts as a
safe run, and the bytes and bits a command's inputs and outputs occupy. -/

namespace Sys2Proof.Machine

/-- The ECODE values QRE writes (10_state.md R23). -/
def legalEcode (c : BitVec 4) : Bool := c == 0 || c == 1 || c == 2 || c == 4 || c == 5

/-- The SUB values QRE writes: 0 and those of 60_exceptions.md R151. -/
def legalSub (c : BitVec 8) : Bool :=
  c == 0 || c == 0x01 || c == 0x02 || c == 0x03 || c == 0x10 || c == 0x11 || c == 0x12 || c == 0x13 || c == 0x20 ||
    c == 0x21 || c == 0x22 || c == 0x23 || c == 0x30 || c == 0x31 || c == 0x32

/-- The invariant of QRE: the RAM's canonical form, and what 10_state.md R21 to R23, R27, R28 and 60_exceptions.md
R151 say of STATUS, RES3 and ERRINFO in every state. -/
structure StateInv (s : State) : Prop where
  /-- The RAM planes are canonical (log entry 3). -/
  ram : s.ram.wf = true
  /-- While BUSY, DONE is 0 (R22). -/
  busyDone : s.status.busy = true → s.status.done = false
  /-- While BUSY, ERR is 0: a launch clears it (R23). -/
  busyErr : s.status.busy = true → s.status.err = false
  /-- While BUSY, ERRINFO is 0: a launch sets it to 0 (R28). -/
  busyInfo : s.status.busy = true → s.errInfo = ⟨0#8, 0#24⟩
  /-- ECODE is never non-zero while ERR is 0 (R23). -/
  ecodeErr : s.status.err = false → s.status.ecode = 0#4
  /-- ECODE holds a legal value (R23). -/
  ecodeLegal : legalEcode s.status.ecode = true
  /-- SUB holds a value of 60_exceptions.md R151, or 0. -/
  subLegal : legalSub s.errInfo.sub = true
  /-- RES3 is written by no command (93 entry I17). -/
  res3 : s.res.r3 = 0#32
  /-- The model's own: nothing is waited for when nothing runs. -/
  idleWait : s.status.busy = false → s.wait = 0
  /-- A launched word that does not decode completes at once: nothing is waited for (30_encoding.md R82). -/
  illegalWait : ∀ e, s.status.busy = true → decodeWord s.cmd = .error e → s.wait = 0

/-- A launched command that the next step runs: BUSY, CMD decodes to `i`, and no host event comes before. -/
def Ready (s : State) (i : Instr) : Prop :=
  s.status.busy = true ∧ decodeWord s.cmd = .ok i ∧ (s.host = [] ∨ s.wait = 0)

/-- A run of `n` steps that no fault and no refusal ends. -/
def SafeRun (n : Nat) (s : State) : Prop := ∃ t, core.run n s = .next t

/-- A byte that a command or a transaction left alone: the same bits hold a value, the same values, and so it reads as
before whatever is drawn. -/
def byteKept (m m' : Memory) (a : Nat) : Prop :=
  planeGet m'.known a = planeGet m.known a ∧ planeGet m'.val a = planeGet m.val a ∧
    ∀ d, readByte m' d a = readByte m d a

/-- BITBUF bit `q` left alone: it holds a value if it did, and the same one. -/
def bitKept (m m' : Memory) (q : Nat) : Prop :=
  (planeGet m'.known (bitAddr q)).getLsbD (7 - q % 8) = (planeGet m.known (bitAddr q)).getLsbD (7 - q % 8) ∧
    (planeGet m'.val (bitAddr q)).getLsbD (7 - q % 8) = (planeGet m.val (bitAddr q)).getLsbD (7 - q % 8)

/-- Only BITBUF bits p .. p+n-1 may differ: every byte outside BITBUF, and every other bit of it, is left alone. -/
def onlyBitsChange (m m' : Memory) (p n : Nat) : Prop :=
  (∀ a, (a < 0x4000 ∨ 0x5000 ≤ a) → byteKept m m' a) ∧
    ∀ q, q < 32768 → (q < p ∨ p + n ≤ q) → bitKept m m' q

/-- The number in BITBUF bits p .. p+w-1, the first bit the most significant (20_memory.md R59, R60). -/
def bitsNumber (m : Memory) (d p : Nat) : (w : Nat) → Nat
  | 0 => 0
  | w + 1 => 2 * bitsNumber m d p w + (bitRead m d (p + w)).toNat

/-- The bytes of IN that a mode packer reads, as it reads them (42_pack.md R108). -/
def packInput (s : State) : List Byte := readBytes s.ram s.draws (0x2000 + arg0 s) (arg1 s)

/-- Multiplication by x, then reduction (40_gf.md R88); 0x1D is 0x11D without x^8, which the shift has dropped. -/
def timesX (b : Byte) : Byte := if b.toNat < 0x80 then b <<< 1 else (b <<< 1) ^^^ 0x1D#8

/-- `x^n * b` in the field (40_gf.md R88). -/
def timesXPow : (n : Nat) → Byte → Byte
  | 0, b => b
  | n + 1, b => timesX (timesXPow n b)

/-- The field product as 40_gf.md R87 says it, without the tables: the sum of x^i * b over the bits i of a, each
multiplication by x reduced modulo 0x11D. -/
def fieldProduct (a b : Byte) : Byte :=
  (List.range 8).foldl (fun acc i => if a.getLsbD i then acc ^^^ timesXPow i b else acc) 0#8

/-- The product of `n` factors `a`. -/
def fieldPower (a : Byte) : (n : Nat) → Byte
  | 0 => 1#8
  | n + 1 => fieldProduct a (fieldPower a n)

/-- The XOR of a list of field elements. -/
def xorSum (bs : List Byte) : Byte := bs.foldl (fun acc b => acc ^^^ b) 0#8

/-- Coefficient `t` of a polynomial product (41_poly.md R98): the sum of p[i] * q[j] over i + j = t. -/
def productCoeff (p q : List Byte) (t : Nat) : Byte :=
  xorSum ((List.range (t + 1)).map fun i => fieldProduct (p.getD i 0#8) (q.getD (t - i) 0#8))

/-- The value of a polynomial at a point (41_poly.md R97): the sum of p[i] * x^(m-1-i). -/
def polyValue (p : List Byte) (x : Byte) : Byte :=
  xorSum ((List.range p.length).map fun i => fieldProduct (p.getD i 0#8) (fieldPower x (p.length - 1 - i)))

/-- `Cell(r, c)` of a board given as its cell bytes (43_mask.md R124). -/
def cellOf (dim : Nat) (cells : List Byte) (r c : Nat) : Byte := cells.getD (r * dim + c) 0#8

/-- `dk(r, c)` (43_mask.md section 3). -/
def darkAt (dim : Nat) (cells : List Byte) (r c : Nat) : Bool := cellDark (cellOf dim cells r c)

/-- Whether bit `j` of the byte at `a` lies in a destination region (70_reset_and_hazards.md R169). -/
def inRegion : Destination → (a j : Nat) → Prop
  | .nothing, _, _ => False
  | .bytes base n, a, _ => base ≤ a ∧ a < base + n
  | .bits p n, a, j => ∃ q, p ≤ q ∧ q < p + n ∧ a = bitAddr q ∧ j = 7 - q % 8

/-- The offsets of the registers (20_memory.md R52). -/
def registerOffsets : List Nat :=
  [0x000, 0x004, 0x008, 0x00C, 0x010, 0x014, 0x018, 0x01C, 0x020, 0x024, 0x028, 0x02C, 0x030, 0x034, 0x040, 0x044,
    0x048, 0x04C, 0x050, 0x054, 0x058, 0x05C, 0x060, 0x064, 0x068, 0x06C]

/-- The offset and size of a transaction (20_memory.md R45). -/
def Transaction.span : Transaction → Nat × Nat
  | .read off size => (off.toNat, size.bytes)
  | .write off size _ => (off.toNat, size.bytes)

/-- When QRE answers a transaction of `n` bytes at offset `o` with ERROR (60_exceptions.md R156): a register region
access of the wrong size or alignment (20_memory.md R50) or at an unlisted offset (R49), an unmapped offset (R48), a
misaligned memory access (R53), a RAM access while BUSY (R55). -/
def answersError (busy : Bool) (o n : Nat) : Prop :=
  (o < 0x1000 ∧ (n ≠ 4 ∨ o % 4 ≠ 0 ∨ o ∉ registerOffsets)) ∨ (0x1500 ≤ o ∧ o < 0x2000) ∨ (0x5000 ≤ o ∧ o < 0x8000) ∨
    (0x1000 ≤ o ∧ o % n ≠ 0) ∨ (0x1200 ≤ o ∧ busy = true)

/-- Cell `p` of line `k`: row k for k < dim, column k - dim after (43_mask.md R132). -/
def lineCell (dim : Nat) (cells : List Byte) (k p : Nat) : Bool :=
  if k < dim then darkAt dim cells k p else darkAt dim cells p (k - dim)

/-- Whether cells a .. a+len-1 of a line of `dim` cells are a maximal run of one colour (43_mask.md R132). -/
def maximalRun (dim : Nat) (line : Nat → Bool) (a len : Nat) : Bool :=
  decide (1 ≤ len ∧ a + len ≤ dim) && (List.range len).all (fun t => line (a + t) == line a) &&
    (a == 0 || line (a - 1) != line a) && (a + len == dim || line (a + len) != line a)

/-- Whether the 11 cells from `p` on of a line are a given sequence (43_mask.md R134). -/
def windowIs (dim : Nat) (line : Nat → Bool) (seq : List Bool) (p : Nat) : Bool :=
  decide (p + 11 ≤ dim) && (List.range 11).all (fun t => line (p + t) == seq.getD t false)

/-- Whether the 2 x 2 cells at (r, c) have one colour (43_mask.md R133). -/
def uniformBlock (dim : Nat) (cells : List Byte) (r c : Nat) : Bool :=
  darkAt dim cells r (c + 1) == darkAt dim cells r c && darkAt dim cells (r + 1) c == darkAt dim cells r c &&
    darkAt dim cells (r + 1) (c + 1) == darkAt dim cells r c

/-- The sum of `f 0 .. f (n-1)`. -/
def sumUpTo (n : Nat) (f : Nat → Nat) : Nat := ((List.range n).map f).sum

/-- A legal mask ID for a board (43_mask.md R131). -/
def maskIdLegal (micro : Bool) (m : Nat) : Prop := m ≤ 7 ∧ (micro = true → m = 1 ∨ m = 4 ∨ m = 6 ∨ m = 7)

/-- A legal board configuration (43_mask.md R130). -/
def configLegal (b : Bcfg) : Prop :=
  (b.micro = false ∧ 1 ≤ b.ver.toNat ∧ b.ver.toNat ≤ 40) ∨ (b.micro = true ∧ 1 ≤ b.ver.toNat ∧ b.ver.toNat ≤ 4)

/-- Every cell of the board a mask command reads is well formed (43_mask.md R131). -/
def boardWellFormed (s : State) : Prop :=
  ∀ b ∈ boardCells s, b.toNat % 4 ≠ 3 ∧ b.toNat / 4 % 16 ≤ 9 ∧ b.toNat < 64

/-- BOARD after mask `m` is applied to the board that `s` gives a command: every cell under the mask, every byte
outside the board left alone (43_mask.md R129, R123). -/
def boardMasked (s : State) (m : Nat) (ram : Memory) : Prop :=
  (∀ r c d, r < dimOf s → c < dimOf s →
      readByte ram d (0x8000 + (r * dimOf s + c)) =
        (if cellMasked (cellOf (dimOf s) (boardCells s) r c) = true ∧ maskPred m r c = true then
          cellOf (dimOf s) (boardCells s) r c ^^^ 1#8
        else cellOf (dimOf s) (boardCells s) r c)) ∧
    ∀ a, (a < 0x8000 ∨ 0x8000 + dimOf s * dimOf s ≤ a) → byteKept s.ram ram a

/-- Every byte of the board of BCFG holds a value. -/
def boardKnown (s : State) : Prop := ∀ k, k < dimOf s * dimOf s → planeGet s.ram.known (0x8000 + k) = 0xFF#8

/-- The errors each command can report: ECODE and SUB (60_exceptions.md R150, R151, R152). -/
def errorsOf : Instr → List (BitVec 4 × BitVec 8)
  | .nop => []
  | .gfMul | .genPoly | .polyEval => [(4, 0x10)]
  | .gfPow => [(4, 0x10), (4, 0x13)]
  | .polyMul => [(4, 0x10), (4, 0x12)]
  | .rsEcc => [(4, 0x10), (4, 0x11)]
  | .packNum | .packAlnum => [(4, 0x20), (4, 0x21), (1, 0x22)]
  | .packKanji => [(4, 0x20), (1, 0x23), (4, 0x21), (1, 0x22)]
  | .packByte => [(4, 0x20), (4, 0x21)]
  | .packBits => [(4, 0x10), (4, 0x21)]
  | .maskApply => [(2, 0x30), (4, 0x10), (2, 0x31), (4, 0x32)]
  | .maskScore => [(2, 0x30), (4, 0x32)]
  | .maskSelect _ force => if force then [(2, 0x30), (4, 0x10), (2, 0x31), (4, 0x32)] else [(2, 0x30), (4, 0x32)]

/-- The error completion of a command launched in `s` (44_control.md R146), spelled out field by field. -/
def failsWith (s : State) (ecode : BitVec 4) (sub : BitVec 8) (idx : BitVec 24) : State :=
  { s with
    status := ⟨false, true, true, s.status.ovr, ecode⟩
    errInfo := ⟨sub, idx⟩
    wait := 0
    draws := s.draws + 1 }

/-- The successful completion of a command launched in `s` that leaves `res` in RES0..RES3, `scores` and `pens` in SCORE
and PEN, and `ram` in the memories, spelled out field by field; every other register keeps its value. -/
def succeedsWith (s : State) (res : Results) (scores : Scores) (pens : Penalties) (ram : Memory) : State :=
  { s with
    res := res
    scores := scores
    pens := pens
    ram := ram
    status := ⟨false, true, false, s.status.ovr, 0#4⟩
    errInfo := ⟨0#8, 0#24⟩
    wait := 0
    draws := s.draws + 1 }

end Sys2Proof.Machine
end

