-- ==== Sys2Proof/Certificates/Slice0/Obligations.lean ====
section
/-! DEFINITION. The statements about the model, for the provers. Each cites the rule of the spec it formalises. `d` is the
number of a draw: a statement about a read holds for every draw (log entry 3). The model's own fields `wait`, `draws`,
`host` and `answer` are named where they change. -/

open Sys2Proof Sys2Proof.Machine

/-! ## Encoding -/

/-- Decoding and encoding agree on every command and every one of the 2^32 words (30_encoding.md R71, R74, R75, R83). -/
def Obligations.DecodeEncodeAgree : Prop :=
  ∀ (w : Word) (i : Instr), decodeWord w = .ok i ↔ w = encode i

/-- 30_encoding.md R83: OPC is checked before FLAGS and FLAGS before RSVD; the first fault is reported with its field,
and a word without a fault gives the command of its opcode with COMMIT = FLAGS[0] and FORCE = FLAGS[1]. -/
def Obligations.DecodeReportsFirstFault : Prop :=
  ∀ w : Word,
    (opcodeAssigned w = false → decodeWord w = .error (.badOpc (BitVec.ofNat 8 (w.toNat % 256)))) ∧
    (opcodeAssigned w = true → undefinedFlagsClear w = false →
      decodeWord w = .error (.badFlags (BitVec.ofNat 8 (w.toNat / 256 % 256)))) ∧
    (opcodeAssigned w = true → undefinedFlagsClear w = true → reservedClear w = false →
      decodeWord w = .error (.badRsvd (BitVec.ofNat 16 (w.toNat / 65536)))) ∧
    (opcodeAssigned w = true → undefinedFlagsClear w = true → reservedClear w = true →
      ∃ i, decodeWord w = .ok i ∧ i.opcode.toNat = w.toNat % 256 ∧
        ∀ commit force, i = .maskSelect commit force → commit = w.getLsbD 8 ∧ force = w.getLsbD 9)

/-- 30_encoding.md R82: an illegal word written to CMD while idle is stored and launched like any other. It completes at
once, in the step right after the write whatever host events are pending, with IllegalCommand and the subcode of its first
fault, and changes nothing else. A state in which such a word runs for another reason completes it likewise when no event
comes before. -/
def Obligations.IllegalWordCompletesWithError : Prop :=
  ∀ (s t : State) (w : Word) (e : DecodeError), decodeWord w = .error e →
    (s.status.busy = false →
      serve s (.write 0x000C .four w) =
        ({ s with cmd := w, status := ⟨true, false, false, s.status.ovr, 0#4⟩, errInfo := ⟨0#8, 0#24⟩, wait := 0 },
          ⟨true, 0⟩)) ∧
    ((s.status.busy = false ∧ t = takeEvent s (.bus (.write 0x000C .four w))) ∨
        (t.status.busy = true ∧ t.cmd = w ∧ (t.host = [] ∨ t.wait = 0)) →
      step t = .next (match e with
        | .badOpc opc => failsWith t 5#4 0x01#8 (BitVec.ofNat 24 opc.toNat)
        | .badFlags flags => failsWith t 5#4 0x02#8 (BitVec.ofNat 24 flags.toNat)
        | .badRsvd rsvd => failsWith t 5#4 0x03#8 (BitVec.ofNat 24 rsvd.toNat)))

/-- Words written out from the fields of 30_encoding.md R71 and the opcodes of R74 decode to their commands; every
mnemonic of R84 names its command, MASK_SELECT's two letters in either order. -/
def Obligations.SampleWordsDecode : Prop :=
  decodeWord 0x00000000#32 = .ok .nop ∧ decodeWord 0x00000002#32 = .ok .gfPow ∧
    decodeWord 0x00000012#32 = .ok .rsEcc ∧ decodeWord 0x00000022#32 = .ok .packKanji ∧
    decodeWord 0x00000030#32 = .ok .maskApply ∧ decodeWord 0x00000132#32 = .ok (.maskSelect true false) ∧
    decodeWord 0x00000232#32 = .ok (.maskSelect false true) ∧ decodeWord 0x00010132#32 = .error (.badRsvd 1) ∧
    (∀ i, assemble (mnemonicOf i) = some i) ∧ assemble "MASK_SELECT.CF" = some (.maskSelect true true) ∧
    (assemble "MASK_SELECT.FC").map encode = some 0x00000332#32

/-! ## The step and the lifecycle -/

/-- A step runs the command that CMD decodes to, when one is running and no host event comes first; otherwise it takes
the oldest host event, or nothing happens. A bus transaction taken is served, whole, in that step: the state is the one
`serve` leaves, and its answer is what the host gets (00_scope.md R13; 20_memory.md R46; 60_exceptions.md R159). A
power-on reset taken leaves the reset state. And the word `withFetchWord` places runs in the very next step. The event
list, the wait, the place of the answer, the draw counter and `withFetchWord` are the model's choice (log entries 1, 2, 3,
8, 10, 12). -/
def Obligations.StepRunsDecodedCommand : Prop :=
  (∀ (s : State) (i : Instr), Ready s i → step s = exec i s) ∧
    (∀ s : State, s.status.busy = false → s.host = [] → step s = .next s) ∧
    (∀ (s : State) (ev : HostEvent) (rest : List HostEvent), s.status.busy = false → s.host = ev :: rest →
      step s = .next (takeEvent { s with host := rest } ev)) ∧
    (∀ (s : State) (ev : HostEvent) (rest : List HostEvent), s.status.busy = true → s.host = ev :: rest → s.wait ≠ 0 →
      step s = .next (takeEvent { s with host := rest, wait := s.wait - 1 } ev)) ∧
    (∀ (s : State) (t : Transaction),
      takeEvent s (.bus t) = { (serve s t).1 with answer := some (serve s t).2, draws := s.draws + 1 }) ∧
    (∀ s : State, takeEvent s .powerOnReset = { State.reset with host := s.host, draws := s.draws + 1 }) ∧
    ∀ (s : State) (i : Instr),
      step (s.withFetchWord 32 (encode i).toNat) = exec i (s.withFetchWord 32 (encode i).toNat)

/-- 44_control.md R144: what a write to CMD does while idle, and that while BUSY it launches nothing. The latency of a
command is a free value (log entry 2); an illegal word has none (30_encoding.md R82). -/
def Obligations.CmdWriteLaunches : Prop :=
  ∀ (s : State) (w : Word),
    (s.status.busy = false →
      serve s (.write 0x000C .four w) =
        ({ s with
            cmd := w
            status := ⟨true, false, false, s.status.ovr, 0#4⟩
            errInfo := ⟨0#8, 0#24⟩
            wait := match decodeWord w with
              | .ok _ => Config.latency s.draws
              | .error _ => 0 }, ⟨true, 0⟩)) ∧
    (s.status.busy = true →
      serve s (.write 0x000C .four w) = ({ s with status := { s.status with ovr := true } }, ⟨true, 0⟩))

/-- 44_control.md R147, R145: a running command ends within `wait` + 1 steps, whatever the host does meanwhile (the
form of the latency is the model's, log entry 2); and no run of QRE, from any state, ends in a fault or a refusal
(60_exceptions.md R156; log entry 9). -/
def Obligations.BusyEndsWithinLatency : Prop :=
  (∀ s : State, s.status.busy = true →
    ∃ k t, 1 ≤ k ∧ k ≤ s.wait + 1 ∧ core.run k s = .next t ∧ t.status.busy = false) ∧
  ∀ (n : Nat) (s : State), SafeRun n s

/-- 60_exceptions.md R153: a command that ends with an error leaves everything as it was but DONE, BUSY, ERR, ECODE and
ERRINFO (and the model's counters). -/
def Obligations.ErrorsAreAllOrNothing : Prop :=
  ∀ (i : Instr) (s t : State), exec i s = .next t → t.status.err = true →
    t.status.ecode ≠ 0 ∧ t = failsWith s t.status.ecode t.errInfo.sub t.errInfo.idx

/-- 44_control.md R146, 10_state.md R21 to R23: every completion sets DONE and clears BUSY, keeps OVR, and leaves ECODE
and ERRINFO 0 unless it reports an error; irq follows DONE. -/
def Obligations.CompletionSetsStatus : Prop :=
  ∀ (i : Instr) (s t : State), exec i s = .next t →
    t.status.busy = false ∧ t.status.done = true ∧ t.status.ovr = s.status.ovr ∧ irq t = s.ctrl.ie ∧
      (t.status.err = false → t.status.ecode = 0 ∧ t.errInfo = ⟨0, 0⟩)

/-- 60_exceptions.md R150, R151: the errors each command can report. -/
def Obligations.ErrorsOfEachCommand : Prop :=
  ∀ (i : Instr) (s t : State), exec i s = .next t → t.status.err = true →
    (t.status.ecode, t.errInfo.sub) ∈ errorsOf i

/-- 10_state.md R26, R27, R33, R34: no command writes an ARG, CMD, BCFG, CTRL, RES3, MEM_A, MEM_B or IN. -/
def Obligations.CommandsKeepTheirInputs : Prop :=
  ∀ (i : Instr) (s t : State), s.ram.wf = true → exec i s = .next t →
    t.args = s.args ∧ t.cmd = s.cmd ∧ t.bcfg = s.bcfg ∧ t.ctrl = s.ctrl ∧ t.res.r3 = s.res.r3 ∧ t.host = s.host ∧
      t.answer = s.answer ∧
      ∀ a, (0x1200 ≤ a ∧ a < 0x1400) ∨ (0x2000 ≤ a ∧ a < 0x4000) → byteKept s.ram t.ram a

/-- 10_state.md R30, R31, R33, R35, R36: which commands write SCORE, PEN, MEM_R, BITBUF and BOARD. -/
def Obligations.OutputsHaveTheirWriters : Prop :=
  ∀ (i : Instr) (s t : State), s.ram.wf = true → exec i s = .next t →
    ((∀ commit, i ≠ .maskSelect commit false) → t.scores = s.scores) ∧
    ((i ≠ .maskScore ∨ s.bcfg.micro = true) → t.pens = s.pens) ∧
    (i ∉ [Instr.polyMul, .genPoly, .rsEcc] → ∀ a, 0x1400 ≤ a → a < 0x1500 → byteKept s.ram t.ram a) ∧
    (i ∉ [Instr.packNum, .packAlnum, .packKanji, .packByte, .packBits] →
      ∀ a, 0x4000 ≤ a → a < 0x5000 → byteKept s.ram t.ram a) ∧
    (i ∉ [Instr.maskApply, .maskSelect true false, .maskSelect true true] →
      ∀ a, 0x8000 ≤ a → a < 0x10000 → byteKept s.ram t.ram a) ∧
    ∀ a, 0x8000 + dimOf s * dimOf s ≤ a → byteKept s.ram t.ram a

/-- 10_state.md R41: a command's results are a function of its inputs alone. Two states that agree on the operands, the
outputs' old values and the RAM, whatever else they hold, give the same outputs and the same report. Where a RAM byte has
no value the two must draw alike; where every byte has one, no draw matters (log entry 3). -/
def Obligations.ResultsDependOnInputsOnly : Prop :=
  ∀ (i : Instr) (s t s' t' : State), s.args = t.args → s.bcfg = t.bcfg → s.res = t.res → s.scores = t.scores →
    s.pens = t.pens → s.ram = t.ram →
    (s.draws = t.draws ∨ ∀ a, isRam a = true → planeGet s.ram.known a = 0xFF#8) →
    exec i s = .next s' → exec i t = .next t' →
    s'.res = t'.res ∧ s'.scores = t'.scores ∧ s'.pens = t'.pens ∧ s'.ram = t'.ram ∧ s'.errInfo = t'.errInfo ∧
      s'.status.err = t'.status.err ∧ s'.status.ecode = t'.status.ecode

/-! ## The invariant and reset -/

/-- The reset state meets the invariant, of which `idleWait` is the model's own (log entry 13). -/
def Obligations.ResetMeetsInvariant : Prop := StateInv State.reset

/-- Every step keeps the invariant: the RAM's canonical form, and what 10_state.md R21 to R23, R27, R28 and
60_exceptions.md R151 say of the status registers at every moment; that an illegal word which runs waits for nothing
(30_encoding.md R82); and the model's own `idleWait` (log entry 13). -/
def Obligations.StepKeepsInvariant : Prop :=
  ∀ s t : State, StateInv s → step s = .next t → StateInv t

/-- 10_state.md R44, 70_reset_and_hazards.md R167: power-on reset, from any state and during a command, and the reset
state itself: every register 0 but ID, irq 0, no RAM bit with a value, EXP and LOG as ever. -/
def Obligations.PowerOnResetValues : Prop :=
  ∀ s : State, (s = State.reset ∨ ∃ s0 : State, s = takeEvent s0 .powerOnReset) →
    (∀ r, readReg s r = if r = .id then 0x51524501#32 else 0#32) ∧ s.status.busy = false ∧ irq s = false ∧
      (∀ a, planeGet s.ram.known a = 0#8) ∧
      ∀ i, i < 256 → readByte s.ram s.draws (0x1000 + i) = expAt i ∧
        (readByte s.ram s.draws (0x1100 + i)).toNat = logAt (BitVec.ofNat 8 i)

/-- 70_reset_and_hazards.md R168: a write to CTRL with SRST, whether BUSY or not: every register but ID takes its reset
value, IE becomes bit 0 of the written word, QRE is idle, irq is 0; the RAMs stay when no command runs, and all but the
destination region stays when one does. -/
def Obligations.SoftResetValues : Prop :=
  ∀ (s : State) (w : Word), w.getLsbD 1 = true →
    (serve s (.write 0x0004 .four w)).2 = ⟨true, 0⟩ ∧
    (∀ r, readReg (serve s (.write 0x0004 .four w)).1 r =
      if r = .id then 0x51524501#32 else if r = .ctrl then w &&& 1#32 else 0#32) ∧
    (serve s (.write 0x0004 .four w)).1.status.busy = false ∧ irq (serve s (.write 0x0004 .four w)).1 = false ∧
    (s.status.busy = false → (serve s (.write 0x0004 .four w)).1.ram = s.ram) ∧
    (∀ i, s.ram.wf = true → decodeWord s.cmd = .ok i → ∀ a j, j < 8 → ¬ inRegion (destination i s) a j →
      (planeGet (serve s (.write 0x0004 .four w)).1.ram.known a).getLsbD j = (planeGet s.ram.known a).getLsbD j ∧
      (planeGet (serve s (.write 0x0004 .four w)).1.ram.val a).getLsbD j = (planeGet s.ram.val a).getLsbD j)

/-- 70_reset_and_hazards.md R169: the destination region of every command, bit by bit: aborting a command that would have
succeeded leaves no bit of it with a value, and every bit outside it with the value it had, or having none; aborting one
that would have failed, or a word that does not decode, changes no RAM. That the whole region loses its values, and when
the failing is decided, is the model's reading (log entry 7). -/
def Obligations.AbortForgetsTheDestination : Prop :=
  (∀ (s : State) (w : Word) (i : Instr), s.ram.wf = true → s.status.busy = true → w.getLsbD 1 = true →
    decodeWord s.cmd = .ok i →
    (wouldSucceed i s = true → ∀ a j, j < 8 →
      (inRegion (destination i s) a j →
        (planeGet (serve s (.write 0x0004 .four w)).1.ram.known a).getLsbD j = false) ∧
      (¬ inRegion (destination i s) a j →
        (planeGet (serve s (.write 0x0004 .four w)).1.ram.known a).getLsbD j = (planeGet s.ram.known a).getLsbD j ∧
        (planeGet (serve s (.write 0x0004 .four w)).1.ram.val a).getLsbD j = (planeGet s.ram.val a).getLsbD j)) ∧
    (wouldSucceed i s = false → (serve s (.write 0x0004 .four w)).1.ram = s.ram)) ∧
  (∀ (s : State) (w : Word) (e : DecodeError), w.getLsbD 1 = true → decodeWord s.cmd = .error e →
    (serve s (.write 0x0004 .four w)).1.ram = s.ram) ∧
  ∀ s : State,
    destination .nop s = .nothing ∧ destination .gfMul s = .nothing ∧ destination .gfPow s = .nothing ∧
    destination .polyEval s = .nothing ∧ destination .maskScore s = .nothing ∧
    destination .polyMul s = .bytes 0x1400 (arg0 s + arg1 s - 1) ∧
    destination .genPoly s = .bytes 0x1400 (arg0 s + 1) ∧ destination .rsEcc s = .bytes 0x1400 (arg1 s) ∧
    destination .packBits s = .bits (arg2 s) (arg1 s) ∧
    destination .packByte s = .bits (arg2 s) (8 * arg1 s) ∧
    destination .packKanji s = .bits (arg2 s) (13 * (arg1 s / 2)) ∧
    destination .packAlnum s = .bits (arg2 s) (11 * (arg1 s / 2) + 6 * (arg1 s % 2)) ∧
    destination .packNum s = .bits (arg2 s) (10 * (arg1 s / 3) + [0, 4, 7].getD (arg1 s % 3) 0) ∧
    destination .maskApply s = .bytes 0x8000 (dimOf s * dimOf s) ∧
    ∀ force, destination (.maskSelect true force) s = .bytes 0x8000 (dimOf s * dimOf s) ∧
      destination (.maskSelect false force) s = .nothing

/-! ## The bus and the registers -/

/-- 20_memory.md R56, R54: a read of any register or byte changes no state; a write to a read-only register or a ROM, in
a form QRE accepts, is answered OKAY and changes nothing, and so is a write to STATUS with 0 in bits 1, 2 and 3. -/
def Obligations.ReadsAndReadOnlyWritesChangeNothing : Prop :=
  (∀ (s : State) (off : Offset) (size : Size), (serve s (.read off size)).1 = s) ∧
  ∀ (s : State) (off : Offset) (size : Size) (w : Word),
    ((off.toNat ∈ [0x000, 0x020, 0x024, 0x028, 0x02C, 0x030, 0x040, 0x044, 0x048, 0x04C, 0x050, 0x054, 0x058, 0x05C,
        0x060, 0x064, 0x068, 0x06C] ∧ size = .four) ∨
      (0x1000 ≤ off.toNat ∧ off.toNat < 0x1200 ∧ off.toNat % size.bytes = 0) ∨
      (off = 0x0008 ∧ size = .four ∧ w.getLsbD 1 = false ∧ w.getLsbD 2 = false ∧ w.getLsbD 3 = false)) →
    serve s (.write off size w) = (s, ⟨true, 0⟩)

/-- 20_memory.md R51, R52: a read of a register, a whole word at its offset, is answered OKAY with the register's value and
changes nothing, BUSY or not; the registers stand at the offsets of R52 in that order; and what each reads as, field by field,
reserved bits 0 (10_state.md R18 to R20, R25 to R31). -/
def Obligations.RegisterReadsGiveTheirValues : Prop :=
  ([.id, .ctrl, .status, .cmd, .arg 0, .arg 1, .arg 2, .arg 3, .res 0, .res 1, .res 2, .res 3, .errInfo, .bcfg, .score 0,
      .score 1, .score 2, .score 3, .score 4, .score 5, .score 6, .score 7, .pen 0, .pen 1, .pen 2, .pen 3].map Reg.offset =
    registerOffsets) ∧
  ∀ s : State,
    (∀ r : Reg, serve s (.read (BitVec.ofNat 16 r.offset) .four) = (s, ⟨true, readReg s r⟩)) ∧
    readReg s .id = 0x51524501#32 ∧ (readReg s .ctrl).toNat = s.ctrl.ie.toNat ∧
    (readReg s .status).toNat = s.status.busy.toNat + 2 * s.status.done.toNat + 4 * s.status.err.toNat +
      8 * s.status.ovr.toNat + 256 * s.status.ecode.toNat ∧
    readReg s .cmd = s.cmd ∧
    (∀ n : Fin 4, readReg s (.arg n) = [s.args.a0, s.args.a1, s.args.a2, s.args.a3].getD n.val 0#32) ∧
    (∀ n : Fin 4, readReg s (.res n) = [s.res.r0, s.res.r1, s.res.r2, s.res.r3].getD n.val 0#32) ∧
    (readReg s .errInfo).toNat = 0x1000000 * s.errInfo.sub.toNat + s.errInfo.idx.toNat ∧
    (readReg s .bcfg).toNat = 256 * s.bcfg.micro.toNat + s.bcfg.ver.toNat ∧
    (∀ n : Fin 8, readReg s (.score n) = [s.scores.s0, s.scores.s1, s.scores.s2, s.scores.s3, s.scores.s4, s.scores.s5,
      s.scores.s6, s.scores.s7].getD n.val 0#32) ∧
    ∀ n : Fin 4, readReg s (.pen n) = [s.pens.n1, s.pens.n2, s.pens.n3, s.pens.n4].getD n.val 0#32

/-- 60_exceptions.md R156, 20_memory.md R45, R49, R50, R53, R55: exactly which transactions are answered ERROR, that such
a one changes no state, and that its read data is 0. -/
def Obligations.BusErrorsExactly : Prop :=
  ∀ (s : State) (t : Transaction),
    ((serve s t).2.okay = false ↔ answersError s.status.busy t.span.1 t.span.2) ∧
      ((serve s t).2.okay = false → (serve s t).1 = s ∧ (serve s t).2.rdata = 0)

/-- 20_memory.md R66: while BUSY a write to CMD, ARG0..ARG3 or BCFG is answered OKAY, dropped, and sets OVR; a write to
CTRL or STATUS takes effect as it does while idle (with SRST: SoftResetValues). -/
def Obligations.BusyWritesAreDropped : Prop :=
  ∀ (s : State) (w : Word), s.status.busy = true →
    (∀ off : Offset, off.toNat ∈ [0x00C, 0x010, 0x014, 0x018, 0x01C, 0x034] →
      serve s (.write off .four w) = ({ s with status := { s.status with ovr := true } }, ⟨true, 0⟩)) ∧
    (w.getLsbD 1 = false → serve s (.write 0x0004 .four w) = ({ s with ctrl := ⟨w.getLsbD 0⟩ }, ⟨true, 0⟩)) ∧
    (w.getLsbD 1 = true → (serve s (.write 0x0004 .four w)).2 = ⟨true, 0⟩ ∧
      (serve s (.write 0x0004 .four w)).1.ctrl = ⟨w.getLsbD 0⟩ ∧
      (serve s (.write 0x0004 .four w)).1.status = ⟨false, false, false, false, 0#4⟩) ∧
    serve s (.write 0x0008 .four w) = ({ s with status := s.status.writeOneToClear w }, ⟨true, 0⟩)

/-- 10_state.md R20, R22 to R24, 20_memory.md R51, R56: a host write `w` to STATUS, BUSY or not, changes STATUS alone: every
other register, the RAM and all else stay. Of what STATUS reads as, bits 1, 2 and 3 are cleared where `w` has a 1, ECODE with
bit 2, and no other bit changes; the reserved bits read 0. -/
def Obligations.StatusWriteOneToClear : Prop :=
  ∀ (s : State) (w : Word), ∃ st : Status,
    serve s (.write 0x0008 .four w) = ({ s with status := st }, ⟨true, 0⟩) ∧
    ∀ j, j < 32 → (readReg { s with status := st } .status).getLsbD j =
      (if j = 1 ∨ j = 2 ∨ j = 3 then (readReg s .status).getLsbD j && !w.getLsbD j
      else if 8 ≤ j ∧ j < 12 then (readReg s .status).getLsbD j && !w.getLsbD 2
      else if j = 0 then s.status.busy
      else false)

/-- 10_state.md R19, R26, R29, 20_memory.md R51, R56: what each read-write register reads as after a host write while idle,
and that the write is answered OKAY and changes nothing else: no other register, not the RAM, nothing of the state. -/
def Obligations.RegisterWritesReadBack : Prop :=
  ∀ (s : State) (w : Word), s.status.busy = false →
    (∀ n : Fin 4, ∃ args : Args,
      serve s (.write (BitVec.ofNat 16 (0x10 + 4 * n.val)) .four w) = ({ s with args := args }, ⟨true, 0⟩) ∧
      ∀ r : Reg, readReg { s with args := args } r = if r = .arg n then w else readReg s r) ∧
    (∃ bcfg : Bcfg,
      serve s (.write 0x0034 .four w) = ({ s with bcfg := bcfg }, ⟨true, 0⟩) ∧
      ∀ r : Reg, readReg { s with bcfg := bcfg } r = if r = .bcfg then w &&& 0x13F#32 else readReg s r) ∧
    (w.getLsbD 1 = false → ∃ ctrl : Ctrl,
      serve s (.write 0x0004 .four w) = ({ s with ctrl := ctrl }, ⟨true, 0⟩) ∧
      ∀ r : Reg, readReg { s with ctrl := ctrl } r = if r = .ctrl then w &&& 1#32 else readReg s r)

/-- 20_memory.md R57: little-endian accesses. After an accepted write of n bytes to a RAM, byte k of the data stands at
offset o + k, every other byte is as before, and no register has changed; in an accepted read of a RAM or ROM, the byte at
o + k is bits 8k+7 : 8k of the data. That the rest of the 32-bit word that holds read data is 0 is the model's choice (log
entry 10). -/
def Obligations.LittleEndianAccesses : Prop :=
  (∀ (s : State) (off : Offset) (size : Size) (w : Word), s.ram.wf = true → s.status.busy = false →
    isRam off.toNat = true → off.toNat % size.bytes = 0 →
    ∃ ram, serve s (.write off size w) = ({ s with ram := ram }, ⟨true, 0⟩) ∧
      (∀ k d, k < size.bytes → (readByte ram d (off.toNat + k)).toNat = w.toNat / 256 ^ k % 256) ∧
      ∀ a, (a < off.toNat ∨ off.toNat + size.bytes ≤ a) → byteKept s.ram ram a) ∧
  ∀ (s : State) (off : Offset) (size : Size), 0x1000 ≤ off.toNat → (serve s (.read off size)).2.okay = true →
    ∀ k, k < 4 → (serve s (.read off size)).2.rdata.toNat / 256 ^ k % 256 =
      if k < size.bytes then (readByte s.ram s.draws (off.toNat + k)).toNat else 0

/-- 10_state.md R38: a RAM byte that holds no value reads as a draw: the free value of this read (log entry 3). -/
def Obligations.UnwrittenByteReadsAsDraw : Prop :=
  ∀ (s : State) (off : Offset), s.status.busy = false → isRam off.toNat = true →
    planeGet s.ram.known off.toNat = 0#8 →
    (serve s (.read off .one)).2.rdata.toNat = (Config.freeByte s.draws off.toNat).toNat

/-- 60_exceptions.md R158, 10_state.md R42: irq is the level CTRL.IE and STATUS.DONE, and it drives input P_IRQ. -/
def Obligations.IrqIsEnabledDone : Prop :=
  ∀ s : State, irq s = ((readReg s .ctrl).getLsbD 0 && (readReg s .status).getLsbD 1) ∧
    irqInput s Config.pIrq = irq s

/-! ## GF(256) -/

/-- 40_gf.md R88 to R90: EXP holds the powers of 2, each non-zero element once, and 1 at 255; LOG is its inverse and
LOG[0] is 0. The host reads them at their offsets. -/
def Obligations.TablesHoldPowersAndLogs : Prop :=
  expAt 0 = 1#8 ∧ (∀ i, i < 254 → expAt (i + 1) = timesX (expAt i)) ∧ expAt 255 = 1#8 ∧
    (∀ i, i < 255 → expAt i ≠ 0#8 ∧ logAt (expAt i) = i) ∧
    (∀ a : Byte, a ≠ 0#8 → logAt a < 255 ∧ expAt (logAt a) = a) ∧ logAt 0#8 = 0 ∧
    ∀ (m : Memory) (d i : Nat), i < 256 →
      readByte m d (0x1000 + i) = expAt i ∧ (readByte m d (0x1100 + i)).toNat = logAt (BitVec.ofNat 8 i)

/-- 40_gf.md R93 with R87: GF_MUL writes the field product, the polynomial product reduced modulo 0x11D, to RES0 and
nothing else; an operand above 255 is ARG_RANGE, ARG0 first. -/
def Obligations.GfMulGivesFieldProduct : Prop :=
  encode .gfMul = 0x00000001#32 ∧ ∀ s : State,
    (255 < arg0 s → exec .gfMul s = .next (failsWith s 4#4 0x10#8 0#24)) ∧
    (arg0 s ≤ 255 → 255 < arg1 s → exec .gfMul s = .next (failsWith s 4#4 0x10#8 1#24)) ∧
    (arg0 s ≤ 255 → arg1 s ≤ 255 →
      exec .gfMul s = .next (succeedsWith s
        { s.res with r0 := BitVec.ofNat 32 (fieldProduct (BitVec.ofNat 8 (arg0 s)) (BitVec.ofNat 8 (arg1 s))).toNat }
        s.scores s.pens s.ram))

/-- 40_gf.md R94: GF_POW writes the product of n factors a to RES0 and nothing else; the checks are ARG0, ARG1, then
a = 0. -/
def Obligations.GfPowGivesFieldPower : Prop :=
  encode .gfPow = 0x00000002#32 ∧ ∀ s : State,
    (255 < arg0 s → exec .gfPow s = .next (failsWith s 4#4 0x10#8 0#24)) ∧
    (arg0 s ≤ 255 → 255 < arg1 s → exec .gfPow s = .next (failsWith s 4#4 0x10#8 1#24)) ∧
    (arg0 s = 0 → arg1 s ≤ 255 → exec .gfPow s = .next (failsWith s 4#4 0x13#8 0#24)) ∧
    (1 ≤ arg0 s → arg0 s ≤ 255 → arg1 s ≤ 255 →
      exec .gfPow s = .next (succeedsWith s
        { s.res with r0 := BitVec.ofNat 32 (fieldPower (BitVec.ofNat 8 (arg0 s)) (arg1 s)).toNat }
        s.scores s.pens s.ram))

/-- 40_gf.md R95: the laws of the field, for the table product every command uses. -/
def Obligations.FieldLaws : Prop :=
  ∀ a b c : Byte,
    gfMul a b = gfMul b a ∧ gfMul (gfMul a b) c = gfMul a (gfMul b c) ∧
      gfMul a (b ^^^ c) = gfMul a b ^^^ gfMul a c ∧ gfMul a 1#8 = a ∧ gfMul a 0#8 = 0#8 ∧ a ^^^ a = 0#8 ∧
      (a ≠ 0#8 → gfMul a (expAt (255 - logAt a)) = 1#8)

/-! ## The polynomial engine -/

/-- 41_poly.md R100 with R98: POLY_MUL writes the coefficients of the product to MEM_R[0 .. m+n-2] and their number to
RES0, and nothing else; its checks in order. -/
def Obligations.PolyMulGivesProduct : Prop :=
  encode .polyMul = 0x00000010#32 ∧ ∀ s : State,
    ((arg0 s < 1 ∨ 256 < arg0 s) → exec .polyMul s = .next (failsWith s 4#4 0x10#8 0#24)) ∧
    (1 ≤ arg0 s → arg0 s ≤ 256 → (arg1 s < 1 ∨ 256 < arg1 s) →
      exec .polyMul s = .next (failsWith s 4#4 0x10#8 1#24)) ∧
    (1 ≤ arg0 s → arg0 s ≤ 256 → 1 ≤ arg1 s → arg1 s ≤ 256 → 256 < arg0 s + arg1 s - 1 →
      exec .polyMul s = .next (failsWith s 4#4 0x12#8 (BitVec.ofNat 24 (arg0 s + arg1 s - 1)))) ∧
    (s.ram.wf = true → 1 ≤ arg0 s → 1 ≤ arg1 s → arg0 s + arg1 s - 1 ≤ 256 →
      ∃ ram, exec .polyMul s = .next (succeedsWith s { s.res with r0 := BitVec.ofNat 32 (arg0 s + arg1 s - 1) }
          s.scores s.pens ram) ∧
        (∀ t d, t < arg0 s + arg1 s - 1 → readByte ram d (0x1400 + t) =
          productCoeff (readBytes s.ram s.draws 0x1200 (arg0 s)) (readBytes s.ram s.draws 0x1300 (arg1 s)) t) ∧
        ∀ a, (a < 0x1400 ∨ 0x1400 + (arg0 s + arg1 s - 1) ≤ a) → byteKept s.ram ram a)

/-- 41_poly.md R101: swapping the operands of POLY_MUL, memories and lengths, changes nothing of its result. -/
def Obligations.PolyMulIsSymmetric : Prop :=
  ∀ s t s' t' : State, s.ram.wf = true → t.ram.wf = true → arg0 s = arg1 t → arg1 s = arg0 t →
    (∀ k, k < arg0 s → readByte s.ram s.draws (0x1200 + k) = readByte t.ram t.draws (0x1300 + k)) →
    (∀ k, k < arg1 s → readByte s.ram s.draws (0x1300 + k) = readByte t.ram t.draws (0x1200 + k)) →
    exec .polyMul s = .next s' → exec .polyMul t = .next t' → s'.status.err = false →
    t'.status.err = false ∧ s'.res.r0 = t'.res.r0 ∧
      ∀ k d, k < arg0 s + arg1 s - 1 → readByte s'.ram d (0x1400 + k) = readByte t'.ram d (0x1400 + k)

/-- 41_poly.md R102 with R99: GEN_POLY writes the monic polynomial of degree k whose roots are 2^0 .. 2^(k-1), which is
the product of the factors (x - 2^i), to MEM_R[0 .. k], and k + 1 to RES0, and nothing else. -/
def Obligations.GenPolyHasItsRoots : Prop :=
  encode .genPoly = 0x00000011#32 ∧ ∀ s : State,
    ((arg0 s < 1 ∨ 255 < arg0 s) → exec .genPoly s = .next (failsWith s 4#4 0x10#8 0#24)) ∧
    (s.ram.wf = true → 1 ≤ arg0 s → arg0 s ≤ 255 →
      ∃ (g : List Byte) (ram : Memory),
        exec .genPoly s = .next (succeedsWith s { s.res with r0 := BitVec.ofNat 32 (arg0 s + 1) }
          s.scores s.pens ram) ∧
        g.length = arg0 s + 1 ∧ g.getD 0 0#8 = 1#8 ∧ (∀ i, i < arg0 s → polyValue g (expAt i) = 0#8) ∧
        (∀ t d, t ≤ arg0 s → readByte ram d (0x1400 + t) = g.getD t 0#8) ∧
        ∀ a, (a < 0x1400 ∨ 0x1400 + (arg0 s + 1) ≤ a) → byteKept s.ram ram a)

/-- 41_poly.md R104 with R103 and R105: RS_ECC writes to MEM_R[0 .. k-1] the k codewords that make message and codewords
together vanish at 2^0 .. 2^(k-1) (there is one such list), k to RES0, and nothing else; its checks in order. -/
def Obligations.RsEccMakesCodewords : Prop :=
  encode .rsEcc = 0x00000012#32 ∧ ∀ s : State,
    (arg0 s < 1 → exec .rsEcc s = .next (failsWith s 4#4 0x10#8 0#24)) ∧
    (1 ≤ arg0 s → arg1 s < 1 → exec .rsEcc s = .next (failsWith s 4#4 0x10#8 1#24)) ∧
    (1 ≤ arg0 s → 1 ≤ arg1 s → 255 < arg0 s + arg1 s →
      exec .rsEcc s = .next (failsWith s 4#4 0x11#8 (BitVec.ofNat 24 (min (arg0 s + arg1 s) 0xFFFFFF)))) ∧
    (s.ram.wf = true → 1 ≤ arg0 s → 1 ≤ arg1 s → arg0 s + arg1 s ≤ 255 →
      ∃ (ec : List Byte) (ram : Memory),
        exec .rsEcc s = .next (succeedsWith s { s.res with r0 := s.args.a1 } s.scores s.pens ram) ∧
        ec.length = arg1 s ∧
        (∀ i, i < arg1 s → polyValue (readBytes s.ram s.draws 0x1200 (arg0 s) ++ ec) (expAt i) = 0#8) ∧
        (∀ t d, t < arg1 s → readByte ram d (0x1400 + t) = ec.getD t 0#8) ∧
        ∀ a, (a < 0x1400 ∨ 0x1400 + arg1 s ≤ a) → byteKept s.ram ram a)

/-- 41_poly.md R106: POLY_EVAL writes the value of the polynomial in MEM_A at the point to RES0, and nothing else; ARG0
is checked before ARG1. -/
def Obligations.PolyEvalGivesValue : Prop :=
  encode .polyEval = 0x00000013#32 ∧ ∀ s : State,
    ((arg0 s < 1 ∨ 256 < arg0 s) → exec .polyEval s = .next (failsWith s 4#4 0x10#8 0#24)) ∧
    (1 ≤ arg0 s → arg0 s ≤ 256 → 255 < arg1 s → exec .polyEval s = .next (failsWith s 4#4 0x10#8 1#24)) ∧
    (1 ≤ arg0 s → arg0 s ≤ 256 → arg1 s ≤ 255 →
      exec .polyEval s = .next (succeedsWith s
        { s.res with
          r0 := BitVec.ofNat 32
            (polyValue (readBytes s.ram s.draws 0x1200 (arg0 s)) (BitVec.ofNat 8 (arg1 s))).toNat }
        s.scores s.pens s.ram))

/-! ## Packing -/

/-- 20_memory.md R59, R60: where BITBUF bit p stands; BitWrite puts the bits of v, most significant first, and keeps every
other bit. -/
def Obligations.BitWriteReplacesBits : Prop :=
  (∀ (m : Memory) (d p : Nat), p < 32768 →
    bitRead m d p = (readByte m d (0x4000 + p / 8)).getLsbD (7 - p % 8)) ∧
  ∀ (m : Memory) (p w v : Nat), m.wf = true → 1 ≤ w → w ≤ 32 → v < 2 ^ w → p + w ≤ 32768 →
    (∀ t d, t < w → bitRead (bitWrite m p w v) d (p + t) = v.testBit (w - 1 - t)) ∧
      onlyBitsChange m (bitWrite m p w v) p w

/-- 42_pack.md R112: three digits to a 10-bit field, two left over to 7 bits, one to 4; RES0 the bits, RES1 the next bit;
no other bit, byte or register changes. -/
def Obligations.PackNumGivesDigitGroups : Prop :=
  ∀ (s : State) (nb : Nat), s.ram.wf = true → nb = 10 * (arg1 s / 3) + [0, 4, 7].getD (arg1 s % 3) 0 →
    arg0 s + arg1 s ≤ 8192 → arg2 s + nb ≤ 32768 → (∀ b ∈ packInput s, 0x30 ≤ b.toNat ∧ b.toNat ≤ 0x39) →
    ∃ ram, exec .packNum s = .next (succeedsWith s
        { s.res with r0 := BitVec.ofNat 32 nb, r1 := BitVec.ofNat 32 (arg2 s + nb) } s.scores s.pens ram) ∧
      (∀ g d, g < arg1 s / 3 → bitsNumber ram d (arg2 s + 10 * g) 10 =
        100 * (((packInput s).getD (3 * g) 0#8).toNat - 0x30) +
          10 * (((packInput s).getD (3 * g + 1) 0#8).toNat - 0x30) +
          (((packInput s).getD (3 * g + 2) 0#8).toNat - 0x30)) ∧
      (arg1 s % 3 = 2 → ∀ d, bitsNumber ram d (arg2 s + 10 * (arg1 s / 3)) 7 =
        10 * (((packInput s).getD (arg1 s - 2) 0#8).toNat - 0x30) +
          (((packInput s).getD (arg1 s - 1) 0#8).toNat - 0x30)) ∧
      (arg1 s % 3 = 1 → ∀ d, bitsNumber ram d (arg2 s + 10 * (arg1 s / 3)) 4 =
        ((packInput s).getD (arg1 s - 1) 0#8).toNat - 0x30) ∧
      onlyBitsChange s.ram ram (arg2 s) nb

/-- 42_pack.md R114: two characters to an 11-bit field 45 * v1 + v2, a lone one to 6 bits. -/
def Obligations.PackAlnumGivesPairs : Prop :=
  ∀ (s : State) (nb : Nat) (v : Nat → Nat), s.ram.wf = true → nb = 11 * (arg1 s / 2) + 6 * (arg1 s % 2) →
    arg0 s + arg1 s ≤ 8192 → arg2 s + nb ≤ 32768 →
    (∀ k, k < arg1 s → alnumValue ((packInput s).getD k 0#8) = some (v k)) →
    ∃ ram, exec .packAlnum s = .next (succeedsWith s
        { s.res with r0 := BitVec.ofNat 32 nb, r1 := BitVec.ofNat 32 (arg2 s + nb) } s.scores s.pens ram) ∧
      (∀ g d, g < arg1 s / 2 → bitsNumber ram d (arg2 s + 11 * g) 11 = 45 * v (2 * g) + v (2 * g + 1)) ∧
      (arg1 s % 2 = 1 → ∀ d, bitsNumber ram d (arg2 s + 11 * (arg1 s / 2)) 6 = v (arg1 s - 1)) ∧
      onlyBitsChange s.ram ram (arg2 s) nb

/-- 42_pack.md R116: one two-byte character, high byte first, to a 13-bit field. -/
def Obligations.PackKanjiGivesCharacters : Prop :=
  ∀ (s : State) (v : Nat → Nat), s.ram.wf = true → arg1 s % 2 = 0 → arg0 s + arg1 s ≤ 8192 →
    arg2 s + 13 * (arg1 s / 2) ≤ 32768 →
    (∀ k, k < arg1 s / 2 → kanjiValue (((packInput s).getD (2 * k) 0#8).toNat * 256 +
      ((packInput s).getD (2 * k + 1) 0#8).toNat) = some (v k)) →
    ∃ ram, exec .packKanji s = .next (succeedsWith s
        { s.res with r0 := BitVec.ofNat 32 (13 * (arg1 s / 2)), r1 := BitVec.ofNat 32 (arg2 s + 13 * (arg1 s / 2)) }
        s.scores s.pens ram) ∧
      (∀ k d, k < arg1 s / 2 → bitsNumber ram d (arg2 s + 13 * k) 13 = v k) ∧
      onlyBitsChange s.ram ram (arg2 s) (13 * (arg1 s / 2))

/-- 42_pack.md R118: every byte to 8 bits, at any bit offset. -/
def Obligations.PackByteCopiesBytes : Prop :=
  ∀ s : State, s.ram.wf = true → arg0 s + arg1 s ≤ 8192 → arg2 s + 8 * arg1 s ≤ 32768 →
    ∃ ram, exec .packByte s = .next (succeedsWith s
        { s.res with r0 := BitVec.ofNat 32 (8 * arg1 s), r1 := BitVec.ofNat 32 (arg2 s + 8 * arg1 s) }
        s.scores s.pens ram) ∧
      (∀ k d, k < arg1 s → bitsNumber ram d (arg2 s + 8 * k) 8 = ((packInput s).getD k 0#8).toNat) ∧
      onlyBitsChange s.ram ram (arg2 s) (8 * arg1 s)

/-- 42_pack.md R119: PACK_BITS writes the value in w bits; the width is checked, then the value, then the range. -/
def Obligations.PackBitsWritesField : Prop :=
  encode .packBits = 0x00000024#32 ∧ ∀ s : State,
    ((arg1 s < 1 ∨ 32 < arg1 s) → exec .packBits s = .next (failsWith s 4#4 0x10#8 1#24)) ∧
    (1 ≤ arg1 s → arg1 s < 32 → 2 ^ arg1 s ≤ arg0 s → exec .packBits s = .next (failsWith s 4#4 0x10#8 0#24)) ∧
    (1 ≤ arg1 s → arg1 s ≤ 32 → arg0 s < 2 ^ arg1 s → 32768 < arg2 s + arg1 s →
      exec .packBits s = .next (failsWith s 4#4 0x21#8 (BitVec.ofNat 24 (min (arg2 s + arg1 s) 0xFFFFFF)))) ∧
    (s.ram.wf = true → 1 ≤ arg1 s → arg1 s ≤ 32 → arg0 s < 2 ^ arg1 s → arg2 s + arg1 s ≤ 32768 →
      ∃ ram, exec .packBits s = .next (succeedsWith s
          { s.res with r0 := s.args.a1, r1 := BitVec.ofNat 32 (arg2 s + arg1 s) } s.scores s.pens ram) ∧
        (∀ d, bitsNumber ram d (arg2 s) (arg1 s) = arg0 s) ∧ onlyBitsChange s.ram ram (arg2 s) (arg1 s))

/-- 42_pack.md R120: a packer that succeeds changes the values of no bits but BITBUF dst .. RES1-1, and RES1 = dst +
RES0. -/
def Obligations.PackersChangeOnlyTheirBits : Prop :=
  ∀ (i : Instr) (s t : State), i ∈ [Instr.packNum, .packAlnum, .packKanji, .packByte, .packBits] →
    s.ram.wf = true → exec i s = .next t → t.status.err = false →
    t.res.r1.toNat = arg2 s + t.res.r0.toNat ∧ t.res.r1.toNat ≤ 32768 ∧ onlyBitsChange s.ram t.ram (arg2 s) t.res.r0.toNat

/-- 42_pack.md R109: the range checks of the mode packers in their order, with the index each reports. -/
def Obligations.PackRangeChecksInOrder : Prop :=
  ∀ (i : Instr) (s : State) (nb : Nat),
    ((i = .packNum ∧ nb = 10 * (arg1 s / 3) + [0, 4, 7].getD (arg1 s % 3) 0) ∨
      (i = .packAlnum ∧ nb = 11 * (arg1 s / 2) + 6 * (arg1 s % 2)) ∨ (i = .packKanji ∧ nb = 13 * (arg1 s / 2)) ∨
      (i = .packByte ∧ nb = 8 * arg1 s)) →
    (8192 < arg0 s + arg1 s →
      exec i s = .next (failsWith s 4#4 0x20#8 (BitVec.ofNat 24 (min (arg0 s + arg1 s) 0xFFFFFF)))) ∧
    (arg0 s + arg1 s ≤ 8192 → i = .packKanji → arg1 s % 2 = 1 →
      exec i s = .next (failsWith s 1#4 0x23#8 (BitVec.ofNat 24 (arg1 s)))) ∧
    (arg0 s + arg1 s ≤ 8192 → (i = .packKanji → arg1 s % 2 = 0) → 32768 < arg2 s + nb →
      exec i s = .next (failsWith s 4#4 0x21#8 (BitVec.ofNat 24 (min (arg2 s + nb) 0xFFFFFF))))

/-- 42_pack.md R109, R111, R113, R116: once the ranges are good, the first invalid character is BAD_CHAR with its offset;
PACK_BYTE has none. -/
def Obligations.PackReportsFirstBadCharacter : Prop :=
  ∀ (s : State) (j : Nat), arg0 s + arg1 s ≤ 8192 →
    (j < arg1 s → arg2 s + numBits (arg1 s) ≤ 32768 →
      (∀ k, k < j → digitValue ((packInput s).getD k 0#8) ≠ none) → digitValue ((packInput s).getD j 0#8) = none →
      exec .packNum s = .next (failsWith s 1#4 0x22#8 (BitVec.ofNat 24 j))) ∧
    (j < arg1 s → arg2 s + alnumBits (arg1 s) ≤ 32768 →
      (∀ k, k < j → alnumValue ((packInput s).getD k 0#8) ≠ none) → alnumValue ((packInput s).getD j 0#8) = none →
      exec .packAlnum s = .next (failsWith s 1#4 0x22#8 (BitVec.ofNat 24 j))) ∧
    (arg1 s % 2 = 0 → j < arg1 s / 2 → arg2 s + kanjiBits (arg1 s) ≤ 32768 →
      (∀ k, k < j → kanjiValue (((packInput s).getD (2 * k) 0#8).toNat * 256 +
        ((packInput s).getD (2 * k + 1) 0#8).toNat) ≠ none) →
      kanjiValue (((packInput s).getD (2 * j) 0#8).toNat * 256 + ((packInput s).getD (2 * j + 1) 0#8).toNat) = none →
      exec .packKanji s = .next (failsWith s 1#4 0x22#8 (BitVec.ofNat 24 (2 * j)))) ∧
    (arg2 s + byteBits (arg1 s) ≤ 32768 → ∃ t, exec .packByte s = .next t ∧ t.status.err = false)

/-- 42_pack.md R111, R113, R115: the digits; the 45-symbol string, a character's value being its place in it; the two
Kanji ranges, whose values all fit 13 bits. -/
def Obligations.CharacterTables : Prop :=
  (∀ b v, digitValue b = some v ↔ v < 10 ∧ b.toNat = 0x30 + v) ∧
    (∀ b v, alnumValue b = some v ↔
      ("0123456789ABCDEFGHIJKLMNOPQRSTUVWXYZ $%*+-./:".toList.map Char.toNat)[v]? = some b.toNat) ∧
    (∀ c, c < 65536 → ((kanjiValue c).isSome = true ↔
      (0x8140 ≤ c ∧ c ≤ 0x9FFC) ∨ (0xE040 ≤ c ∧ c ≤ 0xEBBF))) ∧
    (∀ c v, kanjiValue c = some v → v < 8192) ∧ kanjiValue 0x8140 = some 0 ∧ kanjiValue 0x9FFC = some 5948 ∧
    kanjiValue 0xE040 = some 5952 ∧ kanjiValue 0xEBBF = some 8191

/-- 42_pack.md R110: a mode packer with len = 0 and ranges that pass writes no bit and sets RES0 = 0, RES1 = dst. -/
def Obligations.ZeroLengthPack : Prop :=
  ∀ (i : Instr) (s : State), i ∈ [Instr.packNum, .packAlnum, .packKanji, .packByte] → arg1 s = 0 →
    arg0 s ≤ 8192 → arg2 s ≤ 32768 →
    exec i s = .next (succeedsWith s { s.res with r0 := 0#32, r1 := s.args.a2 } s.scores s.pens s.ram)

/-! ## Masking -/

/-- 43_mask.md R122: the dimension of every version; the largest board fits BOARD. -/
def Obligations.BoardDimensions : Prop :=
  (∀ v, 1 ≤ v → v ≤ 40 → boardDim v false = 21 + 4 * (v - 1) ∧ boardDim v false * boardDim v false ≤ 32768) ∧
    ∀ v, 1 ≤ v → v ≤ 4 → boardDim v true = 11 + 2 * (v - 1) ∧ boardDim v true * boardDim v true ≤ 32768

/-- 43_mask.md R138 with R129: MASK_APPLY inverts the colour of every masked cell under the predicate, changes no other
byte, writes the mask ID to RES0, and nothing else. -/
def Obligations.MaskApplyInvertsCells : Prop :=
  ∀ s : State, s.ram.wf = true → configLegal s.bcfg → maskIdLegal s.bcfg.micro (arg0 s) → boardWellFormed s →
    ∃ ram, exec .maskApply s = .next (succeedsWith s { s.res with r0 := s.args.a0 } s.scores s.pens ram) ∧
      boardMasked s (arg0 s) ram

/-- 43_mask.md R129, R138: applying the same mask twice restores the board, and with it the whole RAM. -/
def Obligations.MaskApplyTwiceRestores : Prop :=
  ∀ s t u : State, s.ram.wf = true → boardKnown s → exec .maskApply s = .next t → t.status.err = false →
    exec .maskApply t = .next u → u.status.err = false ∧ u.ram = s.ram

/-- 43_mask.md R130, R131, 60_exceptions.md R152: the checks of the mask commands in their order. -/
def Obligations.MaskChecksInOrder : Prop :=
  ∀ (i : Instr) (s : State), i ∈ [Instr.maskApply, .maskScore, .maskSelect true false, .maskSelect false false,
      .maskSelect true true, .maskSelect false true] →
    (¬ configLegal s.bcfg →
      exec i s = .next (failsWith s 2#4 0x30#8 (BitVec.ofNat 24 ((readReg s .bcfg).toNat % 512)))) ∧
    (configLegal s.bcfg → i ∈ [Instr.maskApply, .maskSelect true true, .maskSelect false true] →
      (7 < arg0 s → exec i s = .next (failsWith s 4#4 0x10#8 0#24)) ∧
      (arg0 s ≤ 7 → ¬ maskIdLegal s.bcfg.micro (arg0 s) →
        exec i s = .next (failsWith s 2#4 0x31#8 (BitVec.ofNat 24 (arg0 s))))) ∧
    (configLegal s.bcfg →
      (i ∈ [Instr.maskApply, .maskSelect true true, .maskSelect false true] → maskIdLegal s.bcfg.micro (arg0 s)) →
      ∀ t, t < dimOf s * dimOf s → cellMalformed ((boardCells s).getD t 0#8) = true →
        (∀ k, k < t → cellMalformed ((boardCells s).getD k 0#8) = false) →
        exec i s = .next (failsWith s 4#4 0x32#8 (BitVec.ofNat 24 t)))

/-- 43_mask.md R132 to R135: the four penalties said cell by cell: maximal runs of 5 or more, uniform 2 x 2 blocks,
finder-like windows of every line, and the balance of the dark cells. -/
def Obligations.PenaltiesCellByCell : Prop :=
  ∀ (dim : Nat) (cells : List Byte), 1 ≤ dim → cells.length = dim * dim →
    penaltyN1 dim cells = sumUpTo (2 * dim) (fun k => sumUpTo dim (fun a => sumUpTo (dim + 1) (fun len =>
      if 5 ≤ len ∧ maximalRun dim (lineCell dim cells k) a len = true then 3 + (len - 5) else 0))) ∧
    penaltyN2 dim cells = 3 * sumUpTo (dim - 1) (fun r => sumUpTo (dim - 1) (fun c =>
      if uniformBlock dim cells r c = true then 1 else 0)) ∧
    penaltyN3 dim cells = 40 * sumUpTo (2 * dim) (fun k => sumUpTo dim (fun p =>
      (if windowIs dim (lineCell dim cells k) finderP1 p = true then 1 else 0) +
        (if windowIs dim (lineCell dim cells k) finderP2 p = true then 1 else 0))) ∧
    darkCount cells = sumUpTo dim (fun r => sumUpTo dim (fun c => if darkAt dim cells r c = true then 1 else 0)) ∧
    ∀ k, k = 20 * darkCount cells / (dim * dim) →
      penaltyN4 dim cells = if 10 ≤ k then 10 * (k - 10) else 10 * (9 - k)

/-- 43_mask.md R140: MASK_SCORE on a standard board writes PEN1..PEN4, the score and the dark count; on a Micro board the
score and the two edge sums, and no PEN; BOARD and everything else stays. -/
def Obligations.MaskScoreReportsPenalties : Prop :=
  ∀ s : State, configLegal s.bcfg → boardWellFormed s →
    (s.bcfg.micro = false → exec .maskScore s = .next (succeedsWith s
      { s.res with
        r0 := BitVec.ofNat 32 (penaltyN1 (dimOf s) (boardCells s) + penaltyN2 (dimOf s) (boardCells s) +
          penaltyN3 (dimOf s) (boardCells s) + penaltyN4 (dimOf s) (boardCells s))
        r1 := BitVec.ofNat 32 (darkCount (boardCells s)) }
      s.scores
      ⟨BitVec.ofNat 32 (penaltyN1 (dimOf s) (boardCells s)), BitVec.ofNat 32 (penaltyN2 (dimOf s) (boardCells s)),
        BitVec.ofNat 32 (penaltyN3 (dimOf s) (boardCells s)), BitVec.ofNat 32 (penaltyN4 (dimOf s) (boardCells s))⟩
      s.ram)) ∧
    (s.bcfg.micro = true → ∀ r b : Nat,
      r = sumUpTo (dimOf s) (fun k => if darkAt (dimOf s) (boardCells s) k (dimOf s - 1) = true then 1 else 0) →
      b = sumUpTo (dimOf s) (fun k => if darkAt (dimOf s) (boardCells s) (dimOf s - 1) k = true then 1 else 0) →
      exec .maskScore s = .next (succeedsWith s
        { s.res with
          r0 := BitVec.ofNat 32 (min r b * 16 + max r b)
          r1 := BitVec.ofNat 32 r
          r2 := BitVec.ofNat 32 b }
        s.scores s.pens s.ram))

/-- 43_mask.md R141 with R139, without FORCE: the winner is the first slot of the least score (standard) or the greatest
(Micro); SCORE holds every candidate's score, 0 beyond; BOARD takes the winner's mask with COMMIT, else stays. -/
def Obligations.MaskSelectFindsWinner : Prop :=
  ∀ (commit : Bool) (s : State) (n : Nat) (mask score : Nat → Nat), s.ram.wf = true → configLegal s.bcfg →
    boardWellFormed s → n = (if s.bcfg.micro then 4 else 8) →
    (∀ k, mask k = if s.bcfg.micro then [1, 4, 6, 7].getD k 0 else k) →
    (∀ k, score k = if k < n then scoreOf s.bcfg.micro (dimOf s) (applyMask (dimOf s) (mask k) (boardCells s)) else 0) →
    ∃ w ram, w < n ∧
      exec (.maskSelect commit false) s = .next (succeedsWith s
        { s.res with
          r0 := BitVec.ofNat 32 (mask w)
          r1 := BitVec.ofNat 32 (score w)
          r2 := BitVec.ofNat 32 w }
        ⟨BitVec.ofNat 32 (score 0), BitVec.ofNat 32 (score 1), BitVec.ofNat 32 (score 2), BitVec.ofNat 32 (score 3),
          BitVec.ofNat 32 (score 4), BitVec.ofNat 32 (score 5), BitVec.ofNat 32 (score 6), BitVec.ofNat 32 (score 7)⟩
        s.pens ram) ∧
      (s.bcfg.micro = false → ∀ k, k < n → score w ≤ score k ∧ (k < w → score w < score k)) ∧
      (s.bcfg.micro = true → ∀ k, k < n → score k ≤ score w ∧ (k < w → score k < score w)) ∧
      (commit = false → ram = s.ram) ∧ (commit = true → boardMasked s (mask w) ram)

/-- 43_mask.md R141 with FORCE: no scoring, RES1 = 0, RES2 the Micro mask index or the mask ID; BOARD takes the mask with
COMMIT, else stays; SCORE and PEN stay. -/
def Obligations.MaskSelectTakesForcedMask : Prop :=
  ∀ (commit : Bool) (s : State) (slot : Nat), s.ram.wf = true → configLegal s.bcfg →
    maskIdLegal s.bcfg.micro (arg0 s) → boardWellFormed s →
    (s.bcfg.micro = false → slot = arg0 s) → (s.bcfg.micro = true → slot < 4 ∧ [1, 4, 6, 7].getD slot 0 = arg0 s) →
    ∃ ram, exec (.maskSelect commit true) s = .next (succeedsWith s
        { s.res with r0 := s.args.a0, r1 := 0#32, r2 := BitVec.ofNat 32 slot } s.scores s.pens ram) ∧
      (commit = false → ram = s.ram) ∧ (commit = true → boardMasked s (arg0 s) ram)

/-- 43_mask.md R142: after MASK_SELECT.C, MASK_SCORE returns the winner's score. -/
def Obligations.RescoringReproducesWinner : Prop :=
  ∀ s t u : State, s.ram.wf = true → boardKnown s → exec (.maskSelect true false) s = .next t →
    t.status.err = false → exec .maskScore t = .next u → u.status.err = false ∧ u.res.r0 = t.res.r1

/-- 43_mask.md R142: MASK_SELECT.C followed by MASK_APPLY of RES0 restores the RAM, and MASK_SELECT.FC changes it exactly
as MASK_APPLY does. -/
def Obligations.SelectAndApplyAgree : Prop :=
  (∀ s t u : State, s.ram.wf = true → boardKnown s → exec (.maskSelect true false) s = .next t →
    t.status.err = false → exec .maskApply { t with args := { t.args with a0 := t.res.r0 } } = .next u →
    u.status.err = false ∧ u.ram = s.ram) ∧
  ∀ s t u : State, exec (.maskSelect true true) s = .next t → exec .maskApply s = .next u →
    t.ram = u.ram ∧ t.status.err = u.status.err ∧ t.errInfo = u.errInfo

/-- 43_mask.md R142: no mask command changes a TAG field or any cell of tag 0..6; a cell changes in its colour's bit 0
alone. -/
def Obligations.MasksKeepTagsAndFunctionCells : Prop :=
  ∀ (i : Instr) (s t : State) (k d : Nat), i ∈ [Instr.maskApply, .maskScore, .maskSelect true false,
      .maskSelect false false, .maskSelect true true, .maskSelect false true] →
    s.ram.wf = true → boardKnown s → exec i s = .next t → k < dimOf s * dimOf s →
    (readByte t.ram d (0x8000 + k)).toNat / 2 = (readByte s.ram d (0x8000 + k)).toNat / 2 ∧
      ((readByte s.ram d (0x8000 + k)).toNat / 4 % 16 ≤ 6 → byteKept s.ram t.ram (0x8000 + k))

/-- 44_control.md R143: NOP keeps every register and memory; it only completes. -/
def Obligations.NopOnlyCompletes : Prop :=
  encode .nop = 0x00000000#32 ∧
    ∀ s : State, exec .nop s = .next (succeedsWith s s.res s.scores s.pens s.ram)
end

