-- ==== Sys2Proof/Laws/State.lean ====
section
/-! SUPPORT. What each state update does to each field of State: one lemma a field and update, all by `rfl`, so that no
proof unfolds a record update. -/

namespace Sys2Proof.Machine

@[simp] theorem setRes0_ctrl (s : State) (w : Word) : (setRes0 s w).ctrl = s.ctrl := rfl
@[simp] theorem setRes0_status (s : State) (w : Word) : (setRes0 s w).status = s.status := rfl
@[simp] theorem setRes0_cmd (s : State) (w : Word) : (setRes0 s w).cmd = s.cmd := rfl
@[simp] theorem setRes0_args (s : State) (w : Word) : (setRes0 s w).args = s.args := rfl
@[simp] theorem setRes0_res (s : State) (w : Word) : (setRes0 s w).res = { s.res with r0 := w } := rfl
@[simp] theorem setRes0_errInfo (s : State) (w : Word) : (setRes0 s w).errInfo = s.errInfo := rfl
@[simp] theorem setRes0_bcfg (s : State) (w : Word) : (setRes0 s w).bcfg = s.bcfg := rfl
@[simp] theorem setRes0_scores (s : State) (w : Word) : (setRes0 s w).scores = s.scores := rfl
@[simp] theorem setRes0_pens (s : State) (w : Word) : (setRes0 s w).pens = s.pens := rfl
@[simp] theorem setRes0_ram (s : State) (w : Word) : (setRes0 s w).ram = s.ram := rfl
@[simp] theorem setRes0_host (s : State) (w : Word) : (setRes0 s w).host = s.host := rfl
@[simp] theorem setRes0_answer (s : State) (w : Word) : (setRes0 s w).answer = s.answer := rfl
@[simp] theorem setRes0_wait (s : State) (w : Word) : (setRes0 s w).wait = s.wait := rfl
@[simp] theorem setRes0_draws (s : State) (w : Word) : (setRes0 s w).draws = s.draws := rfl

@[simp] theorem setRes01_ctrl (s : State) (w0 w1 : Word) : (setRes01 s w0 w1).ctrl = s.ctrl := rfl
@[simp] theorem setRes01_status (s : State) (w0 w1 : Word) : (setRes01 s w0 w1).status = s.status := rfl
@[simp] theorem setRes01_cmd (s : State) (w0 w1 : Word) : (setRes01 s w0 w1).cmd = s.cmd := rfl
@[simp] theorem setRes01_args (s : State) (w0 w1 : Word) : (setRes01 s w0 w1).args = s.args := rfl
@[simp] theorem setRes01_res (s : State) (w0 w1 : Word) : (setRes01 s w0 w1).res = { s.res with r0 := w0, r1 := w1 } := rfl
@[simp] theorem setRes01_errInfo (s : State) (w0 w1 : Word) : (setRes01 s w0 w1).errInfo = s.errInfo := rfl
@[simp] theorem setRes01_bcfg (s : State) (w0 w1 : Word) : (setRes01 s w0 w1).bcfg = s.bcfg := rfl
@[simp] theorem setRes01_scores (s : State) (w0 w1 : Word) : (setRes01 s w0 w1).scores = s.scores := rfl
@[simp] theorem setRes01_pens (s : State) (w0 w1 : Word) : (setRes01 s w0 w1).pens = s.pens := rfl
@[simp] theorem setRes01_ram (s : State) (w0 w1 : Word) : (setRes01 s w0 w1).ram = s.ram := rfl
@[simp] theorem setRes01_host (s : State) (w0 w1 : Word) : (setRes01 s w0 w1).host = s.host := rfl
@[simp] theorem setRes01_answer (s : State) (w0 w1 : Word) : (setRes01 s w0 w1).answer = s.answer := rfl
@[simp] theorem setRes01_wait (s : State) (w0 w1 : Word) : (setRes01 s w0 w1).wait = s.wait := rfl
@[simp] theorem setRes01_draws (s : State) (w0 w1 : Word) : (setRes01 s w0 w1).draws = s.draws := rfl

@[simp] theorem setRes012_ctrl (s : State) (w0 w1 w2 : Word) : (setRes012 s w0 w1 w2).ctrl = s.ctrl := rfl
@[simp] theorem setRes012_status (s : State) (w0 w1 w2 : Word) : (setRes012 s w0 w1 w2).status = s.status := rfl
@[simp] theorem setRes012_cmd (s : State) (w0 w1 w2 : Word) : (setRes012 s w0 w1 w2).cmd = s.cmd := rfl
@[simp] theorem setRes012_args (s : State) (w0 w1 w2 : Word) : (setRes012 s w0 w1 w2).args = s.args := rfl
@[simp] theorem setRes012_res (s : State) (w0 w1 w2 : Word) : (setRes012 s w0 w1 w2).res = { s.res with r0 := w0, r1 := w1, r2 := w2 } := rfl
@[simp] theorem setRes012_errInfo (s : State) (w0 w1 w2 : Word) : (setRes012 s w0 w1 w2).errInfo = s.errInfo := rfl
@[simp] theorem setRes012_bcfg (s : State) (w0 w1 w2 : Word) : (setRes012 s w0 w1 w2).bcfg = s.bcfg := rfl
@[simp] theorem setRes012_scores (s : State) (w0 w1 w2 : Word) : (setRes012 s w0 w1 w2).scores = s.scores := rfl
@[simp] theorem setRes012_pens (s : State) (w0 w1 w2 : Word) : (setRes012 s w0 w1 w2).pens = s.pens := rfl
@[simp] theorem setRes012_ram (s : State) (w0 w1 w2 : Word) : (setRes012 s w0 w1 w2).ram = s.ram := rfl
@[simp] theorem setRes012_host (s : State) (w0 w1 w2 : Word) : (setRes012 s w0 w1 w2).host = s.host := rfl
@[simp] theorem setRes012_answer (s : State) (w0 w1 w2 : Word) : (setRes012 s w0 w1 w2).answer = s.answer := rfl
@[simp] theorem setRes012_wait (s : State) (w0 w1 w2 : Word) : (setRes012 s w0 w1 w2).wait = s.wait := rfl
@[simp] theorem setRes012_draws (s : State) (w0 w1 w2 : Word) : (setRes012 s w0 w1 w2).draws = s.draws := rfl

@[simp] theorem launch_ctrl (s : State) (w : Word) (n : Nat) : (launch s w n).ctrl = s.ctrl := rfl
@[simp] theorem launch_status (s : State) (w : Word) (n : Nat) : (launch s w n).status = s.status.launched := rfl
@[simp] theorem launch_cmd (s : State) (w : Word) (n : Nat) : (launch s w n).cmd = w := rfl
@[simp] theorem launch_args (s : State) (w : Word) (n : Nat) : (launch s w n).args = s.args := rfl
@[simp] theorem launch_res (s : State) (w : Word) (n : Nat) : (launch s w n).res = s.res := rfl
@[simp] theorem launch_errInfo (s : State) (w : Word) (n : Nat) : (launch s w n).errInfo = ⟨0, 0⟩ := rfl
@[simp] theorem launch_bcfg (s : State) (w : Word) (n : Nat) : (launch s w n).bcfg = s.bcfg := rfl
@[simp] theorem launch_scores (s : State) (w : Word) (n : Nat) : (launch s w n).scores = s.scores := rfl
@[simp] theorem launch_pens (s : State) (w : Word) (n : Nat) : (launch s w n).pens = s.pens := rfl
@[simp] theorem launch_ram (s : State) (w : Word) (n : Nat) : (launch s w n).ram = s.ram := rfl
@[simp] theorem launch_host (s : State) (w : Word) (n : Nat) : (launch s w n).host = s.host := rfl
@[simp] theorem launch_answer (s : State) (w : Word) (n : Nat) : (launch s w n).answer = s.answer := rfl
@[simp] theorem launch_wait (s : State) (w : Word) (n : Nat) : (launch s w n).wait = n := rfl
@[simp] theorem launch_draws (s : State) (w : Word) (n : Nat) : (launch s w n).draws = s.draws := rfl

@[simp] theorem completeError_ctrl (s : State) (e : CmdError) : (completeError s e).ctrl = s.ctrl := rfl
@[simp] theorem completeError_status (s : State) (e : CmdError) : (completeError s e).status = s.status.failed e.kind.code := rfl
@[simp] theorem completeError_cmd (s : State) (e : CmdError) : (completeError s e).cmd = s.cmd := rfl
@[simp] theorem completeError_args (s : State) (e : CmdError) : (completeError s e).args = s.args := rfl
@[simp] theorem completeError_res (s : State) (e : CmdError) : (completeError s e).res = s.res := rfl
@[simp] theorem completeError_errInfo (s : State) (e : CmdError) : (completeError s e).errInfo = ⟨e.sub.code, e.idx⟩ := rfl
@[simp] theorem completeError_bcfg (s : State) (e : CmdError) : (completeError s e).bcfg = s.bcfg := rfl
@[simp] theorem completeError_scores (s : State) (e : CmdError) : (completeError s e).scores = s.scores := rfl
@[simp] theorem completeError_pens (s : State) (e : CmdError) : (completeError s e).pens = s.pens := rfl
@[simp] theorem completeError_ram (s : State) (e : CmdError) : (completeError s e).ram = s.ram := rfl
@[simp] theorem completeError_host (s : State) (e : CmdError) : (completeError s e).host = s.host := rfl
@[simp] theorem completeError_answer (s : State) (e : CmdError) : (completeError s e).answer = s.answer := rfl
@[simp] theorem completeError_wait (s : State) (e : CmdError) : (completeError s e).wait = 0 := rfl
@[simp] theorem completeError_draws (s : State) (e : CmdError) : (completeError s e).draws = s.draws + 1 := rfl

@[simp] theorem completeOk_ctrl (s : State) : (completeOk s).ctrl = s.ctrl := rfl
@[simp] theorem completeOk_status (s : State) : (completeOk s).status = s.status.succeeded := rfl
@[simp] theorem completeOk_cmd (s : State) : (completeOk s).cmd = s.cmd := rfl
@[simp] theorem completeOk_args (s : State) : (completeOk s).args = s.args := rfl
@[simp] theorem completeOk_res (s : State) : (completeOk s).res = s.res := rfl
@[simp] theorem completeOk_errInfo (s : State) : (completeOk s).errInfo = ⟨0, 0⟩ := rfl
@[simp] theorem completeOk_bcfg (s : State) : (completeOk s).bcfg = s.bcfg := rfl
@[simp] theorem completeOk_scores (s : State) : (completeOk s).scores = s.scores := rfl
@[simp] theorem completeOk_pens (s : State) : (completeOk s).pens = s.pens := rfl
@[simp] theorem completeOk_ram (s : State) : (completeOk s).ram = s.ram := rfl
@[simp] theorem completeOk_host (s : State) : (completeOk s).host = s.host := rfl
@[simp] theorem completeOk_answer (s : State) : (completeOk s).answer = s.answer := rfl
@[simp] theorem completeOk_wait (s : State) : (completeOk s).wait = 0 := rfl
@[simp] theorem completeOk_draws (s : State) : (completeOk s).draws = s.draws + 1 := rfl

@[simp] theorem acknowledge_ctrl (s : State) (w : Word) : (acknowledge s w).ctrl = s.ctrl := rfl
@[simp] theorem acknowledge_status (s : State) (w : Word) : (acknowledge s w).status = s.status.writeOneToClear w := rfl
@[simp] theorem acknowledge_cmd (s : State) (w : Word) : (acknowledge s w).cmd = s.cmd := rfl
@[simp] theorem acknowledge_args (s : State) (w : Word) : (acknowledge s w).args = s.args := rfl
@[simp] theorem acknowledge_res (s : State) (w : Word) : (acknowledge s w).res = s.res := rfl
@[simp] theorem acknowledge_errInfo (s : State) (w : Word) : (acknowledge s w).errInfo = s.errInfo := rfl
@[simp] theorem acknowledge_bcfg (s : State) (w : Word) : (acknowledge s w).bcfg = s.bcfg := rfl
@[simp] theorem acknowledge_scores (s : State) (w : Word) : (acknowledge s w).scores = s.scores := rfl
@[simp] theorem acknowledge_pens (s : State) (w : Word) : (acknowledge s w).pens = s.pens := rfl
@[simp] theorem acknowledge_ram (s : State) (w : Word) : (acknowledge s w).ram = s.ram := rfl
@[simp] theorem acknowledge_host (s : State) (w : Word) : (acknowledge s w).host = s.host := rfl
@[simp] theorem acknowledge_answer (s : State) (w : Word) : (acknowledge s w).answer = s.answer := rfl
@[simp] theorem acknowledge_wait (s : State) (w : Word) : (acknowledge s w).wait = s.wait := rfl
@[simp] theorem acknowledge_draws (s : State) (w : Word) : (acknowledge s w).draws = s.draws := rfl

@[simp] theorem dropWrite_ctrl (s : State) : (dropWrite s).ctrl = s.ctrl := rfl
@[simp] theorem dropWrite_status (s : State) : (dropWrite s).status = s.status.overrun := rfl
@[simp] theorem dropWrite_cmd (s : State) : (dropWrite s).cmd = s.cmd := rfl
@[simp] theorem dropWrite_args (s : State) : (dropWrite s).args = s.args := rfl
@[simp] theorem dropWrite_res (s : State) : (dropWrite s).res = s.res := rfl
@[simp] theorem dropWrite_errInfo (s : State) : (dropWrite s).errInfo = s.errInfo := rfl
@[simp] theorem dropWrite_bcfg (s : State) : (dropWrite s).bcfg = s.bcfg := rfl
@[simp] theorem dropWrite_scores (s : State) : (dropWrite s).scores = s.scores := rfl
@[simp] theorem dropWrite_pens (s : State) : (dropWrite s).pens = s.pens := rfl
@[simp] theorem dropWrite_ram (s : State) : (dropWrite s).ram = s.ram := rfl
@[simp] theorem dropWrite_host (s : State) : (dropWrite s).host = s.host := rfl
@[simp] theorem dropWrite_answer (s : State) : (dropWrite s).answer = s.answer := rfl
@[simp] theorem dropWrite_wait (s : State) : (dropWrite s).wait = s.wait := rfl
@[simp] theorem dropWrite_draws (s : State) : (dropWrite s).draws = s.draws := rfl

@[simp] theorem putResult_ctrl (s : State) (r : List Byte) (n : Nat) : (putResult s r n).ctrl = s.ctrl := rfl
@[simp] theorem putResult_status (s : State) (r : List Byte) (n : Nat) : (putResult s r n).status = s.status := rfl
@[simp] theorem putResult_cmd (s : State) (r : List Byte) (n : Nat) : (putResult s r n).cmd = s.cmd := rfl
@[simp] theorem putResult_args (s : State) (r : List Byte) (n : Nat) : (putResult s r n).args = s.args := rfl
@[simp] theorem putResult_res (s : State) (r : List Byte) (n : Nat) : (putResult s r n).res = { s.res with r0 := toWord n } := rfl
@[simp] theorem putResult_errInfo (s : State) (r : List Byte) (n : Nat) : (putResult s r n).errInfo = s.errInfo := rfl
@[simp] theorem putResult_bcfg (s : State) (r : List Byte) (n : Nat) : (putResult s r n).bcfg = s.bcfg := rfl
@[simp] theorem putResult_scores (s : State) (r : List Byte) (n : Nat) : (putResult s r n).scores = s.scores := rfl
@[simp] theorem putResult_pens (s : State) (r : List Byte) (n : Nat) : (putResult s r n).pens = s.pens := rfl
@[simp] theorem putResult_ram (s : State) (r : List Byte) (n : Nat) : (putResult s r n).ram = writeBytes s.ram Window.memR.base r := rfl
@[simp] theorem putResult_host (s : State) (r : List Byte) (n : Nat) : (putResult s r n).host = s.host := rfl
@[simp] theorem putResult_answer (s : State) (r : List Byte) (n : Nat) : (putResult s r n).answer = s.answer := rfl
@[simp] theorem putResult_wait (s : State) (r : List Byte) (n : Nat) : (putResult s r n).wait = s.wait := rfl
@[simp] theorem putResult_draws (s : State) (r : List Byte) (n : Nat) : (putResult s r n).draws = s.draws := rfl

@[simp] theorem putBoard_ctrl (s : State) (cells : List Byte) : (putBoard s cells).ctrl = s.ctrl := rfl
@[simp] theorem putBoard_status (s : State) (cells : List Byte) : (putBoard s cells).status = s.status := rfl
@[simp] theorem putBoard_cmd (s : State) (cells : List Byte) : (putBoard s cells).cmd = s.cmd := rfl
@[simp] theorem putBoard_args (s : State) (cells : List Byte) : (putBoard s cells).args = s.args := rfl
@[simp] theorem putBoard_res (s : State) (cells : List Byte) : (putBoard s cells).res = s.res := rfl
@[simp] theorem putBoard_errInfo (s : State) (cells : List Byte) : (putBoard s cells).errInfo = s.errInfo := rfl
@[simp] theorem putBoard_bcfg (s : State) (cells : List Byte) : (putBoard s cells).bcfg = s.bcfg := rfl
@[simp] theorem putBoard_scores (s : State) (cells : List Byte) : (putBoard s cells).scores = s.scores := rfl
@[simp] theorem putBoard_pens (s : State) (cells : List Byte) : (putBoard s cells).pens = s.pens := rfl
@[simp] theorem putBoard_ram (s : State) (cells : List Byte) : (putBoard s cells).ram = writeBytes s.ram Window.board.base cells := rfl
@[simp] theorem putBoard_host (s : State) (cells : List Byte) : (putBoard s cells).host = s.host := rfl
@[simp] theorem putBoard_answer (s : State) (cells : List Byte) : (putBoard s cells).answer = s.answer := rfl
@[simp] theorem putBoard_wait (s : State) (cells : List Byte) : (putBoard s cells).wait = s.wait := rfl
@[simp] theorem putBoard_draws (s : State) (cells : List Byte) : (putBoard s cells).draws = s.draws := rfl

@[simp] theorem powerOn_ctrl (s : State) : (powerOn s).ctrl = State.reset.ctrl := rfl
@[simp] theorem powerOn_status (s : State) : (powerOn s).status = State.reset.status := rfl
@[simp] theorem powerOn_cmd (s : State) : (powerOn s).cmd = State.reset.cmd := rfl
@[simp] theorem powerOn_args (s : State) : (powerOn s).args = State.reset.args := rfl
@[simp] theorem powerOn_res (s : State) : (powerOn s).res = State.reset.res := rfl
@[simp] theorem powerOn_errInfo (s : State) : (powerOn s).errInfo = State.reset.errInfo := rfl
@[simp] theorem powerOn_bcfg (s : State) : (powerOn s).bcfg = State.reset.bcfg := rfl
@[simp] theorem powerOn_scores (s : State) : (powerOn s).scores = State.reset.scores := rfl
@[simp] theorem powerOn_pens (s : State) : (powerOn s).pens = State.reset.pens := rfl
@[simp] theorem powerOn_ram (s : State) : (powerOn s).ram = State.reset.ram := rfl
@[simp] theorem powerOn_host (s : State) : (powerOn s).host = s.host := rfl
@[simp] theorem powerOn_answer (s : State) : (powerOn s).answer = State.reset.answer := rfl
@[simp] theorem powerOn_wait (s : State) : (powerOn s).wait = State.reset.wait := rfl
@[simp] theorem powerOn_draws (s : State) : (powerOn s).draws = s.draws := rfl

@[simp] theorem softReset_ctrl (s : State) : (softReset s).ctrl = State.reset.ctrl := rfl
@[simp] theorem softReset_status (s : State) : (softReset s).status = State.reset.status := rfl
@[simp] theorem softReset_cmd (s : State) : (softReset s).cmd = State.reset.cmd := rfl
@[simp] theorem softReset_args (s : State) : (softReset s).args = State.reset.args := rfl
@[simp] theorem softReset_res (s : State) : (softReset s).res = State.reset.res := rfl
@[simp] theorem softReset_errInfo (s : State) : (softReset s).errInfo = State.reset.errInfo := rfl
@[simp] theorem softReset_bcfg (s : State) : (softReset s).bcfg = State.reset.bcfg := rfl
@[simp] theorem softReset_scores (s : State) : (softReset s).scores = State.reset.scores := rfl
@[simp] theorem softReset_pens (s : State) : (softReset s).pens = State.reset.pens := rfl
@[simp] theorem softReset_ram (s : State) : (softReset s).ram = abortedRam s := rfl
@[simp] theorem softReset_host (s : State) : (softReset s).host = s.host := rfl
@[simp] theorem softReset_answer (s : State) : (softReset s).answer = s.answer := rfl
@[simp] theorem softReset_wait (s : State) : (softReset s).wait = State.reset.wait := rfl
@[simp] theorem softReset_draws (s : State) : (softReset s).draws = s.draws := rfl

@[simp] theorem Status.launched_busy (st : Status) : (st.launched).busy = true := rfl
@[simp] theorem Status.launched_done (st : Status) : (st.launched).done = false := rfl
@[simp] theorem Status.launched_err (st : Status) : (st.launched).err = false := rfl
@[simp] theorem Status.launched_ovr (st : Status) : (st.launched).ovr = st.ovr := rfl
@[simp] theorem Status.launched_ecode (st : Status) : (st.launched).ecode = 0 := rfl

@[simp] theorem Status.succeeded_busy (st : Status) : (st.succeeded).busy = false := rfl
@[simp] theorem Status.succeeded_done (st : Status) : (st.succeeded).done = true := rfl
@[simp] theorem Status.succeeded_err (st : Status) : (st.succeeded).err = false := rfl
@[simp] theorem Status.succeeded_ovr (st : Status) : (st.succeeded).ovr = st.ovr := rfl
@[simp] theorem Status.succeeded_ecode (st : Status) : (st.succeeded).ecode = 0 := rfl

@[simp] theorem Status.failed_busy (st : Status) (c : BitVec 4) : (st.failed c).busy = false := rfl
@[simp] theorem Status.failed_done (st : Status) (c : BitVec 4) : (st.failed c).done = true := rfl
@[simp] theorem Status.failed_err (st : Status) (c : BitVec 4) : (st.failed c).err = true := rfl
@[simp] theorem Status.failed_ovr (st : Status) (c : BitVec 4) : (st.failed c).ovr = st.ovr := rfl
@[simp] theorem Status.failed_ecode (st : Status) (c : BitVec 4) : (st.failed c).ecode = c := rfl

@[simp] theorem Status.overrun_busy (st : Status) : (st.overrun).busy = st.busy := rfl
@[simp] theorem Status.overrun_done (st : Status) : (st.overrun).done = st.done := rfl
@[simp] theorem Status.overrun_err (st : Status) : (st.overrun).err = st.err := rfl
@[simp] theorem Status.overrun_ovr (st : Status) : (st.overrun).ovr = true := rfl
@[simp] theorem Status.overrun_ecode (st : Status) : (st.overrun).ecode = st.ecode := rfl

@[simp] theorem Status.writeOneToClear_busy (st : Status) (w : Word) : ((st.writeOneToClear w)).busy = st.busy := rfl
@[simp] theorem Status.writeOneToClear_done (st : Status) (w : Word) : ((st.writeOneToClear w)).done = (st.done && !w.getLsbD 1) := rfl
@[simp] theorem Status.writeOneToClear_err (st : Status) (w : Word) : ((st.writeOneToClear w)).err = (st.err && !w.getLsbD 2) := rfl
@[simp] theorem Status.writeOneToClear_ovr (st : Status) (w : Word) : ((st.writeOneToClear w)).ovr = (st.ovr && !w.getLsbD 3) := rfl
@[simp] theorem Status.writeOneToClear_ecode (st : Status) (w : Word) : ((st.writeOneToClear w)).ecode = if w.getLsbD 2 then 0 else st.ecode := rfl

@[simp] theorem complete_error (s : State) (e : CmdError) : complete s (.error e) = completeError s e := rfl
@[simp] theorem complete_ok (s t : State) : complete s (.ok t) = completeOk t := rfl

@[simp] theorem argRange_sub (n : Nat) : (argRange n).sub = .argRange := rfl
@[simp] theorem argRange_kind (n : Nat) : (argRange n).kind = .internalError := rfl
@[simp] theorem raise_sub (sub : Subcode) (idx : BitVec 24) : (raise sub idx).sub = sub := rfl
@[simp] theorem raise_kind (sub : Subcode) (idx : BitVec 24) : (raise sub idx).kind = sub.kind := rfl
@[simp] theorem raise_idx (sub : Subcode) (idx : BitVec 24) : (raise sub idx).idx = idx := rfl

end Sys2Proof.Machine
end

