-- ==== Sys2Proof/Laws/Memory.lean ====
section
/-! SUPPORT. Where the memories lie, and the laws of the RAM planes and of the memory operations over them: read after
write, what an operation leaves alone, that every operation keeps the canonical form, and that a canonical plane is fixed
by what it reads as. -/

namespace Sys2Proof.Machine

/-! ## Where the memories lie -/

theorem windowAt_none_iff {a : Nat} (h : a < 65536) :
    windowAt a = none ↔ a < 0x1000 ∨ (0x1500 ≤ a ∧ a < 0x2000) ∨ (0x5000 ≤ a ∧ a < 0x8000) := by
  unfold windowAt
  repeat' split
  all_goals (simp; try omega)

theorem windowAt_isRam {a : Nat} {w : Window} (h : windowAt a = some w) : w.isRam = true ↔ 0x1200 ≤ a := by
  unfold windowAt at h
  repeat' split at h
  all_goals (cases h; try (simp [Window.isRam]; try omega))

theorem isRam_iff (a : Nat) : isRam a = true ↔
    (0x1200 ≤ a ∧ a < 0x1500) ∨ (0x2000 ≤ a ∧ a < 0x5000) ∨ (0x8000 ≤ a ∧ a < 0x10000) := by
  unfold isRam
  by_cases h : a < 65536
  · cases hw : windowAt a with
    | none =>
      have := (windowAt_none_iff h).1 hw
      simp only [Bool.false_eq_true, false_iff]
      omega
    | some w =>
      have h1 : ¬ (a < 0x1000 ∨ (0x1500 ≤ a ∧ a < 0x2000) ∨ (0x5000 ≤ a ∧ a < 0x8000)) := by
        rw [← windowAt_none_iff h, hw]; simp
      dsimp only
      rw [windowAt_isRam hw]
      omega
  · have : windowAt a = none := by
      unfold windowAt
      repeat' split
      all_goals first | omega | rfl
    rw [this]
    simp only [Bool.false_eq_true, false_iff]
    omega

/-! ## One plane -/

theorem planeGet_below : ∀ (p : List Host.Cell) (lo a : Nat), planeWfFrom lo p = true → a < lo → planeGet p a = 0#8
  | [], _, _, _, _ => rfl
  | (k, c) :: rest, lo, a, h, ha => by
    simp only [planeWfFrom, Bool.and_eq_true, decide_eq_true_eq] at h
    have hk : ¬ k = a := by omega
    have hlt : a < k := by omega
    simp [planeGet, hk, hlt]

theorem planeWfFrom_mono : ∀ (p : List Host.Cell) (lo lo' : Nat), lo' ≤ lo → planeWfFrom lo p = true →
    planeWfFrom lo' p = true
  | [], _, _, _, _ => rfl
  | (k, c) :: rest, lo, lo', hl, h => by
    simp only [planeWfFrom, Bool.and_eq_true, decide_eq_true_eq] at h ⊢
    exact ⟨⟨⟨by omega, h.1.1.2⟩, h.1.2⟩, h.2⟩

/-- Read after write in a canonical plane: the address written reads the byte written, every other as before. -/
theorem planeGet_planeSet : ∀ (p : List Host.Cell) (lo a : Nat) (b : Byte) (x : Nat), planeWfFrom lo p = true →
    planeGet (planeSet a b p) x = if x = a then b else planeGet p x
  | [], _, a, b, x, _ => by
    by_cases hb : b = 0#8 <;> by_cases hx : x = a <;> simp [planeSet, planeGet, hb, hx]
    intro h; exact absurd h.symm hx
  | (k, c) :: rest, lo, a, b, x, h => by
    have hw := h
    simp only [planeWfFrom, Bool.and_eq_true, decide_eq_true_eq] at h
    have hrest := h.2
    unfold planeSet
    by_cases h1 : a < k
    · by_cases hb : b = 0#8
      · by_cases hx : x = a
        · subst hx; simp [h1, hb, planeGet]; omega
        · simp [h1, hb, hx]
      · by_cases hx : x = a
        · subst hx; simp [h1, hb, planeGet]
        · have hx' : ¬ a = x := fun e => hx e.symm
          by_cases hxa : x < a
          · have : ¬ k = x := by omega
            have hxk : x < k := by omega
            simp [h1, hb, hx, hx', planeGet, hxa, this, hxk]
          · simp [h1, hb, hx, hx', planeGet, hxa]
    · by_cases h2 : k = a
      · subst h2
        by_cases hb : b = 0#8
        · by_cases hx : x = k
          · subst hx; simpa [hb] using planeGet_below rest _ _ hrest (Nat.lt_succ_self _)
          · have hx' : ¬ k = x := fun e => hx e.symm
            by_cases hxk : x < k
            · simp [hb, hx, hx', planeGet, hxk]
              exact planeGet_below rest _ _ hrest (by omega)
            · simp [hb, hx, hx', planeGet, hxk]
        · by_cases hx : x = k
          · subst hx; simp [hb, planeGet]
          · have hx' : ¬ k = x := fun e => hx e.symm
            simp [hb, hx, hx', planeGet]
      · have ih := planeGet_planeSet rest (k + 1) a b x hrest
        rw [if_neg h1, if_neg h2]
        by_cases hx : x = a
        · subst hx
          simp [h1, h2, planeGet, ih]
        · simp only [planeGet, ih, if_neg hx]

theorem planeWfFrom_planeSet : ∀ (p : List Host.Cell) (lo a : Nat) (b : Byte), planeWfFrom lo p = true → lo ≤ a →
    isRam a = true → planeWfFrom lo (planeSet a b p) = true
  | [], lo, a, b, _, hl, hr => by
    by_cases hb : b = 0#8 <;> simp [planeSet, planeWfFrom, hb, hl, hr]
  | (k, c) :: rest, lo, a, b, h, hl, hr => by
    have hw := h
    simp only [planeWfFrom, Bool.and_eq_true, decide_eq_true_eq] at h
    obtain ⟨⟨⟨h1, h2⟩, h3⟩, h4⟩ := h
    unfold planeSet
    by_cases ha : a < k
    · by_cases hb : b = 0#8
      · simpa [ha, hb] using hw
      · simp only [ha, hb, if_true, if_false, planeWfFrom, Bool.and_eq_true, decide_eq_true_eq]
        exact ⟨⟨⟨hl, hr⟩, hb⟩, ⟨⟨by omega, h2⟩, h3⟩, h4⟩
    · by_cases hk : k = a
      · subst hk
        by_cases hb : b = 0#8
        · simpa [hb] using planeWfFrom_mono rest (k + 1) lo (by omega) h4
        · simp only [hb, if_false, if_true, planeWfFrom, Bool.and_eq_true, decide_eq_true_eq, lt_irrefl]
          exact ⟨⟨⟨hl, hr⟩, hb⟩, h4⟩
      · simp only [ha, hk, if_false, planeWfFrom, Bool.and_eq_true, decide_eq_true_eq]
        exact ⟨⟨⟨h1, h2⟩, h3⟩, planeWfFrom_planeSet rest (k + 1) a b h4 (by omega) hr⟩

/-- A canonical plane is fixed by what it reads as. -/
theorem plane_ext : ∀ (p q : List Host.Cell) (lo : Nat), planeWfFrom lo p = true → planeWfFrom lo q = true →
    (∀ a, planeGet p a = planeGet q a) → p = q
  | [], [], _, _, _, _ => rfl
  | [], (k, c) :: rest, lo, _, hq, h => by
    simp only [planeWfFrom, Bool.and_eq_true, decide_eq_true_eq] at hq
    have := h k
    simp [planeGet] at this
    exact absurd this.symm hq.1.2
  | (k, c) :: rest, [], lo, hp, _, h => by
    simp only [planeWfFrom, Bool.and_eq_true, decide_eq_true_eq] at hp
    have := h k
    simp [planeGet] at this
    exact absurd this hp.1.2
  | (k, c) :: p, (k', c') :: q, lo, hp, hq, h => by
    simp only [planeWfFrom, Bool.and_eq_true, decide_eq_true_eq] at hp hq
    have hkk : k = k' := by
      rcases Nat.lt_trichotomy k k' with hlt | he | hgt
      · have := h k
        have hne : ¬ k' = k := by omega
        simp [planeGet, hne, hlt] at this
        exact absurd this hp.1.2
      · exact he
      · have := h k'
        have hne : ¬ k = k' := by omega
        simp [planeGet, hne, hgt] at this
        exact absurd this.symm hq.1.2
    subst hkk
    have hc : c = c' := by simpa [planeGet] using h k
    subst hc
    have htail : ∀ a, planeGet p a = planeGet q a := by
      intro a
      by_cases ha : a < k + 1
      · rw [planeGet_below p _ _ hp.2 ha, planeGet_below q _ _ hq.2 ha]
      · have := h a
        have h1 : ¬ k = a := by omega
        have h2 : ¬ a < k := by omega
        simpa [planeGet, h1, h2] using this
    rw [plane_ext p q (k + 1) hp.2 hq.2 htail]

/-! ## The canonical form of the RAMs -/

/-- In the canonical form a bit without a value reads 0 in the value plane. -/
theorem val_subset_known {m : Memory} (h : m.wf = true) (a : Nat) : planeGet m.val a &&& ~~~ planeGet m.known a = 0#8 := by
  simp only [Memory.wf, Bool.and_eq_true, List.all_eq_true, beq_iff_eq] at h
  have key : ∀ (p : List Host.Cell), (∀ c ∈ p, c.2 &&& ~~~ planeGet m.known c.1 = 0#8) →
      planeGet p a &&& ~~~ planeGet m.known a = 0#8 := by
    intro p
    induction p with
    | nil => intro _; simp [planeGet]
    | cons c rest ih =>
      intro hp
      obtain ⟨k, b⟩ := c
      by_cases hk : k = a
      · subst hk; simpa [planeGet] using hp (k, b) (by simp)
      · by_cases hlt : a < k
        · simp [planeGet, hk, hlt]
        · simpa [planeGet, hk, hlt] using ih (fun c hc => hp c (by simp [hc]))
  exact key m.val h.2

theorem planeGet_of_mem : ∀ (p : List Host.Cell) (lo : Nat) (k : Nat) (b : Byte), planeWfFrom lo p = true →
    (k, b) ∈ p → planeGet p k = b ∧ lo ≤ k
  | (k', c) :: rest, lo, k, b, h, hm => by
    simp only [planeWfFrom, Bool.and_eq_true, decide_eq_true_eq] at h
    rcases List.mem_cons.mp hm with he | hr
    · cases he; exact ⟨by simp [planeGet], h.1.1.1⟩
    · obtain ⟨h1, h2⟩ := planeGet_of_mem rest (k' + 1) k b h.2 hr
      have hne : ¬ k' = k := by omega
      have hlt : ¬ k < k' := by omega
      exact ⟨by simpa [planeGet, hne, hlt] using h1, by have := h.1.1.1; omega⟩

/-- The canonical form, said by what the planes read as. -/
theorem wf_iff (m : Memory) : m.wf = true ↔ planeWfFrom 0 m.val = true ∧ planeWfFrom 0 m.known = true ∧
    ∀ a, planeGet m.val a &&& ~~~ planeGet m.known a = 0#8 := by
  constructor
  · intro h
    have hs := val_subset_known h
    simp only [Memory.wf, Bool.and_eq_true] at h
    exact ⟨h.1.1, h.1.2, hs⟩
  · rintro ⟨h1, h2, h3⟩
    simp only [Memory.wf, Bool.and_eq_true, List.all_eq_true, beq_iff_eq]
    refine ⟨⟨h1, h2⟩, ?_⟩
    rintro ⟨k, b⟩ hm
    have := (planeGet_of_mem m.val 0 k b h1 hm).1
    simpa [this] using h3 k

@[simp] theorem wf_unwritten : Memory.unwritten.wf = true := rfl

theorem known_planeWf {m : Memory} (h : m.wf = true) : planeWfFrom 0 m.known = true := ((wf_iff m).1 h).2.1

theorem val_planeWf {m : Memory} (h : m.wf = true) : planeWfFrom 0 m.val = true := ((wf_iff m).1 h).1

/-! ## putBits and forgetBits: everything they can do -/

theorem putBits_known {m : Memory} (h : m.wf = true) (a : Nat) (mask b : Byte) (x : Nat) :
    planeGet (putBits m a mask b).known x =
      if isRam a = true ∧ x = a then planeGet m.known a ||| mask else planeGet m.known x := by
  unfold putBits
  by_cases hr : isRam a = true
  · simp [hr, planeGet_planeSet _ 0 _ _ _ (known_planeWf h)]
  · simp [hr]

theorem putBits_val {m : Memory} (h : m.wf = true) (a : Nat) (mask b : Byte) (x : Nat) :
    planeGet (putBits m a mask b).val x =
      if isRam a = true ∧ x = a then (planeGet m.val a &&& ~~~ mask) ||| (b &&& mask) else planeGet m.val x := by
  unfold putBits
  by_cases hr : isRam a = true
  · simp [hr, planeGet_planeSet _ 0 _ _ _ (val_planeWf h)]
  · simp [hr]

theorem forgetBits_known {m : Memory} (h : m.wf = true) (a : Nat) (mask : Byte) (x : Nat) :
    planeGet (forgetBits m a mask).known x =
      if isRam a = true ∧ x = a then planeGet m.known a &&& ~~~ mask else planeGet m.known x := by
  unfold forgetBits
  by_cases hr : isRam a = true
  · simp [hr, planeGet_planeSet _ 0 _ _ _ (known_planeWf h)]
  · simp [hr]

theorem forgetBits_val {m : Memory} (h : m.wf = true) (a : Nat) (mask : Byte) (x : Nat) :
    planeGet (forgetBits m a mask).val x =
      if isRam a = true ∧ x = a then planeGet m.val a &&& ~~~ mask else planeGet m.val x := by
  unfold forgetBits
  by_cases hr : isRam a = true
  · simp [hr, planeGet_planeSet _ 0 _ _ _ (val_planeWf h)]
  · simp [hr]

theorem byte_eq_of_bits {x y : Byte} (h : ∀ i, i < 8 → x.getLsbD i = y.getLsbD i) : x = y :=
  BitVec.eq_of_getLsbD_eq h

theorem wf_putBits {m : Memory} (h : m.wf = true) (a : Nat) (mask b : Byte) : (putBits m a mask b).wf = true := by
  by_cases hr : isRam a = true
  · rw [wf_iff]
    refine ⟨?_, ?_, ?_⟩
    · simp only [putBits, hr, if_true]
      exact planeWfFrom_planeSet _ 0 a _ (val_planeWf h) (Nat.zero_le a) hr
    · simp only [putBits, hr, if_true]
      exact planeWfFrom_planeSet _ 0 a _ (known_planeWf h) (Nat.zero_le a) hr
    · intro x
      rw [putBits_known h, putBits_val h]
      by_cases hx : x = a
      · have hv := val_subset_known h a
        simp only [hr, hx, and_self, if_true]
        apply byte_eq_of_bits
        intro i hi
        have hvi := congrArg (fun z => z.getLsbD i) hv
        simp [hi] at hvi ⊢
        cases hm : mask.getLsbD i <;> simp_all
      · simpa [hx] using val_subset_known h x
  · simpa [putBits, hr] using h

theorem wf_forgetBits {m : Memory} (h : m.wf = true) (a : Nat) (mask : Byte) : (forgetBits m a mask).wf = true := by
  by_cases hr : isRam a = true
  · rw [wf_iff]
    refine ⟨?_, ?_, ?_⟩
    · simp only [forgetBits, hr, if_true]
      exact planeWfFrom_planeSet _ 0 a _ (val_planeWf h) (Nat.zero_le a) hr
    · simp only [forgetBits, hr, if_true]
      exact planeWfFrom_planeSet _ 0 a _ (known_planeWf h) (Nat.zero_le a) hr
    · intro x
      rw [forgetBits_known h, forgetBits_val h]
      by_cases hx : x = a
      · have hv := val_subset_known h a
        simp only [hr, hx, and_self, if_true]
        apply byte_eq_of_bits
        intro i hi
        have hvi := congrArg (fun z => z.getLsbD i) hv
        simp [hi] at hvi ⊢
        cases hm : mask.getLsbD i <;> simp_all
      · simpa [hx] using val_subset_known h x
  · simpa [forgetBits, hr] using h

/-! ## The operations built from them keep the canonical form -/

theorem wf_writeByte {m : Memory} (h : m.wf = true) (a : Nat) (b : Byte) : (writeByte m a b).wf = true :=
  wf_putBits h a 0xFF b

theorem wf_writeBytes : ∀ (bs : List Byte) {m : Memory} (_ : m.wf = true) (a : Nat), (writeBytes m a bs).wf = true
  | [], _, h, _ => h
  | b :: bs, _, h, a => wf_writeBytes bs (wf_writeByte h a b) (a + 1)

theorem wf_forgetBytes : ∀ (n : Nat) {m : Memory} (_ : m.wf = true) (a : Nat), (forgetBytes m a n).wf = true
  | 0, _, h, _ => h
  | n + 1, _, h, a => wf_forgetBytes n (wf_forgetBits h a 0xFF) (a + 1)

theorem wf_putBit {m : Memory} (h : m.wf = true) (p : Nat) (b : Bool) : (putBit m p b).wf = true := by
  unfold putBit
  split
  · exact wf_putBits h _ _ _
  · exact h

theorem wf_bitWrite : ∀ (w : Nat) {m : Memory} (_ : m.wf = true) (p v : Nat), (bitWrite m p w v).wf = true
  | 0, _, h, _, _ => h
  | w + 1, _, h, p, v => wf_bitWrite w (wf_putBit h p _) (p + 1) v

theorem wf_writeFields : ∀ (fs : List Field) {m : Memory} (_ : m.wf = true) (p : Nat), (writeFields m p fs).wf = true
  | [], _, h, _ => h
  | (w, v) :: fs, _, h, p => wf_writeFields fs (wf_bitWrite w h p v) (p + w)

theorem wf_forgetBitRange : ∀ (n : Nat) {m : Memory} (_ : m.wf = true) (p : Nat), (forgetBitRange m p n).wf = true
  | 0, _, h, _ => h
  | n + 1, m, h, p => by
    unfold forgetBitRange
    apply wf_forgetBitRange n
    split
    · exact wf_forgetBits h _ _
    · exact h

theorem or_ff (b : Byte) : b ||| 0xFF#8 = 0xFF#8 := BitVec.or_allOnes

theorem and_ff (b : Byte) : b &&& 0xFF#8 = b := BitVec.and_allOnes

/-! ## writeBytes: everything it can do -/

theorem writeBytes_known : ∀ (bs : List Byte) {m : Memory} (_ : m.wf = true) (a x : Nat),
    planeGet (writeBytes m a bs).known x =
      if a ≤ x ∧ x < a + bs.length ∧ isRam x = true then 0xFF#8 else planeGet m.known x
  | [], _, _, a, x => by simp [writeBytes]; omega
  | b :: bs, m, h, a, x => by
    rw [writeBytes, writeBytes_known bs (wf_writeByte h a b) (a + 1) x, writeByte, putBits_known h]
    by_cases hx : x = a
    · subst hx
      by_cases hr : isRam x = true
      · simpa [hr] using or_ff (planeGet m.known x)
      · simp [hr]
    · have h1 : (a + 1 ≤ x ∧ x < a + 1 + bs.length ∧ isRam x = true) ↔
          (a ≤ x ∧ x < a + (b :: bs).length ∧ isRam x = true) := by
        simp only [List.length_cons]
        constructor
        · rintro ⟨h1, h2, h3⟩; exact ⟨by omega, by omega, h3⟩
        · rintro ⟨h1, h2, h3⟩; exact ⟨by omega, by omega, h3⟩
      simp only [h1, hx, and_false, if_false]

theorem writeBytes_val : ∀ (bs : List Byte) {m : Memory} (_ : m.wf = true) (a x : Nat),
    planeGet (writeBytes m a bs).val x =
      if a ≤ x ∧ x < a + bs.length ∧ isRam x = true then bs.getD (x - a) 0#8 else planeGet m.val x
  | [], _, _, a, x => by simp [writeBytes]; omega
  | b :: bs, m, h, a, x => by
    rw [writeBytes, writeBytes_val bs (wf_writeByte h a b) (a + 1) x, writeByte, putBits_val h]
    by_cases hx : x = a
    · subst hx
      by_cases hr : isRam x = true
      · simpa [hr] using and_ff b
      · simp [hr]
    · by_cases hin : a + 1 ≤ x ∧ x < a + 1 + bs.length ∧ isRam x = true
      · have hin' : a ≤ x ∧ x < a + (b :: bs).length ∧ isRam x = true := by
          simp only [List.length_cons]; exact ⟨by omega, by omega, hin.2.2⟩
        rw [if_pos hin, if_pos hin']
        obtain ⟨k, hk⟩ : ∃ k, x = a + 1 + k := ⟨x - (a + 1), by omega⟩
        subst hk
        have e1 : a + 1 + k - (a + 1) = k := by omega
        have e2 : a + 1 + k - a = k + 1 := by omega
        rw [e1, e2]; rfl
      · have hin' : ¬ (a ≤ x ∧ x < a + (b :: bs).length ∧ isRam x = true) := by
          simp only [List.length_cons]
          rintro ⟨h1, h2, h3⟩
          exact hin ⟨by omega, by omega, h3⟩
        simp only [if_neg hin, if_neg hin', hx, and_false, if_false]

/-! ## Reading one byte -/

/-- A read depends on the two planes at its address alone. -/
theorem readByte_congr {m m' : Memory} {a : Nat} (d : Nat) (hk : planeGet m.known a = planeGet m'.known a)
    (hv : planeGet m.val a = planeGet m'.val a) : readByte m d a = readByte m' d a := by
  simp [readByte, hk, hv]

/-- A byte of which every bit holds a value reads that value, whatever the draw. -/
theorem readByte_known {m : Memory} {a : Nat} (d : Nat) (hr : romByte a = none) (hk : planeGet m.known a = 0xFF#8) :
    readByte m d a = planeGet m.val a := by
  simp [readByte, hr, hk]

theorem romByte_of_isRam {a : Nat} (h : isRam a = true) : romByte a = none := by
  unfold isRam at h
  unfold romByte
  cases hw : windowAt a with
  | none => rfl
  | some w => cases w <;> simp_all [Window.isRam]

/-- Every byte outside the written range reads as before. -/
theorem readByte_writeBytes_outside {m : Memory} (h : m.wf = true) (bs : List Byte) (a x d : Nat)
    (hx : x < a ∨ a + bs.length ≤ x) : readByte (writeBytes m a bs) d x = readByte m d x := by
  have hn : ¬ (a ≤ x ∧ x < a + bs.length ∧ isRam x = true) := by omega
  exact readByte_congr d (by rw [writeBytes_known bs h, if_neg hn]) (by rw [writeBytes_val bs h, if_neg hn])

/-- A RAM byte inside the written range reads the byte written, whatever the draw. -/
theorem readByte_writeBytes_inside {m : Memory} (h : m.wf = true) (bs : List Byte) (a k d : Nat)
    (hk : k < bs.length) (hr : isRam (a + k) = true) : readByte (writeBytes m a bs) d (a + k) = bs.getD k 0#8 := by
  have hin : a ≤ a + k ∧ a + k < a + bs.length ∧ isRam (a + k) = true := ⟨by omega, by omega, hr⟩
  have h1 : planeGet (writeBytes m a bs).known (a + k) = 0xFF#8 := by rw [writeBytes_known bs h, if_pos hin]
  rw [readByte_known d (romByte_of_isRam hr) h1, writeBytes_val bs h, if_pos hin]
  congr 1
  omega

@[simp] theorem length_readBytes (m : Memory) (d a n : Nat) : (readBytes m d a n).length = n := by simp [readBytes]

@[simp] theorem getD_readBytes (m : Memory) (d a n i : Nat) (h : i < n) :
    (readBytes m d a n).getD i 0#8 = readByte m d (a + i) := by
  simp [readBytes, List.getD, h]

/-- Two canonical memories that read alike in both planes are the same memory. -/
theorem memory_ext {m m' : Memory} (h : m.wf = true) (h' : m'.wf = true)
    (hk : ∀ a, planeGet m.known a = planeGet m'.known a) (hv : ∀ a, planeGet m.val a = planeGet m'.val a) : m = m' := by
  cases m with
  | mk v k =>
    cases m' with
    | mk v' k' =>
      have e1 := plane_ext v v' 0 (val_planeWf h) (val_planeWf h') hv
      have e2 := plane_ext k k' 0 (known_planeWf h) (known_planeWf h') hk
      rw [e1, e2]

end Sys2Proof.Machine
end

