-- ==== Sys2Proof/Laws/Bits.lean ====
section
/-! SUPPORT. The bits of BITBUF: what `putBit`, `bitWrite`, `writeFields` and the forgetting operations do to each bit of
each byte, and the numbers that written fields read as. -/

namespace Sys2Proof.Machine

/-- The number of BITBUF bit `j` of the byte at `a` (20_memory.md R59, read the other way). -/
def bitIndex (a j : Nat) : Nat := (a - 0x4000) * 8 + (7 - j)

theorem bitMask_bit {j : Nat} (hj : j < 8) (p : Nat) : (bitMask p).getLsbD j = decide (j = 7 - p % 8) := by
  have h : p % 8 < 8 := Nat.mod_lt _ (by decide)
  unfold bitMask
  generalize p % 8 = r at *
  interval_cases r <;> interval_cases j <;> rfl

theorem bitAddr_eq (p : Nat) : bitAddr p = 0x4000 + p / 8 := rfl

theorem isRam_bitAddr {p : Nat} (h : p < 32768) : isRam (bitAddr p) = true := by
  rw [isRam_iff, bitAddr_eq]
  omega

/-- The place of a bit: its byte and its place in the byte name it. -/
theorem bit_place {a j p : Nat} (hj : j < 8) :
    (p < 32768 ∧ a = bitAddr p ∧ j = 7 - p % 8) ↔ (0x4000 ≤ a ∧ a < 0x5000 ∧ bitIndex a j = p) := by
  rw [bitAddr_eq]
  unfold bitIndex
  constructor
  · rintro ⟨h1, rfl, rfl⟩; omega
  · rintro ⟨h1, h2, rfl⟩; omega

theorem putBit_known {m : Memory} (h : m.wf = true) (p : Nat) (b : Bool) {a j : Nat} (hj : j < 8) :
    (planeGet (putBit m p b).known a).getLsbD j =
      if 0x4000 ≤ a ∧ a < 0x5000 ∧ bitIndex a j = p then true else (planeGet m.known a).getLsbD j := by
  simp only [← bit_place hj]
  unfold putBit
  by_cases hp : p < 32768
  · rw [if_pos (by simpa [bitbufBits] using hp), putBits_known h]
    by_cases ha : a = bitAddr p
    · subst ha
      rw [if_pos ⟨isRam_bitAddr hp, rfl⟩, BitVec.getLsbD_or, bitMask_bit hj]
      by_cases hb : j = 7 - p % 8 <;> simp [hp, hb]
    · rw [if_neg (by tauto), if_neg (by tauto)]
  · rw [if_neg (by simpa [bitbufBits] using hp), if_neg (by tauto)]

theorem putBit_val {m : Memory} (h : m.wf = true) (p : Nat) (b : Bool) {a j : Nat} (hj : j < 8) :
    (planeGet (putBit m p b).val a).getLsbD j =
      if 0x4000 ≤ a ∧ a < 0x5000 ∧ bitIndex a j = p then b else (planeGet m.val a).getLsbD j := by
  simp only [← bit_place hj]
  unfold putBit
  by_cases hp : p < 32768
  · rw [if_pos (by simpa [bitbufBits] using hp), putBits_val h]
    by_cases ha : a = bitAddr p
    · subst ha
      rw [if_pos ⟨isRam_bitAddr hp, rfl⟩, BitVec.getLsbD_or, BitVec.getLsbD_and, BitVec.getLsbD_and, BitVec.getLsbD_not,
        bitMask_bit hj]
      have hf : (if b = true then 0xFF#8 else 0x00#8 : Byte).getLsbD j = b := by
        cases b <;> interval_cases j <;> rfl
      rw [hf]
      by_cases hb : j = 7 - p % 8 <;> simp [hp, hb, hj]
    · rw [if_neg (by tauto), if_neg (by tauto)]
  · rw [if_neg (by simpa [bitbufBits] using hp), if_neg (by tauto)]

/-- Whether bit `j` of the byte at `a` is one of BITBUF's bits p .. p+w-1. -/
def bitIn (p w a j : Nat) : Prop := 0x4000 ≤ a ∧ a < 0x5000 ∧ p ≤ bitIndex a j ∧ bitIndex a j < p + w

theorem bitWrite_known : ∀ (w : Nat) {m : Memory} (_ : m.wf = true) (p v : Nat) {a j : Nat} (_ : j < 8),
    ((planeGet (bitWrite m p w v).known a).getLsbD j = true ↔
      bitIn p w a j ∨ (planeGet m.known a).getLsbD j = true)
  | 0, m, h, p, v, a, j, hj => by simp [bitWrite, bitIn]
  | w + 1, m, h, p, v, a, j, hj => by
    unfold bitWrite
    rw [bitWrite_known w (wf_putBit h p _) (p + 1) v hj, putBit_known h p _ hj]
    unfold bitIn
    by_cases hc : 0x4000 ≤ a ∧ a < 0x5000 ∧ bitIndex a j = p
    · rw [if_pos hc]; simp; left; omega
    · rw [if_neg hc]
      apply or_congr_left
      constructor <;> intro h <;> omega

theorem bitWrite_val_out : ∀ {m : Memory} (_ : m.wf = true) (p w v : Nat) {a j : Nat} (_ : j < 8),
    ¬ bitIn p w a j → (planeGet (bitWrite m p w v).val a).getLsbD j = (planeGet m.val a).getLsbD j
  | m, h, p, 0, v, a, j, hj => by simp [bitWrite]
  | m, h, p, w + 1, v, a, j, hj => by
    intro hout
    unfold bitWrite
    have hout' : ¬ bitIn (p + 1) w a j := by unfold bitIn at *; omega
    rw [bitWrite_val_out (wf_putBit h p _) (p + 1) w v hj hout', putBit_val h p _ hj, if_neg]
    intro hc
    apply hout
    unfold bitIn; omega

theorem bitWrite_val_in : ∀ {m : Memory} (_ : m.wf = true) (p w v : Nat) {a j : Nat} (_ : j < 8),
    bitIn p w a j → (planeGet (bitWrite m p w v).val a).getLsbD j = v.testBit (p + w - 1 - bitIndex a j)
  | m, h, p, 0, v, a, j, hj => by unfold bitIn; omega
  | m, h, p, w + 1, v, a, j, hj => by
    intro hin
    unfold bitWrite
    by_cases hc : bitIndex a j = p
    · have hout : ¬ bitIn (p + 1) w a j := by unfold bitIn; omega
      rw [bitWrite_val_out (wf_putBit h p _) (p + 1) w v hj hout, putBit_val h p _ hj,
        if_pos ⟨hin.1, hin.2.1, hc⟩, hc]
      congr 1; omega
    · have hin' : bitIn (p + 1) w a j := by unfold bitIn at *; omega
      rw [bitWrite_val_in (wf_putBit h p _) (p + 1) w v hj hin']
      congr 1; omega

theorem bitWrite_known_out {m : Memory} (h : m.wf = true) (p w v : Nat) {a j : Nat} (hj : j < 8)
    (hout : ¬ bitIn p w a j) : (planeGet (bitWrite m p w v).known a).getLsbD j = (planeGet m.known a).getLsbD j := by
  rw [Bool.eq_iff_iff, bitWrite_known w h p v hj]
  tauto

/-- The bits a list of fields takes. -/
def fieldsWidth (fs : List Field) : Nat := (fs.map Prod.fst).sum

@[simp] theorem fieldsWidth_nil : fieldsWidth [] = 0 := rfl
@[simp] theorem fieldsWidth_cons (f : Field) (fs : List Field) : fieldsWidth (f :: fs) = f.1 + fieldsWidth fs := rfl

theorem writeFields_out : ∀ (fs : List Field) {m : Memory} (_ : m.wf = true) (p : Nat) {a j : Nat} (_ : j < 8),
    ¬ bitIn p (fieldsWidth fs) a j →
    (planeGet (writeFields m p fs).known a).getLsbD j = (planeGet m.known a).getLsbD j ∧
      (planeGet (writeFields m p fs).val a).getLsbD j = (planeGet m.val a).getLsbD j
  | [], m, h, p, a, j, hj, _ => ⟨rfl, rfl⟩
  | (w, v) :: fs, m, h, p, a, j, hj, hout => by
    have h1 : ¬ bitIn p w a j := by unfold bitIn at *; simp at hout; omega
    have h2 : ¬ bitIn (p + w) (fieldsWidth fs) a j := by unfold bitIn at *; simp at hout; omega
    have ih := writeFields_out fs (wf_bitWrite w h p v) (p + w) hj h2
    exact ⟨ih.1.trans (bitWrite_known_out h p w v hj h1), ih.2.trans (bitWrite_val_out h p w v hj h1)⟩

theorem writeFields_append : ∀ (fs gs : List Field) (m : Memory) (p : Nat),
    writeFields m p (fs ++ gs) = writeFields (writeFields m p fs) (p + fieldsWidth fs) gs
  | [], gs, m, p => by simp [writeFields]
  | (w, v) :: fs, gs, m, p => by
    simp only [List.cons_append, writeFields, fieldsWidth_cons]
    rw [writeFields_append fs gs]
    congr 1; omega

/-- A byte every bit of which is left alone is left alone. -/
theorem byteKept_of_bits {m m' : Memory} {a : Nat}
    (h : ∀ j, j < 8 → (planeGet m'.known a).getLsbD j = (planeGet m.known a).getLsbD j ∧
      (planeGet m'.val a).getLsbD j = (planeGet m.val a).getLsbD j) : byteKept m m' a := by
  have hk : planeGet m'.known a = planeGet m.known a := byte_eq_of_bits fun i hi => (h i hi).1
  have hv : planeGet m'.val a = planeGet m.val a := byte_eq_of_bits fun i hi => (h i hi).2
  exact ⟨hk, hv, fun d => readByte_congr d hk hv⟩

theorem byteKept_refl (m : Memory) (a : Nat) : byteKept m m a := ⟨rfl, rfl, fun _ => rfl⟩

theorem bitKept_of_out {m m' : Memory} {q : Nat} (h : ∀ a j, j < 8 → a = bitAddr q → j = 7 - q % 8 →
    (planeGet m'.known a).getLsbD j = (planeGet m.known a).getLsbD j ∧
      (planeGet m'.val a).getLsbD j = (planeGet m.val a).getLsbD j) : bitKept m m' q :=
  h _ _ (by omega) rfl rfl

/-- What changes only the bits of a range, in the terms of the statements. -/
theorem onlyBitsChange_of_out {m m' : Memory} {p n : Nat} (h : ∀ a j, j < 8 → ¬ bitIn p n a j →
    (planeGet m'.known a).getLsbD j = (planeGet m.known a).getLsbD j ∧
      (planeGet m'.val a).getLsbD j = (planeGet m.val a).getLsbD j) : onlyBitsChange m m' p n := by
  refine ⟨fun a ha => byteKept_of_bits fun j hj => h a j hj (by unfold bitIn; omega), fun q hq hout => ?_⟩
  refine bitKept_of_out fun a j hj ha hjq => h a j hj ?_
  have := (bit_place (p := q) hj).1 ⟨hq, ha, hjq⟩
  unfold bitIn; omega

theorem onlyBitsChange_writeFields {m : Memory} (h : m.wf = true) (fs : List Field) (p : Nat) :
    onlyBitsChange m (writeFields m p fs) p (fieldsWidth fs) :=
  onlyBitsChange_of_out fun _ _ hj hout => writeFields_out fs h p hj hout

theorem onlyBitsChange_bitWrite {m : Memory} (h : m.wf = true) (p w v : Nat) :
    onlyBitsChange m (bitWrite m p w v) p w :=
  onlyBitsChange_of_out fun _ _ hj hout => ⟨bitWrite_known_out h p w v hj hout, bitWrite_val_out h p w v hj hout⟩

theorem romByte_bitAddr {p : Nat} (h : p < 32768) : romByte (bitAddr p) = none := romByte_of_isRam (isRam_bitAddr h)

/-- A BITBUF bit that holds a value reads it, whatever is drawn. -/
theorem bitRead_known {m : Memory} {q : Nat} (d : Nat) (hq : q < 32768)
    (hk : (planeGet m.known (bitAddr q)).getLsbD (7 - q % 8) = true) :
    bitRead m d q = (planeGet m.val (bitAddr q)).getLsbD (7 - q % 8) := by
  unfold bitRead readByte
  rw [romByte_bitAddr hq]
  dsimp only
  split
  · rfl
  · rw [BitVec.getLsbD_or, BitVec.getLsbD_and, BitVec.getLsbD_and, BitVec.getLsbD_not, hk]
    simp

theorem bitRead_bitWrite {m : Memory} (h : m.wf = true) (p w v d t : Nat) (ht : t < w) (hp : p + w ≤ 32768) :
    bitRead (bitWrite m p w v) d (p + t) = v.testBit (w - 1 - t) := by
  have hj : 7 - (p + t) % 8 < 8 := by omega
  have hpl := (bit_place (p := p + t) hj).1 ⟨by omega, rfl, rfl⟩
  have hin : bitIn p w (bitAddr (p + t)) (7 - (p + t) % 8) := by unfold bitIn; omega
  rw [bitRead_known d (by omega) ((bitWrite_known w h p v hj).2 (.inl hin)), bitWrite_val_in h p w v hj hin]
  congr 1; omega

/-- Bits that are those of a number read as that number. -/
theorem bitsNumber_eq : ∀ (w : Nat) (m : Memory) (d p v : Nat), v < 2 ^ w →
    (∀ t, t < w → bitRead m d (p + t) = v.testBit (w - 1 - t)) → bitsNumber m d p w = v
  | 0, _, _, _, v, hv, _ => by simp at hv; simp [bitsNumber, hv]
  | w + 1, m, d, p, v, hv, h => by
    unfold bitsNumber
    have h1 : v / 2 < 2 ^ w := by rw [pow_succ] at hv; omega
    rw [bitsNumber_eq w m d p (v / 2) h1, h w (by omega)]
    · have : w + 1 - 1 - w = 0 := by omega
      rw [this, Nat.testBit_zero]
      have := Nat.mod_two_eq_zero_or_one v
      rcases this with h0 | h0 <;> simp [h0] <;> omega
    · intro t ht
      rw [h t (by omega), Nat.testBit_div_two]
      congr 1; omega

/-- Fields read back: the field after `fs` is the number it was. -/
theorem bitsNumber_writeFields {m : Memory} (h : m.wf = true) (fs gs : List Field) (p w v d : Nat) (hv : v < 2 ^ w)
    (hp : p + fieldsWidth fs + w + fieldsWidth gs ≤ 32768) :
    bitsNumber (writeFields m p (fs ++ (w, v) :: gs)) d (p + fieldsWidth fs) w = v := by
  rw [writeFields_append, writeFields]
  refine bitsNumber_eq w _ d _ v hv fun t ht => ?_
  have h1 := wf_writeFields fs h p
  have h2 := wf_bitWrite w h1 (p + fieldsWidth fs) v
  have hj : 7 - (p + fieldsWidth fs + t) % 8 < 8 := by omega
  have hpl := (bit_place (p := p + fieldsWidth fs + t) hj).1 ⟨by omega, rfl, rfl⟩
  have hout : ¬ bitIn (p + fieldsWidth fs + w) (fieldsWidth gs) (bitAddr (p + fieldsWidth fs + t))
      (7 - (p + fieldsWidth fs + t) % 8) := by unfold bitIn; omega
  have hin : bitIn (p + fieldsWidth fs) w (bitAddr (p + fieldsWidth fs + t))
      (7 - (p + fieldsWidth fs + t) % 8) := by unfold bitIn; omega
  obtain ⟨hk, hval⟩ := writeFields_out gs h2 (p + fieldsWidth fs + w) hj hout
  rw [bitRead_known d (by omega), hval, bitWrite_val_in h1 _ w v hj hin]
  · congr 1; omega
  · rw [hk]; exact (bitWrite_known w h1 _ v hj).2 (.inl hin)

/-! ## Forgetting -/

theorem forgetBitRange_known : ∀ (n : Nat) {m : Memory} (_ : m.wf = true) (p : Nat) {a j : Nat} (_ : j < 8),
    ((planeGet (forgetBitRange m p n).known a).getLsbD j = true ↔
      ¬ bitIn p n a j ∧ (planeGet m.known a).getLsbD j = true)
  | 0, m, h, p, a, j, hj => by simp [forgetBitRange, bitIn]
  | n + 1, m, h, p, a, j, hj => by
    unfold forgetBitRange
    have hw : (if p < bitbufBits then forgetBits m (bitAddr p) (bitMask p) else m).wf = true := by
      split
      · exact wf_forgetBits h _ _
      · exact h
    rw [forgetBitRange_known n hw (p + 1) hj]
    have hb : ((planeGet (if p < bitbufBits then forgetBits m (bitAddr p) (bitMask p) else m).known a).getLsbD j = true ↔
        ¬ (0x4000 ≤ a ∧ a < 0x5000 ∧ bitIndex a j = p) ∧ (planeGet m.known a).getLsbD j = true) := by
      rw [← bit_place hj]
      by_cases hp : p < 32768
      · rw [if_pos (by simpa [bitbufBits] using hp), forgetBits_known h]
        by_cases ha : a = bitAddr p
        · subst ha
          rw [if_pos ⟨isRam_bitAddr hp, rfl⟩, BitVec.getLsbD_and, BitVec.getLsbD_not, bitMask_bit hj]
          by_cases hb : j = 7 - p % 8 <;> simp [hp, hb, hj]
        · rw [if_neg (by tauto)]; tauto
      · rw [if_neg (by simpa [bitbufBits] using hp)]; tauto
    rw [hb]
    unfold bitIn
    constructor
    · rintro ⟨h1, h2, h3⟩; exact ⟨by omega, h3⟩
    · rintro ⟨h1, h3⟩; exact ⟨by omega, by omega, h3⟩

theorem forgetBitRange_val_out : ∀ (n : Nat) {m : Memory} (_ : m.wf = true) (p : Nat) {a j : Nat} (_ : j < 8),
    ¬ bitIn p n a j → (planeGet (forgetBitRange m p n).val a).getLsbD j = (planeGet m.val a).getLsbD j
  | 0, m, h, p, a, j, hj, _ => rfl
  | n + 1, m, h, p, a, j, hj, hout => by
    unfold forgetBitRange
    have hw : (if p < bitbufBits then forgetBits m (bitAddr p) (bitMask p) else m).wf = true := by
      split
      · exact wf_forgetBits h _ _
      · exact h
    have hout' : ¬ bitIn (p + 1) n a j := by unfold bitIn at *; omega
    have hp' : ¬ (p < 32768 ∧ a = bitAddr p ∧ j = 7 - p % 8) := by
      rw [bit_place hj]; unfold bitIn at hout; omega
    rw [forgetBitRange_val_out n hw (p + 1) hj hout']
    by_cases hp : p < 32768
    · rw [if_pos (by simpa [bitbufBits] using hp), forgetBits_val h]
      by_cases ha : a = bitAddr p
      · subst ha
        rw [if_pos ⟨isRam_bitAddr hp, rfl⟩, BitVec.getLsbD_and, BitVec.getLsbD_not, bitMask_bit hj]
        have hb : ¬ j = 7 - p % 8 := by tauto
        simp [hb, hj]
      · rw [if_neg (by tauto)]
    · rw [if_neg (by simpa [bitbufBits] using hp)]

theorem forgetBytes_known : ∀ (n : Nat) {m : Memory} (_ : m.wf = true) (a x : Nat),
    planeGet (forgetBytes m a n).known x =
      if a ≤ x ∧ x < a + n ∧ isRam x = true then 0#8 else planeGet m.known x
  | 0, m, h, a, x => by simp [forgetBytes] ; omega
  | n + 1, m, h, a, x => by
    unfold forgetBytes
    rw [forgetBytes_known n (wf_forgetBits h a 0xFF#8) (a + 1) x, forgetBits_known h]
    by_cases hx : x = a
    · subst hx
      rw [if_neg (by omega)]
      by_cases hr : isRam x = true
      · rw [if_pos ⟨hr, rfl⟩, if_pos ⟨by omega, by omega, hr⟩]
        exact BitVec.and_zero
      · rw [if_neg (by tauto), if_neg (by tauto)]
    · rw [if_neg (c := isRam a = true ∧ x = a) (by tauto)]
      by_cases hr : isRam x = true
      · by_cases hc : a ≤ x ∧ x < a + (n + 1)
        · rw [if_pos ⟨by omega, by omega, hr⟩, if_pos ⟨by omega, by omega, hr⟩]
        · rw [if_neg (by omega), if_neg (by omega)]
      · rw [if_neg (by tauto), if_neg (by tauto)]

theorem forgetBytes_val_out : ∀ (n : Nat) {m : Memory} (_ : m.wf = true) (a x : Nat), (x < a ∨ a + n ≤ x) →
    planeGet (forgetBytes m a n).val x = planeGet m.val x
  | 0, m, h, a, x, _ => rfl
  | n + 1, m, h, a, x, hx => by
    unfold forgetBytes
    rw [forgetBytes_val_out n (wf_forgetBits h a 0xFF#8) (a + 1) x (by omega), forgetBits_val h, if_neg (by omega)]

end Sys2Proof.Machine
end

