-- ==== Sys2Proof/Laws/Run.lean ====
section
/-! SUPPORT. What a command can do, said once: exec is the completion of a command's run; a run writes RES0..RES2, SCORE,
PEN and RAM alone; its errors are those of `errorsOf`. -/

namespace Sys2Proof.Machine

/-- The checks and writes of every command, before its completion. -/
def runOf : Instr → State → Run
  | .nop => runNop
  | .gfMul => runGfMul
  | .gfPow => runGfPow
  | .polyMul => runPolyMul
  | .genPoly => runGenPoly
  | .rsEcc => runRsEcc
  | .polyEval => runPolyEval
  | .packNum => runPackNum
  | .packAlnum => runPackAlnum
  | .packKanji => runPackKanji
  | .packByte => runPackByte
  | .packBits => runPackBits
  | .maskApply => runMaskApply
  | .maskScore => runMaskScore
  | .maskSelect commit force => runMaskSelect commit force

theorem exec_eq (i : Instr) (s : State) : exec i s = .next (complete s (runOf i s)) := by cases i <;> rfl

theorem exec_next {i : Instr} {s t : State} (h : exec i s = .next t) : t = complete s (runOf i s) := by
  rw [exec_eq] at h
  exact (Host.Outcome.next.inj h).symm

/-- A list of checks passes only if each does, and its result is then the given state. -/
theorem firstError_ok : ∀ {checks : List (Option CmdError)} {t u : State}, firstError checks t = .ok u → u = t
  | [], _, _, h => (Except.ok.inj h).symm
  | none :: cs, _, _, h => firstError_ok (checks := cs) h
  | some _ :: _, _, _, h => by simp [firstError] at h

theorem firstError_error : ∀ {checks : List (Option CmdError)} {t : State} {e : CmdError},
    firstError checks t = .error e → some e ∈ checks
  | [], _, _, h => by simp [firstError] at h
  | none :: cs, _, _, h => List.mem_cons_of_mem _ (firstError_error (checks := cs) h)
  | some _ :: _, _, _, h => by simp [firstError] at h; simp [h]

theorem firstError_all_none : ∀ {checks : List (Option CmdError)} {t : State}, (∀ c ∈ checks, c = none) →
    firstError checks t = .ok t
  | [], _, _ => rfl
  | c :: cs, t, h => by
    obtain rfl := h c (by simp)
    exact firstError_all_none (checks := cs) fun c hc => h c (by simp [hc])

/-- What a run may have written: RES0..RES2, SCORE, PEN and RAM, and nothing else. -/
def Wrote (s t : State) : Prop :=
  t = { s with res := t.res, scores := t.scores, pens := t.pens, ram := t.ram } ∧ t.res.r3 = s.res.r3

theorem runPack_cases (paired : Bool) (nbits : Nat → Nat) (fields : List Byte → Except Nat (List Field)) (s : State) :
    (8192 < arg0 s + arg1 s ∧ runPack paired nbits fields s = .error (raise .inRange (clampIdx (arg0 s + arg1 s)))) ∨
    (arg0 s + arg1 s ≤ 8192 ∧ paired = true ∧ arg1 s % 2 = 1 ∧
      runPack paired nbits fields s = .error (raise .oddLength (clampIdx (arg1 s)))) ∨
    (arg0 s + arg1 s ≤ 8192 ∧ ¬ (paired = true ∧ arg1 s % 2 = 1) ∧ 32768 < arg2 s + nbits (arg1 s) ∧
      runPack paired nbits fields s = .error (raise .outRange (clampIdx (arg2 s + nbits (arg1 s))))) ∨
    (arg0 s + arg1 s ≤ 8192 ∧ ¬ (paired = true ∧ arg1 s % 2 = 1) ∧ arg2 s + nbits (arg1 s) ≤ 32768 ∧
      ((∃ off, fields (packInput s) = .error off ∧
          runPack paired nbits fields s = .error (raise .badChar (clampIdx off))) ∨
        ∃ fs, fields (packInput s) = .ok fs ∧
          runPack paired nbits fields s = .ok (setRes01 { s with ram := writeFields s.ram (arg2 s) fs }
            (toWord (nbits (arg1 s))) (toWord (arg2 s + nbits (arg1 s)))))) := by
  unfold runPack packInput
  by_cases h1 : 8192 < arg0 s + arg1 s
  · exact .inl ⟨h1, by simp [Window.size, h1]⟩
  by_cases h2 : paired = true ∧ arg1 s % 2 = 1
  · exact .inr (.inl ⟨by omega, h2.1, h2.2, by simp [Window.size, h1, h2]⟩)
  by_cases h3 : 32768 < arg2 s + nbits (arg1 s)
  · exact .inr (.inr (.inl ⟨by omega, h2, h3, by simp [Window.size, bitbufBits, h1, h2, h3]⟩))
  refine .inr (.inr (.inr ⟨by omega, h2, by omega, ?_⟩))
  rw [if_neg (by simpa [Window.size] using h1), if_neg h2, if_neg (by simpa [bitbufBits] using h3)]
  show (∃ off, fields (readBytes s.ram s.draws (0x2000 + arg0 s) (arg1 s)) = .error off ∧ _) ∨ _
  simp only [Window.base]
  cases hf : fields (readBytes s.ram s.draws (0x2000 + arg0 s) (arg1 s)) with
  | error off => exact .inl ⟨off, rfl, rfl⟩
  | ok fs => exact .inr ⟨fs, rfl, rfl⟩

theorem wrote_self (s : State) : Wrote s s := ⟨rfl, rfl⟩

theorem runPack_wrote {paired : Bool} {nbits : Nat → Nat} {fields : List Byte → Except Nat (List Field)} {s t : State}
    (h : runPack paired nbits fields s = .ok t) : Wrote s t := by
  rcases runPack_cases paired nbits fields s with ⟨_, e⟩ | ⟨_, _, _, e⟩ | ⟨_, _, _, e⟩ | ⟨_, _, _, ⟨_, _, e⟩ | ⟨_, _, e⟩⟩ <;>
    rw [e] at h <;> cases h
  exact ⟨rfl, rfl⟩

/-- A run that raises nothing has written outputs alone. -/
theorem runOf_wrote {i : Instr} {s t : State} (h : runOf i s = .ok t) : Wrote s t := by
  cases i with
  | nop => cases h; exact wrote_self s
  | gfMul | gfPow | polyMul | genPoly | rsEcc | polyEval | packBits =>
    simp only [runOf, runGfMul, runGfPow, runPolyMul, runGenPoly, runRsEcc, runPolyEval, runPackBits] at h
    repeat (split at h; · cases h)
    cases h; exact ⟨rfl, rfl⟩
  | packNum => exact runPack_wrote (paired := false) (nbits := numBits) (fields := numEncode) h
  | packAlnum => exact runPack_wrote (paired := false) (nbits := alnumBits) (fields := alnumEncode) h
  | packKanji => exact runPack_wrote (paired := true) (nbits := kanjiBits) (fields := kanjiEncode) h
  | packByte => exact runPack_wrote (paired := false) (nbits := byteBits) (fields := byteEncode) h
  | maskApply => obtain rfl := firstError_ok h; exact ⟨rfl, rfl⟩
  | maskScore =>
    obtain rfl := firstError_ok h
    unfold putScore
    split <;> exact ⟨rfl, rfl⟩
  | maskSelect commit force =>
    cases force <;> cases commit <;> (obtain rfl := firstError_ok h; exact ⟨rfl, rfl⟩)

/-- The completion of a run, in the terms of the statements: an error leaves everything but the report, a success the
outputs and the report. -/
theorem complete_error_eq (s : State) (e : CmdError) :
    complete s (.error e) = failsWith s e.kind.code e.sub.code e.idx := rfl

theorem complete_ok_eq {s t : State} (h : Wrote s t) :
    complete s (.ok t) = succeedsWith s t.res t.scores t.pens t.ram := by
  obtain ⟨h, _⟩ := h
  simp only [complete, completeOk, succeedsWith]
  rw [h]
  rfl

/-- Everything exec can do: fail with an error of the run, or succeed with what the run wrote. -/
theorem exec_cases {i : Instr} {s t : State} (h : exec i s = .next t) :
    (∃ e, runOf i s = .error e ∧ t = failsWith s e.kind.code e.sub.code e.idx) ∨
    (∃ u, runOf i s = .ok u ∧ Wrote s u ∧ t = succeedsWith s u.res u.scores u.pens u.ram) := by
  have ht := exec_next h
  cases hr : runOf i s with
  | error e => exact .inl ⟨e, rfl, by rw [ht, hr]; rfl⟩
  | ok u => exact .inr ⟨u, rfl, runOf_wrote hr, by rw [ht, hr, complete_ok_eq (runOf_wrote hr)]⟩

theorem exec_error {i : Instr} {s : State} {e : CmdError} (h : runOf i s = .error e) :
    exec i s = .next (failsWith s e.kind.code e.sub.code e.idx) := by rw [exec_eq, h]; rfl

theorem exec_ok {i : Instr} {s u : State} (h : runOf i s = .ok u) :
    exec i s = .next (succeedsWith s u.res u.scores u.pens u.ram) := by
  rw [exec_eq, h, complete_ok_eq (runOf_wrote h)]

@[simp] theorem failsWith_err (s : State) (c : BitVec 4) (b : BitVec 8) (x : BitVec 24) :
    (failsWith s c b x).status.err = true := rfl

@[simp] theorem succeedsWith_err (s : State) (r : Results) (c : Scores) (p : Penalties) (m : Memory) :
    (succeedsWith s r c p m).status.err = false := rfl

/-- A command that ended without an error ran to its end. -/
theorem exec_success {i : Instr} {s t : State} (h : exec i s = .next t) (he : t.status.err = false) :
    ∃ u, runOf i s = .ok u ∧ Wrote s u ∧ t = succeedsWith s u.res u.scores u.pens u.ram := by
  rcases exec_cases h with ⟨e, _, rfl⟩ | hu
  · simp at he
  · exact hu

/-- The errors a run raises are the command's. -/
theorem runOf_error {i : Instr} {s : State} {e : CmdError} (h : runOf i s = .error e) :
    (e.kind.code, e.sub.code) ∈ errorsOf i := by
  have pack : ∀ (paired : Bool) (nbits : Nat → Nat) (fields : List Byte → Except Nat (List Field)),
      runPack paired nbits fields s = .error e →
      (e.sub = .inRange ∨ (paired = true ∧ e.sub = .oddLength) ∨ e.sub = .outRange ∨
        (e.sub = .badChar ∧ ∃ off, fields (packInput s) = .error off)) ∧ e.kind = e.sub.kind := by
    intro paired nbits fields h
    rcases runPack_cases paired nbits fields s with ⟨_, h'⟩ | ⟨_, hp, _, h'⟩ | ⟨_, _, _, h'⟩ | ⟨_, _, _, ⟨o, ho, h'⟩ | ⟨_, _, h'⟩⟩ <;>
      rw [h'] at h <;> cases h
    · exact ⟨.inl rfl, rfl⟩
    · exact ⟨.inr (.inl ⟨hp, rfl⟩), rfl⟩
    · exact ⟨.inr (.inr (.inl rfl)), rfl⟩
    · exact ⟨.inr (.inr (.inr ⟨rfl, o, ho⟩)), rfl⟩
  have bcfg : some e = checkBcfg s → e.kind = .unsupportedConfiguration ∧ e.sub = .badVersion := by
    unfold checkBcfg; split <;> intro h <;> cases h; exact ⟨rfl, rfl⟩
  have mask : ∀ m, some e = checkMaskId s m →
      (e.kind = .internalError ∧ e.sub = .argRange) ∨ (e.kind = .unsupportedConfiguration ∧ e.sub = .badMask) := by
    intro m; unfold checkMaskId
    split
    · intro h; cases h; exact .inl ⟨rfl, rfl⟩
    split <;> intro h <;> cases h; exact .inr ⟨rfl, rfl⟩
  have board : some e = checkBoard (boardCells s) → e.kind = .internalError ∧ e.sub = .badCell := by
    unfold checkBoard; intro h
    cases hm : firstMalformed 0 (boardCells s) <;> rw [hm] at h <;> cases h; exact ⟨rfl, rfl⟩
  cases i with
  | nop => cases h
  | gfMul | gfPow | polyMul | genPoly | rsEcc | polyEval | packBits =>
    simp only [runOf, runGfMul, runGfPow, runPolyMul, runGenPoly, runRsEcc, runPolyEval, runPackBits] at h
    repeat' split at h
    all_goals (cases h; try simp [errorsOf, argRange, raise, Subcode.kind, Subcode.code, ErrorKind.code])
  | packNum =>
    obtain ⟨hs | ⟨hp, hs⟩ | hs | ⟨hs, _, hf⟩, hk⟩ := pack false numBits numEncode h <;>
      simp_all [errorsOf, Subcode.kind, Subcode.code, ErrorKind.code]
  | packAlnum =>
    obtain ⟨hs | ⟨hp, hs⟩ | hs | ⟨hs, _, hf⟩, hk⟩ := pack false alnumBits alnumEncode h <;>
      simp_all [errorsOf, Subcode.kind, Subcode.code, ErrorKind.code]
  | packKanji =>
    obtain ⟨hs | ⟨hp, hs⟩ | hs | ⟨hs, _, hf⟩, hk⟩ := pack true kanjiBits kanjiEncode h <;>
      simp_all [errorsOf, Subcode.kind, Subcode.code, ErrorKind.code]
  | packByte =>
    obtain ⟨hs | ⟨hp, hs⟩ | hs | ⟨hs, _, hf⟩, hk⟩ := pack false byteBits byteEncode h <;>
      simp_all [errorsOf, byteEncode, Subcode.kind, Subcode.code, ErrorKind.code]
  | maskApply =>
    have h := firstError_error h
    simp only [List.mem_cons, List.not_mem_nil, or_false] at h
    rcases h with h | h | h
    · obtain ⟨hk, hs⟩ := bcfg h; simp [errorsOf, hk, hs, Subcode.code, ErrorKind.code]
    · obtain ⟨hk, hs⟩ | ⟨hk, hs⟩ := mask _ h <;> simp [errorsOf, hk, hs, Subcode.code, ErrorKind.code]
    · obtain ⟨hk, hs⟩ := board h; simp [errorsOf, hk, hs, Subcode.code, ErrorKind.code]
  | maskScore =>
    have h := firstError_error h
    simp only [List.mem_cons, List.not_mem_nil, or_false] at h
    rcases h with h | h
    · obtain ⟨hk, hs⟩ := bcfg h; simp [errorsOf, hk, hs, Subcode.code, ErrorKind.code]
    · obtain ⟨hk, hs⟩ := board h; simp [errorsOf, hk, hs, Subcode.code, ErrorKind.code]
  | maskSelect commit force =>
    cases force
    · have h := firstError_error h
      simp only [List.mem_cons, List.not_mem_nil, or_false] at h
      rcases h with h | h
      · obtain ⟨hk, hs⟩ := bcfg h; simp [errorsOf, hk, hs, Subcode.code, ErrorKind.code]
      · obtain ⟨hk, hs⟩ := board h; simp [errorsOf, hk, hs, Subcode.code, ErrorKind.code]
    · have h := firstError_error h
      simp only [List.mem_cons, List.not_mem_nil, or_false] at h
      rcases h with h | h | h
      · obtain ⟨hk, hs⟩ := bcfg h; simp [errorsOf, hk, hs, Subcode.code, ErrorKind.code]
      · obtain ⟨hk, hs⟩ | ⟨hk, hs⟩ := mask _ h <;> simp [errorsOf, hk, hs, Subcode.code, ErrorKind.code]
      · obtain ⟨hk, hs⟩ := board h; simp [errorsOf, hk, hs, Subcode.code, ErrorKind.code]

/-- A run keeps the RAM canonical. -/
theorem runOf_wf {i : Instr} {s t : State} (hw : s.ram.wf = true) (h : runOf i s = .ok t) : t.ram.wf = true := by
  have board : ∀ u cells, u.ram.wf = true → (putBoard u cells).ram.wf = true := fun _ _ hu => wf_writeBytes _ hu _
  have pack : ∀ (paired : Bool) (nbits : Nat → Nat) (fields : List Byte → Except Nat (List Field)),
      runPack paired nbits fields s = .ok t → t.ram.wf = true := by
    intro paired nbits fields h
    rcases runPack_cases paired nbits fields s with ⟨_, e⟩ | ⟨_, _, _, e⟩ | ⟨_, _, _, e⟩ | ⟨_, _, _, ⟨_, _, e⟩ | ⟨_, _, e⟩⟩ <;>
      rw [e] at h <;> cases h
    exact wf_writeFields _ hw _
  cases i with
  | nop => cases h; exact hw
  | gfMul | gfPow | polyMul | genPoly | rsEcc | polyEval | packBits =>
    simp only [runOf, runGfMul, runGfPow, runPolyMul, runGenPoly, runRsEcc, runPolyEval, runPackBits] at h
    repeat (split at h; · cases h)
    cases h
    first
      | exact hw
      | exact wf_writeBytes _ hw _
      | exact wf_bitWrite _ hw _ _
  | packNum => exact pack false numBits numEncode h
  | packAlnum => exact pack false alnumBits alnumEncode h
  | packKanji => exact pack true kanjiBits kanjiEncode h
  | packByte => exact pack false byteBits byteEncode h
  | maskApply => obtain rfl := firstError_ok h; exact board _ _ hw
  | maskScore =>
    obtain rfl := firstError_ok h
    unfold putScore
    split <;> exact hw
  | maskSelect commit force =>
    cases force <;> cases commit <;> (obtain rfl := firstError_ok h; first | exact hw | exact board _ _ hw)

theorem exec_wf {i : Instr} {s t : State} (hw : s.ram.wf = true) (h : exec i s = .next t) : t.ram.wf = true := by
  rcases exec_cases h with ⟨_, _, rfl⟩ | ⟨u, hu, _, rfl⟩
  · exact hw
  · exact runOf_wf (t := u) hw hu

end Sys2Proof.Machine
end

