-- ==== Sys2Proof/Laws/Bus.lean ====
section
/-! SUPPORT. What a step, a transaction and a register write can do, said once each. -/

namespace Sys2Proof.Machine

/-- Running the command in CMD: its execution, or the report of a word that does not decode. -/
theorem runCommand_cases {s t : State} (h : runCommand s = .next t) :
    (∃ i, decodeWord s.cmd = .ok i ∧ exec i s = .next t) ∨
    (∃ e, decodeWord s.cmd = .error e ∧
      t = failsWith s (decodeFailure e).kind.code (decodeFailure e).sub.code (decodeFailure e).idx) := by
  unfold runCommand at h
  cases hd : decodeWord s.cmd with
  | ok i => rw [hd] at h; exact .inl ⟨i, rfl, h⟩
  | error e => rw [hd] at h; exact .inr ⟨e, rfl, (Host.Outcome.next.inj h).symm⟩

theorem runCommand_next (s : State) : ∃ t, runCommand s = .next t := by
  unfold runCommand
  cases decodeWord s.cmd with
  | ok i => exact ⟨_, exec_eq i s⟩
  | error e => exact ⟨_, rfl⟩

/-- A command that has run is over. -/
theorem runCommand_ends {s t : State} (h : runCommand s = .next t) :
    t.status.busy = false ∧ t.wait = 0 ∧ t.status.done = true := by
  rcases runCommand_cases h with ⟨i, _, hx⟩ | ⟨e, _, rfl⟩
  · rcases exec_cases hx with ⟨_, _, rfl⟩ | ⟨_, _, _, rfl⟩ <;> exact ⟨rfl, rfl, rfl⟩
  · exact ⟨rfl, rfl, rfl⟩

/-- Everything a step can do: run the command, take an event while a command runs, take one while none does, or nothing. -/
theorem step_cases {s t : State} (h : step s = .next t) :
    (s.status.busy = true ∧ (s.host = [] ∨ s.wait = 0) ∧ runCommand s = .next t) ∨
    (∃ ev rest, s.status.busy = true ∧ s.host = ev :: rest ∧ s.wait ≠ 0 ∧
      t = takeEvent { s with host := rest, wait := s.wait - 1 } ev) ∨
    (∃ ev rest, s.status.busy = false ∧ s.host = ev :: rest ∧ t = takeEvent { s with host := rest } ev) ∨
    (s.status.busy = false ∧ s.host = [] ∧ t = s) := by
  unfold step at h
  cases hb : s.status.busy <;> cases hh : s.host <;> rw [hb, hh] at h <;> dsimp only at h
  · exact .inr (.inr (.inr ⟨rfl, rfl, (Host.Outcome.next.inj h).symm⟩))
  · exact .inr (.inr (.inl ⟨_, _, rfl, rfl, (Host.Outcome.next.inj h).symm⟩))
  · exact .inl ⟨rfl, .inl rfl, h⟩
  · split at h
    · next hw => exact .inl ⟨rfl, .inr hw, h⟩
    · next hw => exact .inr (.inl ⟨_, _, rfl, rfl, hw, (Host.Outcome.next.inj h).symm⟩)

/-- A running command with no host event before it runs. -/
theorem step_run {s : State} (hb : s.status.busy = true) (hh : s.host = [] ∨ s.wait = 0) : step s = runCommand s := by
  unfold step
  rw [hb]
  cases h : s.host with
  | nil => rfl
  | cons ev rest => exact if_pos (hh.resolve_left (by simp [h]))

theorem step_next (s : State) : ∃ t, step s = .next t := by
  unfold step
  cases s.status.busy <;> cases s.host <;> dsimp only
  · exact ⟨_, rfl⟩
  · exact ⟨_, rfl⟩
  · exact runCommand_next s
  · split
    · exact runCommand_next s
    · exact ⟨_, rfl⟩

theorem serve_read (s : State) (off : Offset) (size : Size) : (serve s (.read off size)).1 = s := by
  simp only [serve]
  split <;> rfl

theorem serve_read_reg {s : State} {off : Offset} {size : Size} {r : Reg} (h : target s off size = some (.reg r)) :
    serve s (.read off size) = (s, ⟨true, readReg s r⟩) := by
  simp only [serve, h]; rfl

theorem serve_write_none {s : State} {off : Offset} {size : Size} (w : Word) (h : target s off size = none) :
    serve s (.write off size w) = (s, ⟨false, 0⟩) := by simp only [serve, h]; rfl

theorem serve_write_reg {s : State} {off : Offset} {size : Size} {r : Reg} (w : Word)
    (h : target s off size = some (.reg r)) : serve s (.write off size w) = (writeReg s w r, ⟨true, 0⟩) := by
  simp only [serve, h]; rfl

theorem serve_write_mem {s : State} {off : Offset} {size : Size} {win : Window} (w : Word)
    (h : target s off size = some (.mem win)) : serve s (.write off size w) =
      ({ s with ram := writeBytes s.ram off.toNat (toLittleEndian size.bytes w.toNat) }, ⟨true, 0⟩) := by
  simp only [serve, h]; rfl

/-- One step of a run. -/
theorem core_run_succ {s t : State} (h : step s = .next t) (k : Nat) : core.run (k + 1) s = core.run k t := by
  have hc : core.step s = .next t := h
  simp only [Host.Core.run, hc]

/-- Everything a transaction can do to the state: nothing, a register write, or a memory write while nothing runs or to
a ROM. -/
theorem serve_cases (s : State) (t : Transaction) :
    (serve s t).1 = s ∨
    (∃ off w r, t = .write off .four w ∧ regAt off.toNat = some r ∧ serve s t = (writeReg s w r, ⟨true, 0⟩)) ∨
    (∃ off size w win, t = .write off size w ∧ windowAt off.toNat = some win ∧
      (win.isRam = true → s.status.busy = false) ∧ off.toNat % size.bytes = 0 ∧
      serve s t = ({ s with ram := writeBytes s.ram off.toNat (toLittleEndian size.bytes w.toNat) }, ⟨true, 0⟩)) := by
  cases t with
  | read off size => exact .inl (serve_read s off size)
  | write off size w =>
    cases ht : target s off size with
    | none => exact .inl (by rw [serve_write_none w ht])
    | some x =>
      right
      have ht' := ht
      unfold target at ht
      cases hw : windowAt off.toNat with
      | none =>
        rw [hw] at ht
        dsimp only at ht
        split at ht
        · next hs =>
          subst hs
          cases hr : regAt off.toNat with
          | none => rw [hr] at ht; cases ht
          | some r => rw [hr] at ht; cases ht; exact .inl ⟨off, w, r, rfl, hr, serve_write_reg w ht'⟩
        · cases ht
      | some win =>
        rw [hw] at ht
        dsimp only at ht
        split at ht
        · next hc =>
          cases ht
          refine .inr ⟨off, size, w, win, rfl, hw, fun hr => ?_, hc.1, serve_write_mem w ht'⟩
          cases hb : s.status.busy
          · rfl
          · exact absurd ⟨hr, hb⟩ hc.2
        · cases ht

/-- A word that does not decode waits for nothing (30_encoding.md R82). -/
theorem launchWait_illegal {w : Word} {e : Sys2Proof.DecodeError} (h : decodeWord w = .error e) (s : State) :
    launchWait s w = 0 := by
  unfold launchWait
  rw [h]

theorem launchWait_legal {w : Word} {i : Instr} (h : decodeWord w = .ok i) (s : State) :
    launchWait s w = Config.latency s.draws := by
  unfold launchWait
  rw [h]

/-- Everything a register write can do: nothing, a write to CTRL with and without SRST, to STATUS, one dropped, a launch,
or a new ARG or BCFG. -/
theorem writeReg_cases (s : State) (w : Word) (r : Reg) :
    writeReg s w r = s ∨
    (r = .ctrl ∧ w.getLsbD 1 = true ∧ writeReg s w r = { softReset s with ctrl := ⟨w.getLsbD 0⟩ }) ∨
    (r = .ctrl ∧ w.getLsbD 1 = false ∧ writeReg s w r = { s with ctrl := ⟨w.getLsbD 0⟩ }) ∨
    (r = .status ∧ writeReg s w r = acknowledge s w) ∨
    (s.status.busy = true ∧ writeReg s w r = dropWrite s) ∨
    (s.status.busy = false ∧ r = .cmd ∧ writeReg s w r = launch s w (launchWait s w)) ∨
    (s.status.busy = false ∧ ∃ n, r = .arg n ∧ writeReg s w r = { s with args := s.args.set w n }) ∨
    (s.status.busy = false ∧ r = .bcfg ∧ writeReg s w r = { s with bcfg := Bcfg.ofWord w }) := by
  cases r with
  | id | res | errInfo | score | pen => exact .inl rfl
  | ctrl =>
    right
    cases hb : w.getLsbD 1
    · exact .inr (.inl ⟨rfl, rfl, by simp only [writeReg, writeCtrl, hb]; rfl⟩)
    · exact .inl ⟨rfl, rfl, by simp [writeReg, writeCtrl, hb]⟩
  | status => exact .inr (.inr (.inr (.inl ⟨rfl, rfl⟩)))
  | cmd =>
    cases hb : s.status.busy
    · exact .inr (.inr (.inr (.inr (.inr (.inl ⟨rfl, rfl, by simp [writeReg, hb]⟩)))))
    · exact .inr (.inr (.inr (.inr (.inl ⟨rfl, by simp [writeReg, hb]⟩))))
  | arg n =>
    cases hb : s.status.busy
    · exact .inr (.inr (.inr (.inr (.inr (.inr (.inl ⟨rfl, n, rfl, by simp [writeReg, hb]⟩))))))
    · exact .inr (.inr (.inr (.inr (.inl ⟨rfl, by simp [writeReg, hb]⟩))))
  | bcfg =>
    cases hb : s.status.busy
    · exact .inr (.inr (.inr (.inr (.inr (.inr (.inr ⟨rfl, rfl, by simp [writeReg, hb]⟩))))))
    · exact .inr (.inr (.inr (.inr (.inl ⟨rfl, by simp [writeReg, hb]⟩))))

/-- The RAM after a soft reset: the same, but for the destination of a command that would have succeeded. -/
theorem abortedRam_cases (s : State) :
    abortedRam s = s.ram ∨
    ∃ i, s.status.busy = true ∧ decodeWord s.cmd = .ok i ∧ wouldSucceed i s = true ∧
      abortedRam s = forgetRegion s.ram (destination i s) := by
  unfold abortedRam
  cases hb : s.status.busy with
  | false => exact .inl rfl
  | true =>
    rw [if_pos rfl]
    cases hd : decodeWord s.cmd with
    | error e => exact .inl rfl
    | ok i =>
      dsimp only
      by_cases hw : wouldSucceed i s = true
      · rw [if_pos hw]; exact .inr ⟨i, rfl, rfl, hw, rfl⟩
      · rw [if_neg hw]; exact .inl rfl

theorem wf_forgetRegion {m : Memory} (h : m.wf = true) (d : Destination) : (forgetRegion m d).wf = true := by
  cases d with
  | nothing => exact h
  | bytes base n => exact wf_forgetBytes n h base
  | bits p n => exact wf_forgetBitRange n h p

theorem wf_abortedRam {s : State} (h : s.ram.wf = true) : (abortedRam s).wf = true := by
  rcases abortedRam_cases s with e | ⟨i, _, _, _, e⟩ <;> rw [e]
  · exact h
  · exact wf_forgetRegion h _

/-- A register write keeps the RAM canonical. -/
theorem wf_writeReg {s : State} (h : s.ram.wf = true) (w : Word) (r : Reg) : (writeReg s w r).ram.wf = true := by
  rcases writeReg_cases s w r with e | ⟨_, _, e⟩ | ⟨_, _, e⟩ | ⟨_, e⟩ | ⟨_, e⟩ | ⟨_, _, e⟩ | ⟨_, _, _, e⟩ | ⟨_, _, e⟩ <;>
    rw [e]
  case inr.inl => exact wf_abortedRam h
  all_goals exact h

theorem wf_serve {s : State} (h : s.ram.wf = true) (t : Transaction) : (serve s t).1.ram.wf = true := by
  rcases serve_cases s t with e | ⟨_, w, r, _, _, e⟩ | ⟨off, size, w, win, _, _, _, _, e⟩ <;> rw [e]
  · exact h
  · exact wf_writeReg h w r
  · exact wf_writeBytes _ h _

/-- A transaction, and a register write, never touch the events still to come. -/
theorem writeReg_host (s : State) (w : Word) (r : Reg) : (writeReg s w r).host = s.host := by
  rcases writeReg_cases s w r with e | ⟨_, _, e⟩ | ⟨_, _, e⟩ | ⟨_, e⟩ | ⟨_, e⟩ | ⟨_, _, e⟩ | ⟨_, _, _, e⟩ | ⟨_, _, e⟩ <;>
    rw [e] <;> rfl

theorem serve_host (s : State) (t : Transaction) : (serve s t).1.host = s.host := by
  rcases serve_cases s t with e | ⟨_, w, r, _, _, e⟩ | ⟨off, size, w, win, _, _, _, _, e⟩ <;> rw [e]
  exact writeReg_host s w r

theorem takeEvent_host (s : State) (ev : HostEvent) : (takeEvent s ev).host = s.host := by
  cases ev
  · exact serve_host s _
  · rfl

/-- While a command runs, a transaction lets it run on with the same word and the same wait, or ends it. -/
theorem writeReg_busy {s : State} (h : s.status.busy = true) (w : Word) (r : Reg) :
    (writeReg s w r).status.busy = false ∨
      ((writeReg s w r).status.busy = true ∧ (writeReg s w r).wait = s.wait ∧ (writeReg s w r).cmd = s.cmd) := by
  rcases writeReg_cases s w r with e | ⟨_, _, e⟩ | ⟨_, _, e⟩ | ⟨_, e⟩ | ⟨_, e⟩ | ⟨hb, _, e⟩ | ⟨hb, _, _, e⟩ | ⟨hb, _, e⟩ <;>
    rw [e]
  case inr.inl => exact .inl rfl
  all_goals first
    | exact .inr ⟨h, rfl, rfl⟩
    | (rw [hb] at h; cases h)

theorem takeEvent_busy {s : State} (h : s.status.busy = true) (ev : HostEvent) :
    (takeEvent s ev).status.busy = false ∨
      ((takeEvent s ev).status.busy = true ∧ (takeEvent s ev).wait = s.wait ∧ (takeEvent s ev).cmd = s.cmd) := by
  cases ev with
  | powerOnReset => exact .inl rfl
  | bus t =>
    show (serve s t).1.status.busy = false ∨
      ((serve s t).1.status.busy = true ∧ (serve s t).1.wait = s.wait ∧ (serve s t).1.cmd = s.cmd)
    rcases serve_cases s t with e | ⟨_, w, r, _, _, e⟩ | ⟨off, size, w, win, _, _, _, _, e⟩ <;> rw [e]
    · exact .inr ⟨h, rfl, rfl⟩
    · exact writeReg_busy h w r
    · exact .inr ⟨h, rfl, rfl⟩

end Sys2Proof.Machine
end

