-- ==== Sys2Proof/Laws/Map.lean ====
section
/-! SUPPORT. Where the registers lie, what a transaction reaches, the bits of the words the registers read
as, and bytes as little-endian numbers. -/

namespace Sys2Proof.Machine

theorem regAt_listed : ∀ o ∈ registerOffsets, (regAt o).isSome = true := by decide

theorem regAt_iff (a : Nat) : (∃ r, regAt a = some r) ↔ a ∈ registerOffsets := by
  refine ⟨fun ⟨r, h⟩ => ?_, fun h => Option.isSome_iff_exists.1 (regAt_listed a h)⟩
  unfold regAt at h
  unfold registerOffsets
  split at h <;> first | (cases h; done) | simp

/-- Every register stands at its offset (20_memory.md R52). -/
theorem regAt_offset (r : Reg) : regAt r.offset = some r := by
  cases r with
  | arg n | res n | score n | pen n => revert n; decide
  | id | ctrl | status | cmd | errInfo | bcfg => rfl

theorem registerOffsets_lt {a : Nat} (h : a ∈ registerOffsets) : a < 0x1000 ∧ a % 4 = 0 := by
  revert h
  unfold registerOffsets
  simp only [List.mem_cons, List.not_mem_nil, or_false]
  omega

theorem target_reg {s : State} {off : Offset} (r : Reg) (hr : regAt off.toNat = some r) :
    target s off .four = some (.reg r) := by
  have hw : windowAt off.toNat = none :=
    (windowAt_none_iff off.isLt).2 (.inl (registerOffsets_lt ((regAt_iff _).1 ⟨r, hr⟩)).1)
  unfold target
  rw [hw]
  simp [hr]

/-- A register, accessed as a whole word at its offset, is what the transaction reaches, BUSY or not (20_memory.md R50). -/
theorem target_offset (s : State) (r : Reg) : target s (BitVec.ofNat 16 r.offset) .four = some (.reg r) := by
  apply target_reg
  have h := regAt_offset r
  have hlt := (registerOffsets_lt ((regAt_iff _).1 ⟨r, h⟩)).1
  rwa [show (BitVec.ofNat 16 r.offset).toNat = r.offset from Nat.mod_eq_of_lt (by omega)]

/-- A naturally aligned access to a RAM that is not locked reaches it. -/
theorem target_ram {s : State} {off : Offset} {size : Size} (hb : s.status.busy = false) (hr : isRam off.toNat = true)
    (ha : off.toNat % size.bytes = 0) : ∃ win, target s off size = some (.mem win) := by
  unfold isRam at hr
  cases hw : windowAt off.toNat with
  | none => rw [hw] at hr; cases hr
  | some win => exact ⟨win, by unfold target; rw [hw]; simp [ha, hb]⟩

/-- An aligned access to a RAM stays in it. -/
theorem isRam_span {a : Nat} {size : Size} (hr : isRam a = true) (ha : a % size.bytes = 0) {k : Nat}
    (hk : k < size.bytes) : isRam (a + k) = true := by
  rw [isRam_iff] at *
  cases size <;> simp only [Size.bytes] at * <;> omega

/-- The bits STATUS reads as (10_state.md R20). -/
theorem statusWord_bit (st : Status) {j : Nat} (hj : j < 32) : st.word.getLsbD j =
    if j = 0 then st.busy else if j = 1 then st.done else if j = 2 then st.err else if j = 3 then st.ovr
    else if 8 ≤ j ∧ j < 12 then st.ecode.getLsbD (j - 8) else false := by
  cases st with
  | mk a b c d e => interval_cases j <;> cases a <;> cases b <;> cases c <;> cases d <;> revert e <;> decide

/-- What BCFG reads as after a write: VER and MICRO of the word (10_state.md R29). -/
theorem bcfgWord_ofWord (w : Word) : (Bcfg.ofWord w).word = w &&& 0x13F#32 := by
  apply BitVec.eq_of_getLsbD_eq
  intro i hi
  unfold Bcfg.word Bcfg.ofWord bit
  rw [BitVec.getLsbD_append (n := 23) (m := 9), BitVec.getLsbD_append (n := 1) (m := 8),
    BitVec.getLsbD_append (n := 2) (m := 6)]
  interval_cases i <;> simp

theorem length_toLittleEndian (n v : Nat) : (toLittleEndian n v).length = n := by
  induction n generalizing v with
  | zero => rfl
  | succ n ih => simp [toLittleEndian, ih]

theorem getD_toLittleEndian {n k : Nat} (v : Nat) (hk : k < n) :
    ((toLittleEndian n v).getD k 0#8).toNat = v / 256 ^ k % 256 := by
  induction n generalizing v k with
  | zero => omega
  | succ n ih =>
    cases k with
    | zero => simp [toLittleEndian]
    | succ k =>
      simp only [toLittleEndian, List.getD_cons_succ]
      rw [ih _ (by omega), Nat.div_div_eq_div_mul, pow_succ']

theorem littleEndian_toLittleEndian (n v : Nat) : littleEndian (toLittleEndian n v) = v % 256 ^ n := by
  induction n generalizing v with
  | zero => simp [toLittleEndian, littleEndian, Nat.mod_one]
  | succ n ih =>
    simp only [toLittleEndian, littleEndian, ih]
    rw [pow_succ', Nat.mod_mul]
    simp

theorem littleEndian_lt (bs : List Byte) : littleEndian bs < 256 ^ bs.length := by
  induction bs with
  | nil => simp [littleEndian]
  | cons b bs ih =>
    have := b.isLt
    simp only [littleEndian, List.length_cons, pow_succ']
    omega

/-- The bytes of a little-endian number. -/
theorem littleEndian_digit (bs : List Byte) (k : Nat) : littleEndian bs / 256 ^ k % 256 = (bs.getD k 0#8).toNat := by
  induction bs generalizing k with
  | nil => simp [littleEndian]
  | cons b bs ih =>
    have := b.isLt
    cases k with
    | zero => simp [littleEndian]; omega
    | succ k =>
      rw [pow_succ', ← Nat.div_div_eq_div_mul]
      have : littleEndian (b :: bs) / 256 = littleEndian bs := by simp only [littleEndian]; omega
      rw [this, ih, List.getD_cons_succ]

/-- What a write to RAM leaves outside its bytes. -/
theorem byteKept_writeBytes {m : Memory} (h : m.wf = true) (bs : List Byte) {a x : Nat}
    (hx : x < a ∨ a + bs.length ≤ x) : byteKept m (writeBytes m a bs) x := by
  have hn : ¬ (a ≤ x ∧ x < a + bs.length ∧ isRam x = true) := by omega
  have hk : planeGet (writeBytes m a bs).known x = planeGet m.known x := by rw [writeBytes_known bs h, if_neg hn]
  have hv : planeGet (writeBytes m a bs).val x = planeGet m.val x := by rw [writeBytes_val bs h, if_neg hn]
  exact ⟨hk, hv, fun d => readByte_congr d hk hv⟩

end Sys2Proof.Machine
end

