-- ==== Sys2Proof/Laws/Lengths.lean ====
section
/-! SUPPORT. How many bytes and bits each command writes, and that a command's writes stay in its destination region. -/

namespace Sys2Proof.Machine

@[simp] theorem length_xorInto (p q : List Byte) : (xorInto p q).length = max p.length q.length := by
  induction p generalizing q with
  | nil => simp [xorInto]
  | cons a p ih =>
    cases q with
    | nil => simp [xorInto]
    | cons b q => simp [xorInto, ih]

theorem length_polyMul (p q : List Byte) (hq : 1 ≤ q.length) :
    (polyMul p q).length = if p = [] then 0 else p.length + q.length - 1 := by
  induction p with
  | nil => rfl
  | cons a p ih =>
    simp only [polyMul, length_xorInto, List.length_map, List.length_cons, ih, reduceCtorEq, if_false]
    split
    · next h => subst h; simp; omega
    · next h =>
      have : p.length ≠ 0 := fun e => h (List.length_eq_zero_iff.1 e)
      omega

@[simp] theorem length_genPoly (k : Nat) : (genPoly k).length = k + 1 := by
  induction k with
  | zero => rfl
  | succ k ih =>
    rw [genPoly, length_polyMul _ _ (by simp), if_neg, ih]
    · simp
    · intro h
      rw [h] at ih
      simp at ih

theorem length_divideSteps (g : List Byte) : ∀ (n : Nat) (r : List Byte), n + g.length ≤ r.length + 1 →
    (divideSteps g n r).length = r.length - n
  | 0, r, _ => rfl
  | n + 1, [], h => by simp [divideSteps]
  | n + 1, c :: r, h => by
    simp only [List.length_cons] at h
    simp only [divideSteps, List.length_cons]
    split
    · rw [length_divideSteps g n r (by omega)]; omega
    · have hl : (xorInto (c :: r) (g.map fun x => gfMul x c)).tail.length = r.length := by simp; omega
      rw [length_divideSteps g n _ (by rw [hl]; omega), hl]
      omega

@[simp] theorem length_rsRemainder (msg : List Byte) (k : Nat) : (rsRemainder msg k).length = k := by
  unfold rsRemainder
  rw [length_divideSteps _ _ _ (by simp; omega)]
  simp

theorem length_applyMaskFrom (dim m : Nat) : ∀ (t : Nat) (cells : List Byte),
    (applyMaskFrom dim m t cells).length = cells.length
  | _, [] => rfl
  | t, _ :: bs => by simp [applyMaskFrom, length_applyMaskFrom dim m (t + 1) bs]

@[simp] theorem length_applyMask (dim m : Nat) (cells : List Byte) : (applyMask dim m cells).length = cells.length :=
  length_applyMaskFrom dim m 0 cells

@[simp] theorem length_boardCells (s : State) : (boardCells s).length = dimOf s * dimOf s := length_readBytes _ _ _ _

/-! ## The fields of the packers -/

theorem length_charValues {value : Byte → Option Nat} : ∀ {bs : List Byte} {off : Nat} {vs : List Nat},
    charValues value off bs = .ok vs → vs.length = bs.length
  | [], _, vs, h => by cases h; rfl
  | b :: bs, off, vs, h => by
    unfold charValues at h
    cases hv : value b with
    | none => rw [hv] at h; cases h
    | some v =>
      cases hr : charValues value (off + 1) bs with
      | error e => rw [hv, hr] at h; cases h
      | ok ws => rw [hv, hr] at h; cases h; simp [length_charValues hr]

theorem length_pairValues : ∀ {bs : List Byte} {off : Nat} {vs : List Nat},
    pairValues off bs = .ok vs → vs.length = bs.length / 2
  | [], _, vs, h => by cases h; rfl
  | [_], _, vs, h => by cases h; simp
  | hi :: lo :: bs, off, vs, h => by
    unfold pairValues at h
    cases hv : kanjiValue (hi.toNat * 256 + lo.toNat) with
    | none => rw [hv] at h; cases h
    | some v =>
      cases hr : pairValues (off + 2) bs with
      | error e => rw [hv, hr] at h; cases h
      | ok ws =>
        rw [hv, hr] at h
        cases h
        simp only [List.length_cons, length_pairValues hr]
        omega

theorem fieldsWidth_numFields : ∀ ds : List Nat, fieldsWidth (numFields ds) = numBits ds.length
  | [] => rfl
  | [_] => by simp [numFields, numBits]
  | [_, _] => by simp [numFields, numBits]
  | a :: b :: c :: ds => by
    simp only [numFields, fieldsWidth_cons, fieldsWidth_numFields ds, List.length_cons, numBits]
    have h1 : (ds.length + 1 + 1 + 1) / 3 = ds.length / 3 + 1 := by omega
    have h2 : (ds.length + 1 + 1 + 1) % 3 = ds.length % 3 := by omega
    simp only [h1, h2]
    omega

theorem fieldsWidth_alnumFields : ∀ vs : List Nat, fieldsWidth (alnumFields vs) = alnumBits vs.length
  | [] => rfl
  | [_] => by simp [alnumFields, alnumBits]
  | a :: b :: vs => by
    simp only [alnumFields, fieldsWidth_cons, fieldsWidth_alnumFields vs, List.length_cons, alnumBits]
    omega

theorem fieldsWidth_map {α : Type} (w : Nat) (f : α → Nat) (vs : List α) :
    fieldsWidth (vs.map fun v => (w, f v)) = w * vs.length := by
  induction vs with
  | nil => rfl
  | cons v vs ih =>
    simp only [List.map_cons, fieldsWidth_cons, ih, List.length_cons]
    ring

theorem map_eq_ok {α β ε : Type} {x : Except ε α} {f : α → β} {y : β} (h : x.map f = .ok y) :
    ∃ a, x = .ok a ∧ y = f a := by
  cases x with
  | error e => cases h
  | ok a => exact ⟨a, rfl, (Except.ok.inj h).symm⟩

theorem fieldsWidth_num {bs : List Byte} {fs : List Field} (h : numEncode bs = .ok fs) :
    fieldsWidth fs = numBits bs.length := by
  obtain ⟨vs, hv, rfl⟩ := map_eq_ok h
  rw [fieldsWidth_numFields, length_charValues hv]

theorem fieldsWidth_alnum {bs : List Byte} {fs : List Field} (h : alnumEncode bs = .ok fs) :
    fieldsWidth fs = alnumBits bs.length := by
  obtain ⟨vs, hv, rfl⟩ := map_eq_ok h
  rw [fieldsWidth_alnumFields, length_charValues hv]

theorem fieldsWidth_kanji {bs : List Byte} {fs : List Field} (h : kanjiEncode bs = .ok fs) :
    fieldsWidth fs = kanjiBits bs.length := by
  obtain ⟨vs, hv, rfl⟩ := map_eq_ok h
  rw [fieldsWidth_map, length_pairValues hv, kanjiBits]

theorem fieldsWidth_byte {bs : List Byte} {fs : List Field} (h : byteEncode bs = .ok fs) :
    fieldsWidth fs = byteBits bs.length := by
  cases h
  rw [fieldsWidth_map, byteBits]

/-! ## Where a command writes -/

/-- Bit `j` of the byte at `a` is left alone, in value and in having one. -/
def sameBit (m m' : Memory) (a j : Nat) : Prop :=
  (planeGet m'.known a).getLsbD j = (planeGet m.known a).getLsbD j ∧
    (planeGet m'.val a).getLsbD j = (planeGet m.val a).getLsbD j

theorem sameBit_refl (m : Memory) (a j : Nat) : sameBit m m a j := ⟨rfl, rfl⟩

/-- A bit of BITBUF's range, as the destination regions say it. -/
theorem inRegion_bits {p n a j : Nat} (hj : j < 8) (hn : p + n ≤ 32768) :
    inRegion (.bits p n) a j ↔ bitIn p n a j := by
  unfold bitIn
  constructor
  · rintro ⟨q, h1, h2, rfl, rfl⟩
    have := (bit_place (p := q) hj).1 ⟨by omega, rfl, rfl⟩
    omega
  · rintro ⟨h1, h2, h3, h4⟩
    have := (bit_place (p := bitIndex a j) hj).2 ⟨h1, h2, rfl⟩
    exact ⟨_, h3, h4, this.2.1, this.2.2⟩

theorem sameBit_writeBytes {m : Memory} (h : m.wf = true) (bs : List Byte) {a x j : Nat}
    (hx : ¬ (a ≤ x ∧ x < a + bs.length)) : sameBit m (writeBytes m a bs) x j := by
  obtain ⟨hk, hv, _⟩ := byteKept_writeBytes h bs (a := a) (x := x) (by omega)
  exact ⟨by rw [hk], by rw [hv]⟩

/-- The mode packers write only the bits they report. -/
theorem runPack_region {paired : Bool} {nbits : Nat → Nat} {fields : List Byte → Except Nat (List Field)} {s t : State}
    (hw : s.ram.wf = true) (hf : ∀ {bs fs}, fields bs = .ok fs → fieldsWidth fs = nbits bs.length)
    (h : runPack paired nbits fields s = .ok t) {a j : Nat} (hj : j < 8)
    (hn : ¬ inRegion (.bits (arg2 s) (nbits (arg1 s))) a j) : sameBit s.ram t.ram a j := by
  rcases runPack_cases paired nbits fields s with ⟨_, e⟩ | ⟨_, _, _, e⟩ | ⟨_, _, _, e⟩ | ⟨_, _, hr, ⟨_, _, e⟩ | ⟨fs, hfs, e⟩⟩ <;>
    rw [e] at h <;> cases h
  rw [inRegion_bits hj hr] at hn
  have hl : (packInput s).length = arg1 s := length_readBytes _ _ _ _
  exact writeFields_out fs hw (arg2 s) hj (by rw [hf hfs, hl]; exact hn)

/-- A command that raises nothing changes no memory bit outside its destination region. -/
theorem runOf_region {i : Instr} {s t : State} (hw : s.ram.wf = true) (h : runOf i s = .ok t) {a j : Nat} (hj : j < 8)
    (hn : ¬ inRegion (destination i s) a j) : sameBit s.ram t.ram a j := by
  have board : ∀ cells : List Byte, cells.length = dimOf s * dimOf s →
      ¬ inRegion (.bytes 0x8000 (dimOf s * dimOf s)) a j → sameBit s.ram (writeBytes s.ram 0x8000 cells) a j :=
    fun cells hc hn => sameBit_writeBytes hw cells (by rw [hc]; exact hn)
  cases i with
  | nop => cases h; exact sameBit_refl _ _ _
  | gfMul | gfPow | polyEval =>
    simp only [runOf, runGfMul, runGfPow, runPolyEval] at h
    repeat (split at h; · cases h)
    cases h; exact sameBit_refl _ _ _
  | polyMul =>
    simp only [runOf, runPolyMul] at h
    repeat (split at h; · cases h)
    cases h
    refine sameBit_writeBytes hw _ ?_
    rw [length_polyMul _ _ (by simp [memBBytes]; omega)]
    have hm : (memABytes s (arg0 s)).length = arg0 s := length_readBytes _ _ _ _
    have hm2 : (memBBytes s (arg1 s)).length = arg1 s := length_readBytes _ _ _ _
    rw [if_neg, hm, hm2]
    · exact hn
    · intro h0; rw [h0] at hm; simp at hm; omega
  | genPoly =>
    simp only [runOf, runGenPoly] at h
    repeat (split at h; · cases h)
    cases h
    exact sameBit_writeBytes hw _ (by rw [length_genPoly]; exact hn)
  | rsEcc =>
    simp only [runOf, runRsEcc] at h
    repeat (split at h; · cases h)
    cases h
    exact sameBit_writeBytes hw _ (by rw [length_rsRemainder]; exact hn)
  | packNum => exact runPack_region (nbits := numBits) (fields := numEncode) (paired := false) hw fieldsWidth_num h hj hn
  | packAlnum =>
    exact runPack_region (nbits := alnumBits) (fields := alnumEncode) (paired := false) hw fieldsWidth_alnum h hj hn
  | packKanji =>
    exact runPack_region (nbits := kanjiBits) (fields := kanjiEncode) (paired := true) hw fieldsWidth_kanji h hj hn
  | packByte =>
    exact runPack_region (nbits := byteBits) (fields := byteEncode) (paired := false) hw fieldsWidth_byte h hj hn
  | packBits =>
    simp only [runOf, runPackBits] at h
    repeat (split at h; · cases h)
    cases h
    have hb : arg2 s + arg1 s ≤ 32768 := by simp [bitbufBits] at *; omega
    have hn' : ¬ bitIn (arg2 s) (arg1 s) a j := by rw [← inRegion_bits hj hb]; exact hn
    exact ⟨bitWrite_known_out hw _ _ _ hj hn', bitWrite_val_out hw _ _ _ hj hn'⟩
  | maskApply =>
    obtain rfl := firstError_ok h
    exact board _ (by simp) hn
  | maskScore =>
    obtain rfl := firstError_ok h
    unfold putScore
    split <;> exact sameBit_refl _ _ _
  | maskSelect commit force =>
    cases force <;> cases commit <;> obtain rfl := firstError_ok h
    · exact sameBit_refl _ _ _
    · exact board _ (by simp) hn
    · exact sameBit_refl _ _ _
    · exact board _ (by simp) hn

/-- The same, for exec: whatever the outcome, no memory bit outside the destination region changes. -/
theorem exec_region {i : Instr} {s t : State} (hw : s.ram.wf = true) (h : exec i s = .next t) {a j : Nat} (hj : j < 8)
    (hn : ¬ inRegion (destination i s) a j) : sameBit s.ram t.ram a j := by
  rcases exec_cases h with ⟨_, _, rfl⟩ | ⟨u, hu, _, rfl⟩
  · exact sameBit_refl _ _ _
  · exact runOf_region (t := u) hw hu hj hn

end Sys2Proof.Machine
end

