-- ==== Sys2Proof/Laws/PerInstr.lean ====
section
/-! SUPPORT. Statements about every command, one lemma a constructor: the word of a command is legal (30_encoding.md R80)
and carries its opcode (R73, R74). -/

namespace Sys2Proof.Laws

/-- The command's word is legal and holds its opcode in bits 7:0. -/
def EncodedWord.Statement (i : Instr) : Prop := legalWord (encode i) = true ∧ opcField (encode i) = i.opcode

namespace EncodedWord

theorem nop : Statement .nop := by unfold Statement; decide

theorem gfMul : Statement .gfMul := by unfold Statement; decide

theorem gfPow : Statement .gfPow := by unfold Statement; decide

theorem polyMul : Statement .polyMul := by unfold Statement; decide

theorem genPoly : Statement .genPoly := by unfold Statement; decide

theorem rsEcc : Statement .rsEcc := by unfold Statement; decide

theorem polyEval : Statement .polyEval := by unfold Statement; decide

theorem packNum : Statement .packNum := by unfold Statement; decide

theorem packAlnum : Statement .packAlnum := by unfold Statement; decide

theorem packKanji : Statement .packKanji := by unfold Statement; decide

theorem packByte : Statement .packByte := by unfold Statement; decide

theorem packBits : Statement .packBits := by unfold Statement; decide

theorem maskApply : Statement .maskApply := by unfold Statement; decide

theorem maskScore : Statement .maskScore := by unfold Statement; decide

theorem maskSelect (commit force : Bool) : Statement (.maskSelect commit force) := by
  unfold Statement
  revert commit force
  decide

end EncodedWord

end Sys2Proof.Laws
end

