-- ==== Sys2Proof/Tests/Slice0.lean ====
section
/-! SUPPORT. The model's own tests: words written out from 30_encoding.md, vectors of 95_test_vectors.md, and one witness
for the hypotheses of each statement. Expected results come from the spec's tables. -/

namespace Sys2Proof.Machine.Tests

/-! ## States to test on -/

def argState (a0 a1 a2 : Nat) : State :=
  { State.reset with args := ⟨BitVec.ofNat 32 a0, BitVec.ofNat 32 a1, BitVec.ofNat 32 a2, 0⟩ }

def load (a : Nat) (bs : List Byte) (s : State) : State := { s with ram := writeBytes s.ram a bs }

def config (ver : Nat) (micro : Bool) (s : State) : State := { s with bcfg := ⟨BitVec.ofNat 6 ver, micro⟩ }

/-- A state in which the word `w` runs, `wait` events being let pass. -/
def running (w : Word) (wait : Nat) (s : State) : State := launch s w wait

/-- Board B-MICRO-1 of 95_test_vectors.md section 2.4. -/
def boardMicro1 : List Byte :=
  [0x01, 0x01, 0x01, 0x01, 0x01, 0x01, 0x01, 0x04, 0x09, 0x08, 0x09] ++
  [0x01, 0x00, 0x00, 0x00, 0x00, 0x00, 0x01, 0x04, 0x14, 0x24, 0x25] ++
  [0x01, 0x00, 0x01, 0x01, 0x01, 0x00, 0x01, 0x04, 0x14, 0x24, 0x24] ++
  [0x01, 0x00, 0x01, 0x01, 0x01, 0x00, 0x01, 0x04, 0x14, 0x24, 0x25] ++
  [0x01, 0x00, 0x01, 0x01, 0x01, 0x00, 0x01, 0x04, 0x14, 0x24, 0x24] ++
  [0x01, 0x00, 0x00, 0x00, 0x00, 0x00, 0x01, 0x04, 0x14, 0x24, 0x25] ++
  [0x01, 0x01, 0x01, 0x01, 0x01, 0x01, 0x01, 0x04, 0x14, 0x25, 0x24] ++
  [0x04, 0x04, 0x04, 0x04, 0x04, 0x04, 0x04, 0x04, 0x14, 0x24, 0x24] ++
  [0x09, 0x14, 0x14, 0x14, 0x14, 0x14, 0x14, 0x14, 0x14, 0x24, 0x24] ++
  [0x08, 0x1D, 0x1D, 0x1C, 0x1D, 0x1D, 0x1C, 0x1D, 0x1C, 0x24, 0x25] ++
  [0x09, 0x1D, 0x1D, 0x1D, 0x1C, 0x1D, 0x1D, 0x1D, 0x1D, 0x24, 0x25]

/-- A board of `n` plain-data cells, unset, the forced mask in ARG0. -/
def plainBoard (n ver : Nat) (micro : Bool) (m : Nat) : State :=
  load 0x8000 (List.replicate n 0x24#8) (config ver micro (argState m 0 0))

/-- A Micro M1 board. -/
def microState (m : Nat) : State := plainBoard 121 1 true m

/-- A standard version 1 board. -/
def standardState (m : Nat) : State := plainBoard 441 1 false m

/-- What a command leaves, where it completes. -/
def after (i : Instr) (s : State) : State :=
  match exec i s with
  | .next t => t
  | .fault _ => s
  | .refused _ => s

theorem exec_after (i : Instr) (s : State) : exec i s = .next (after i s) := by
  unfold after
  rw [exec_eq]

theorem exists_next (i : Instr) (s : State) : ∃ t, exec i s = .next t := ⟨after i s, exec_after i s⟩

/-- RES0, STATUS and ERRINFO after a command, as the host reads them. -/
def report (i : Instr) (s : State) : Word × Word × Word :=
  (readReg (after i s) (.res 0), readReg (after i s) .status, readReg (after i s) .errInfo)

/-! ## Ill-formed words are refused, with the first fault (30_encoding.md R80 to R83) -/

theorem test_unassigned_opcode_refused : legalWord 0x03#32 = false ∧ decodeWord 0x03#32 = .error (.badOpc 0x03#8) := by
  decide

theorem test_undefined_flag_refused : legalWord 0x432#32 = false ∧ decodeWord 0x432#32 = .error (.badFlags 0x04#8) ∧
    legalWord 0x100#32 = false ∧ decodeWord 0x100#32 = .error (.badFlags 0x01#8) := by decide

theorem test_reserved_field_refused :
    legalWord 0x00010000#32 = false ∧ decodeWord 0x00010000#32 = .error (.badRsvd 0x0001#16) := by decide

theorem test_opcode_checked_first : decodeWord 0xFFFFFFFF#32 = .error (.badOpc 0xFF#8) := by decide

/-! ## The words of 30_encoding.md R71 and R74, one for every command -/

theorem test_decode_control_and_gf : decodeWord 0x00000000#32 = .ok .nop ∧ decodeWord 0x00000001#32 = .ok .gfMul ∧
    decodeWord 0x00000002#32 = .ok .gfPow := by decide

theorem test_decode_poly : decodeWord 0x00000010#32 = .ok .polyMul ∧ decodeWord 0x00000011#32 = .ok .genPoly ∧
    decodeWord 0x00000012#32 = .ok .rsEcc ∧ decodeWord 0x00000013#32 = .ok .polyEval := by decide

theorem test_decode_pack : decodeWord 0x00000020#32 = .ok .packNum ∧ decodeWord 0x00000021#32 = .ok .packAlnum ∧
    decodeWord 0x00000022#32 = .ok .packKanji ∧ decodeWord 0x00000023#32 = .ok .packByte ∧
    decodeWord 0x00000024#32 = .ok .packBits := by decide

theorem test_decode_mask : decodeWord 0x00000030#32 = .ok .maskApply ∧ decodeWord 0x00000031#32 = .ok .maskScore ∧
    decodeWord 0x00000032#32 = .ok (.maskSelect false false) ∧
    decodeWord 0x00000132#32 = .ok (.maskSelect true false) ∧
    decodeWord 0x00000232#32 = .ok (.maskSelect false true) ∧
    decodeWord 0x00000332#32 = .ok (.maskSelect true true) := by decide

/-- The word is run by the very next step after reset. -/
theorem test_fetch_word_runs : decodeTableWord 32 0x32 = some (.maskSelect false false) ∧
    (match step (State.reset.withFetchWord 32 0x02) with
      | .next t => (readReg t .status, readReg t .errInfo)
      | .fault _ => (0#32, 0#32)
      | .refused _ => (0#32, 0#32)) = (0x00000406#32, 0x13000000#32) := by decide

/-! ## Vectors of 95_test_vectors.md section 2: at most two a command -/

/-- 44_control.md R143. -/
theorem test_nop : report .nop State.reset = (0#32, 2#32, 0#32) := by decide

/-- V-GF-4. -/
theorem test_gf_mul : report .gfMul (argState 0x53 0xCA 0) = (0x8F#32, 2#32, 0#32) := by decide

/-- V-GF-E3. -/
theorem test_gf_mul_arg0_first : report .gfMul (argState 256 256 0) = (0#32, 0x406#32, 0x10000000#32) := by decide

/-- V-GF-20. -/
theorem test_gf_pow : report .gfPow (argState 0xFF 254 0) = (0xFD#32, 2#32, 0#32) := by decide

/-- V-GF-E5. -/
theorem test_gf_pow_arg1_before_log_zero :
    report .gfPow (argState 0 256 0) = (0#32, 0x406#32, 0x10000001#32) := by decide

/-- V-POLY-6: leading zeros stay. -/
theorem test_poly_mul :
    readBytes (after .polyMul (load 0x1300 [0x01, 0x01] (load 0x1200 [0x00, 0x01] (argState 2 2 0)))).ram 0 0x1400 3 =
      [0x00#8, 0x01#8, 0x01#8] := by decide

/-- V-POLY-E3. -/
theorem test_poly_mul_too_long : report .polyMul (argState 129 129 0) = (0#32, 0x406#32, 0x12000101#32) := by decide

/-- V-POLY-11. -/
theorem test_gen_poly :
    readBytes (after .genPoly (argState 5 0 0)).ram 0 0x1400 6 = [0x01#8, 0x1F#8, 0xC6#8, 0x3F#8, 0x93#8, 0x74#8] := by
  decide

/-- V-POLY-18. -/
theorem test_rs_ecc :
    readBytes (after .rsEcc (load 0x1200 [0x12, 0x34] (argState 2 3 0))).ram 0 0x1400 3 = [0x17#8, 0x5B#8, 0x6A#8] := by
  decide

/-- V-POLY-E11: the index is clamped. -/
theorem test_rs_ecc_clamped :
    report .rsEcc (argState 4294967295 4294967295 0) = (0#32, 0x406#32, 0x11FFFFFF#32) := by decide

/-- V-POLY-25. -/
theorem test_poly_eval : report .polyEval (load 0x1200 [0x01, 0x02, 0x03] (argState 3 0x10 0)) = (0x3E#32, 2#32, 0#32) := by
  decide

/-- V-PACK-11: the bits before dst keep their values. -/
theorem test_pack_num :
    readBytes (after .packNum (load 0x4000 [0xF8, 0x00] (load 0x2000 [0x31, 0x32, 0x33] (argState 0 3 5)))).ram 0 0x4000 2 =
      [0xF8#8, 0xF6#8] := by decide

/-- V-PACK-E14: OUT_RANGE before BAD_CHAR. -/
theorem test_pack_num_range_first :
    report .packNum (load 0x2000 [0x31, 0x61, 0x33] (argState 0 3 32760)) = (0#32, 0x406#32, 0x21008002#32) := by decide

/-- V-PACK-14: "::" is 11111101000. -/
theorem test_pack_alnum :
    bitsNumber (after .packAlnum (load 0x4000 [0x00, 0x00] (load 0x2000 [0x3A, 0x3A] (argState 0 2 0)))).ram 0 0 11 = 0b11111101000 := by decide

/-- V-PACK-E4. -/
theorem test_pack_alnum_bad_char :
    report .packAlnum (load 0x2000 [0x41, 0x23] (argState 0 2 0)) = (0#32, 0x106#32, 0x22000001#32) := by decide

/-- V-PACK-28. -/
theorem test_pack_kanji :
    bitsNumber (after .packKanji (load 0x4000 [0, 0, 0, 0] (load 0x2000 [0x93, 0x5F, 0xE4, 0xAA] (argState 0 4 0)))).ram 0 0 26 =
      0b01101100111111101010101010 := by decide

/-- V-PACK-E11: ODD_LENGTH before BAD_CHAR. -/
theorem test_pack_kanji_odd :
    report .packKanji (load 0x2000 [0xA0, 0x40, 0xE4] (argState 0 3 0)) = (0#32, 0x106#32, 0x23000003#32) := by decide

/-- V-PACK-30. -/
theorem test_pack_byte :
    readBytes (after .packByte (load 0x4000 [0xA0, 0x00, 0x0A] (load 0x2000 [0x00, 0xFF] (argState 0 2 3)))).ram 0 0x4000 3 =
      [0xA0#8, 0x1F#8, 0xEA#8] := by decide

/-- V-PACK-32. -/
theorem test_pack_bits :
    readByte (after .packBits (load 0x4000 [0xFF] (argState 0 2 3))).ram 0 0x4000 = 0xE7#8 := by decide

/-- V-PACK-E20: the width before the value. -/
theorem test_pack_bits_width_first : report .packBits (argState 16 0 0) = (0#32, 0x406#32, 0x10000001#32) := by decide

/-- V-MASK-S7 on a Micro board, mask 1 inverting row 0 and not row 1 (the table of predicates). -/
theorem test_mask_apply :
    readBytes (after .maskApply (microState 1)).ram 0 0x8000 12 = List.replicate 11 0x25#8 ++ [0x24#8] := by
  decide +kernel

/-- V-MASK-M1. -/
theorem test_mask_score :
    report .maskScore { microState 0 with ram := (load 0x8000 boardMicro1 State.reset).ram } = (105#32, 2#32, 0#32) := by
  decide +kernel

/-- V-MASK-N12 and V-MASK-N4: the lines' N3 and N1. -/
theorem test_line_penalties :
    lineN3 ([false, false, false, false, true, false, true, true, true, false, true, false, false, false, false, true,
      false, true, true, true, false, true]) = 120 ∧
    lineN1 [false, false, false, false, false, true, true, true, true, true] = 6 := by decide

/-- V-MASK-M2: the winner, its score and its slot, and SCORE0..SCORE3. -/
theorem test_mask_select :
    let t := after (.maskSelect false false) { microState 0 with ram := (load 0x8000 boardMicro1 State.reset).ram }
    (t.res.r0, t.res.r1, t.res.r2, t.scores.s0, t.scores.s1, t.scores.s2, t.scores.s3, t.scores.s4) =
      (4#32, 120#32, 1#32, 57#32, 120#32, 86#32, 73#32, 0#32) := by decide +kernel

/-- V-MASK-S16. -/
theorem test_mask_select_forced :
    let t := after (.maskSelect false true) (microState 6)
    (t.res.r0, t.res.r1, t.res.r2) = (6#32, 0#32, 2#32) := by decide +kernel

/-! ## The bus while a command runs -/

/-- A write to ARG0 while BUSY is dropped and sets OVR (20_memory.md R66). -/
theorem test_busy_write_overruns :
    let t := (serve (running 0x32#32 3 State.reset) (.write 0x0010#16 .four 5#32)).1
    (readReg t .status, readReg t (.arg 0)) = (0x9#32, 0#32) := by decide

/-- An illegal word completes before the transaction that is pending when it is launched (30_encoding.md R82). -/
theorem test_illegal_word_completes_at_once :
    let s := { State.reset with host := [.bus (.read 0x0008#16 .four)] }
    (match step (takeEvent s (.bus (.write 0x000C#16 .four 0x03#32))) with
      | .next t => some (t.status.word, t.errInfo.word, t.host.length)
      | .fault _ => none
      | .refused _ => none) = some (0x506#32, 0x01000003#32, 1) := by decide

/-- A soft reset while PACK_BITS of 4 bits at bit 2 runs: those bits lose their values, the other bits of the byte keep
theirs (70_reset_and_hazards.md R169), and CTRL keeps IE as written (R168). -/
theorem test_soft_reset_aborts :
    let t := (serve (running 0x24#32 3 (load 0x4000 [0xFF] (argState 1 4 2))) (.write 0x0004#16 .four 3#32)).1
    (planeGet t.ram.known 0x4000, readReg t .ctrl, readReg t .status, readReg t (.arg 1)) =
      (0xC3#8, 1#32, 0#32, 0#32) := by decide

/-! ## Witnesses: for each statement with hypotheses, states and operands that meet them -/

theorem witness_DecodeReportsFirstFault : opcodeAssigned 0x33#32 = false ∧
    (opcodeAssigned 0x432#32 = true ∧ undefinedFlagsClear 0x432#32 = false) ∧
    (opcodeAssigned 0xFFFF0332#32 = true ∧ undefinedFlagsClear 0xFFFF0332#32 = true ∧
      reservedClear 0xFFFF0332#32 = false) ∧
    (opcodeAssigned 0x332#32 = true ∧ undefinedFlagsClear 0x332#32 = true ∧ reservedClear 0x332#32 = true) := by decide

/-- An idle state with an event pending, and two in which an illegal word runs. -/
theorem witness_IllegalWordCompletesWithError : decodeWord 0x03#32 = .error (.badOpc 0x03#8) ∧
    (({ State.reset with host := [.powerOnReset] } : State).status.busy = false ∧
      (takeEvent { State.reset with host := [.powerOnReset] } (.bus (.write 0x000C#16 .four 0x03#32))).host ≠ []) ∧
    ((running 0x03#32 5 State.reset).status.busy = true ∧ (running 0x03#32 5 State.reset).cmd = 0x03#32 ∧
      (running 0x03#32 5 State.reset).host = []) ∧
    (({ running 0x03#32 0 State.reset with host := [.powerOnReset] } : State).status.busy = true ∧
      ({ running 0x03#32 0 State.reset with host := [.powerOnReset] } : State).wait = 0) := by decide

theorem witness_StepRunsDecodedCommand : Ready (running 0#32 5 State.reset) .nop ∧
    Ready { running 0#32 0 State.reset with host := [.powerOnReset] } .nop ∧
    (State.reset.status.busy = false ∧ State.reset.host = []) ∧
    ({ running 0#32 1 State.reset with host := [.powerOnReset] }).wait ≠ 0 :=
  ⟨⟨rfl, by decide, .inl rfl⟩, ⟨rfl, by decide, .inr rfl⟩, ⟨rfl, rfl⟩, by decide⟩

theorem witness_CmdWriteLaunches :
    State.reset.status.busy = false ∧ (running 0#32 0 State.reset).status.busy = true := by decide

theorem witness_BusyEndsWithinLatency : (running 0x32#32 7 State.reset).status.busy = true := by decide

theorem witness_ErrorsAreAllOrNothing : ∃ t, exec .gfPow State.reset = .next t ∧ t.status.err = true :=
  ⟨_, rfl, by decide⟩

theorem witness_CompletionSetsStatus : ∃ t, exec .nop State.reset = .next t ∧ t.status.err = false :=
  ⟨_, rfl, by decide⟩

theorem witness_ErrorsOfEachCommand : ∃ t, exec (.maskSelect true true) State.reset = .next t ∧ t.status.err = true :=
  ⟨_, rfl, by decide⟩

theorem witness_CommandsKeepTheirInputs : State.reset.ram.wf = true ∧ ∃ t, exec .genPoly (argState 255 0 0) = .next t :=
  ⟨rfl, _, rfl⟩

theorem witness_OutputsHaveTheirWriters : State.reset.ram.wf = true ∧ (∃ t, exec .rsEcc (argState 1 1 0) = .next t) ∧
    Instr.rsEcc ∉ [Instr.packNum, .packAlnum, .packKanji, .packByte, .packBits] ∧
    Instr.rsEcc ∉ [Instr.maskApply, .maskSelect true false, .maskSelect true true] ∧
    Instr.packBits ∉ [Instr.polyMul, .genPoly, .rsEcc] := ⟨rfl, ⟨_, rfl⟩, by decide, by decide, by decide⟩

/-- A RAM every byte of which holds a value. -/
def fullRam : Memory :=
  writeBytes (writeBytes (writeBytes Memory.unwritten 0x1200 (List.replicate 768 0#8)) 0x2000
    (List.replicate 12288 0#8)) 0x8000 (List.replicate 32768 0#8)

theorem fullRam_known (a : Nat) (h : isRam a = true) : planeGet fullRam.known a = 0xFF#8 := by
  have h1 := wf_writeBytes (List.replicate 768 0#8) wf_unwritten 0x1200
  have h2 := wf_writeBytes (List.replicate 12288 0#8) h1 0x2000
  unfold fullRam
  rw [writeBytes_known _ h2, writeBytes_known _ h1, writeBytes_known _ wf_unwritten]
  simp only [List.length_replicate, h, and_true]
  have := (isRam_iff a).1 h
  split_ifs <;> first | rfl | omega

theorem witness_ResultsDependOnInputsOnly : ∃ s t s' t' : State, s ≠ t ∧ s.args = t.args ∧ s.bcfg = t.bcfg ∧
    s.res = t.res ∧ s.scores = t.scores ∧ s.pens = t.pens ∧ s.ram = t.ram ∧ s.draws ≠ t.draws ∧
    (∀ a, isRam a = true → planeGet s.ram.known a = 0xFF#8) ∧
    exec .polyEval s = .next s' ∧ exec .polyEval t = .next t' := by
  refine ⟨{ argState 1 1 0 with ram := fullRam }, { argState 1 1 0 with ram := fullRam, draws := 1 }, _, _, ?_, rfl, rfl,
    rfl, rfl, rfl, rfl, by decide, fullRam_known, rfl, rfl⟩
  intro h
  have := congrArg State.draws h
  cases this

theorem witness_StepKeepsInvariant : StateInv State.reset ∧ step State.reset = .next State.reset :=
  ⟨⟨rfl, nofun, nofun, nofun, fun _ => rfl, rfl, rfl, rfl, fun _ => rfl, nofun⟩, rfl⟩

theorem witness_PowerOnResetValues :
    ∃ s0 : State, s0 ≠ State.reset ∧ takeEvent s0 .powerOnReset = { State.reset with draws := 1 } :=
  ⟨argState 1 0 0, by decide, rfl⟩

theorem witness_SoftResetValues : (2#32).getLsbD 1 = true ∧ State.reset.status.busy = false ∧
    State.reset.ram.wf = true ∧ decodeWord State.reset.cmd = .ok .nop ∧
    decodeWord (running 0x11#32 3 (argState 1 0 0)).cmd = .ok .genPoly ∧
    ¬ inRegion (destination .genPoly (running 0x11#32 3 (argState 1 0 0))) 0x13FF 0 ∧
    ¬ inRegion (destination .genPoly (running 0x11#32 3 (argState 1 0 0))) 0x1402 7 := by
  refine ⟨rfl, rfl, rfl, by decide, by decide, ?_, ?_⟩ <;> (show ¬ (0x1400 ≤ _ ∧ _ < 0x1400 + (1 + 1)); omega)

theorem witness_AbortForgetsTheDestination : (2#32).getLsbD 1 = true ∧
    (running 0x11#32 3 (argState 1 0 0)).ram.wf = true ∧ (running 0x11#32 3 (argState 1 0 0)).status.busy = true ∧
    decodeWord (running 0x11#32 3 (argState 1 0 0)).cmd = .ok .genPoly ∧
    wouldSucceed .genPoly (running 0x11#32 3 (argState 1 0 0)) = true ∧
    inRegion (destination .genPoly (running 0x11#32 3 (argState 1 0 0))) 0x1401 7 ∧
    ¬ inRegion (destination .genPoly (running 0x11#32 3 (argState 1 0 0))) 0x1402 7 ∧
    wouldSucceed .genPoly (running 0x11#32 3 (argState 0 0 0)) = false ∧
    decodeWord (running 0x03#32 3 State.reset).cmd = .error (.badOpc 0x03#8) := by
  refine ⟨rfl, rfl, rfl, by decide, by decide, ?_, ?_, by decide, by decide⟩
  · show 0x1400 ≤ 0x1401 ∧ 0x1401 < 0x1400 + (1 + 1)
    omega
  · show ¬ (0x1400 ≤ 0x1402 ∧ 0x1402 < 0x1400 + (1 + 1))
    omega

theorem witness_ReadsAndReadOnlyWritesChangeNothing :
    (0x06C#16 : Offset).toNat ∈ [0x000, 0x020, 0x024, 0x028, 0x02C, 0x030, 0x040, 0x044, 0x048, 0x04C, 0x050, 0x054, 0x058,
      0x05C, 0x060, 0x064, 0x068, 0x06C] ∧
    (0x11FF#16 : Offset).toNat < 0x1200 ∧ (0x1000#16 : Offset).toNat % Size.four.bytes = 0 ∧
    ((0xFFFFFFF1#32).getLsbD 1 = false ∧ (0xFFFFFFF1#32).getLsbD 2 = false ∧ (0xFFFFFFF1#32).getLsbD 3 = false) := by decide

/-- Both cases, for each reason a transaction is answered ERROR. -/
theorem witness_BusErrorsExactly :
    (serve State.reset (.read 0x0000#16 .two)).2.okay = false ∧ (serve State.reset (.read 0x0038#16 .four)).2.okay = false ∧
    (serve State.reset (.read 0x1500#16 .one)).2.okay = false ∧ (serve State.reset (.read 0x1202#16 .four)).2.okay = false ∧
    (serve (running 0#32 3 State.reset) (.write 0xFFFF#16 .one 0#32)).2.okay = false ∧
    (serve (running 0#32 3 State.reset) (.read 0x11FF#16 .one)).2.okay = true := by decide

theorem witness_BusyWritesAreDropped : (running 0#32 3 State.reset).status.busy = true ∧
    (0x034#16 : Offset).toNat ∈ [0x00C, 0x010, 0x014, 0x018, 0x01C, 0x034] ∧ (1#32).getLsbD 1 = false ∧
    (3#32).getLsbD 1 = true := by decide

theorem witness_RegisterWritesReadBack : State.reset.status.busy = false ∧ (0xFFFFFFFD#32).getLsbD 1 = false := by decide

theorem witness_LittleEndianAccesses : (State.reset.ram.wf = true ∧ State.reset.status.busy = false ∧
      isRam (0x14FC#16 : Offset).toNat = true ∧ (0x14FC#16 : Offset).toNat % Size.four.bytes = 0 ∧
      isRam (0xFFFF#16 : Offset).toNat = true ∧ (0xFFFF#16 : Offset).toNat % Size.one.bytes = 0) ∧
    0x1000 ≤ (0x1000#16 : Offset).toNat ∧ (serve State.reset (.read 0x1000#16 .four)).2 = ⟨true, 0x08040201#32⟩ := by
  decide

theorem witness_UnwrittenByteReadsAsDraw : State.reset.status.busy = false ∧ isRam (0x1200#16 : Offset).toNat = true ∧
    planeGet State.reset.ram.known (0x1200#16 : Offset).toNat = 0#8 ∧ isRam (0xFFFF#16 : Offset).toNat = true := by decide

theorem witness_GfMulGivesFieldProduct : 255 < arg0 (argState 256 0 0) ∧
    (arg0 (argState 255 256 0) ≤ 255 ∧ 255 < arg1 (argState 255 256 0)) ∧
    (arg0 (argState 255 255 0) ≤ 255 ∧ arg1 (argState 255 255 0) ≤ 255) := by decide

theorem witness_GfPowGivesFieldPower : 255 < arg0 (argState 256 0 0) ∧
    (arg0 (argState 255 256 0) ≤ 255 ∧ 255 < arg1 (argState 255 256 0)) ∧
    (arg0 (argState 0 255 0) = 0 ∧ arg1 (argState 0 255 0) ≤ 255) ∧
    (1 ≤ arg0 (argState 1 255 0) ∧ arg0 (argState 1 255 0) ≤ 255 ∧ arg1 (argState 1 255 0) ≤ 255) := by decide

theorem witness_FieldLaws : (1#8 : Byte) ≠ 0#8 := by decide

theorem witness_PolyMulGivesProduct : (arg0 (argState 0 1 0) < 1 ∧ 256 < arg0 (argState 257 1 0)) ∧
    (arg0 (argState 256 0 0) ≤ 256 ∧ arg1 (argState 256 0 0) < 1 ∧ 256 < arg1 (argState 1 257 0)) ∧
    256 < arg0 (argState 256 2 0) + arg1 (argState 256 2 0) - 1 ∧
    (argState 256 1 0).ram.wf = true ∧ arg0 (argState 256 1 0) + arg1 (argState 256 1 0) - 1 ≤ 256 := by decide

theorem witness_PolyMulIsSymmetric : ∃ s t s' t' : State, s.ram.wf = true ∧ t.ram.wf = true ∧ arg0 s = arg1 t ∧
    arg1 s = arg0 t ∧
    (∀ k, k < arg0 s → readByte s.ram s.draws (0x1200 + k) = readByte t.ram t.draws (0x1300 + k)) ∧
    (∀ k, k < arg1 s → readByte s.ram s.draws (0x1300 + k) = readByte t.ram t.draws (0x1200 + k)) ∧
    exec .polyMul s = .next s' ∧ exec .polyMul t = .next t' ∧ s'.status.err = false :=
  ⟨load 0x1300 [0x03, 0x07] (load 0x1200 [0x02] (argState 1 2 0)),
    load 0x1300 [0x02] (load 0x1200 [0x03, 0x07] (argState 2 1 0)), _, _, by decide, by decide, by decide, by decide,
    by decide, by decide, rfl, rfl, by decide⟩

theorem witness_GenPolyHasItsRoots : (arg0 (argState 0 0 0) < 1 ∧ 255 < arg0 (argState 256 0 0)) ∧
    ((argState 1 0 0).ram.wf = true ∧ 1 ≤ arg0 (argState 1 0 0) ∧ arg0 (argState 255 0 0) ≤ 255) := by decide

theorem witness_RsEccMakesCodewords : arg0 (argState 0 5 0) < 1 ∧
    (1 ≤ arg0 (argState 1 0 0) ∧ arg1 (argState 1 0 0) < 1) ∧
    255 < arg0 (argState 1 255 0) + arg1 (argState 1 255 0) ∧
    (argState 254 1 0).ram.wf = true ∧ arg0 (argState 254 1 0) + arg1 (argState 254 1 0) ≤ 255 := by decide

theorem witness_PolyEvalGivesValue : (arg0 (argState 0 5 0) < 1 ∧ 256 < arg0 (argState 257 5 0)) ∧
    (arg0 (argState 256 256 0) ≤ 256 ∧ 255 < arg1 (argState 256 256 0)) ∧
    (1 ≤ arg0 (argState 1 255 0) ∧ arg0 (argState 1 255 0) ≤ 256 ∧ arg1 (argState 1 255 0) ≤ 255) := by decide

theorem witness_BitWriteReplacesBits : Memory.unwritten.wf = true ∧ 1 < 2 ^ 1 ∧ 32767 + 1 ≤ 32768 ∧
    0xFFFFFFFF < 2 ^ 32 ∧ 32736 + 32 ≤ 32768 := by decide

theorem witness_PackNumGivesDigitGroups :
    let s := load 0x2000 [0x30, 0x39, 0x31, 0x39, 0x30] (argState 0 5 32751)
    let t := load 0x2000 [0x39] (argState 0 1 32764)
    (s.ram.wf = true ∧ arg1 s % 3 = 2 ∧ arg0 s + arg1 s ≤ 8192 ∧ arg2 s + 17 = 32768 ∧
      17 = 10 * (arg1 s / 3) + [0, 4, 7].getD (arg1 s % 3) 0 ∧
      ∀ b ∈ packInput s, 0x30 ≤ b.toNat ∧ b.toNat ≤ 0x39) ∧
    (t.ram.wf = true ∧ arg1 t % 3 = 1 ∧ arg2 t + 4 = 32768 ∧ ∀ b ∈ packInput t, 0x30 ≤ b.toNat ∧ b.toNat ≤ 0x39) := by
  decide

theorem witness_PackAlnumGivesPairs :
    let s := load 0x2000 [0x41, 0x3A, 0x20] (argState 0 3 0)
    s.ram.wf = true ∧ 17 = 11 * (arg1 s / 2) + 6 * (arg1 s % 2) ∧ arg0 s + arg1 s ≤ 8192 ∧ arg1 s % 2 = 1 ∧
      ∀ k, k < arg1 s → alnumValue ((packInput s).getD k 0#8) = some ([10, 44, 36].getD k 0) := by decide

theorem witness_PackKanjiGivesCharacters :
    let s := load 0x2000 [0x81, 0x40, 0xEB, 0xBF] (argState 0 4 32742)
    s.ram.wf = true ∧ arg1 s % 2 = 0 ∧ arg2 s + 13 * (arg1 s / 2) = 32768 ∧
      ∀ k, k < arg1 s / 2 → kanjiValue (((packInput s).getD (2 * k) 0#8).toNat * 256 +
        ((packInput s).getD (2 * k + 1) 0#8).toNat) = some ([0, 8191].getD k 0) := by decide

theorem witness_PackByteCopiesBytes : (argState 8191 1 32760).ram.wf = true ∧
    arg0 (argState 8191 1 32760) + arg1 (argState 8191 1 32760) = 8192 ∧
    arg2 (argState 8191 1 32760) + 8 * arg1 (argState 8191 1 32760) = 32768 := by decide

theorem witness_PackBitsWritesField : (arg1 (argState 0 0 0) < 1 ∧ 32 < arg1 (argState 0 33 0)) ∧
    (arg1 (argState 0x80000000 31 0) < 32 ∧ 2 ^ arg1 (argState 0x80000000 31 0) ≤ arg0 (argState 0x80000000 31 0)) ∧
    (arg0 (argState 0 1 32768) < 2 ^ arg1 (argState 0 1 32768) ∧ 32768 < arg2 (argState 0 1 32768) + 1) ∧
    ((argState 0xFFFFFFFF 32 32736).ram.wf = true ∧ arg0 (argState 0xFFFFFFFF 32 32736) < 2 ^ 32 ∧
      arg2 (argState 0xFFFFFFFF 32 32736) + arg1 (argState 0xFFFFFFFF 32 32736) = 32768) := by decide

theorem witness_PackersChangeOnlyTheirBits : Instr.packBits ∈ [Instr.packNum, .packAlnum, .packKanji, .packByte, .packBits] ∧
    (argState 1 4 32764).ram.wf = true ∧ ∃ t, exec .packBits (argState 1 4 32764) = .next t ∧ t.status.err = false :=
  ⟨by decide, by decide, _, rfl, by decide⟩

theorem witness_PackRangeChecksInOrder : 8192 < arg0 (argState 8193 0 0) + arg1 (argState 8193 0 0) ∧
    (arg0 (argState 8191 1 0) + arg1 (argState 8191 1 0) = 8192 ∧ arg1 (argState 8191 1 0) % 2 = 1) ∧
    32768 < arg2 (argState 0 1 32765) + (10 * (arg1 (argState 0 1 32765) / 3) + 4) := by decide

theorem witness_PackReportsFirstBadCharacter :
    let s := load 0x2000 [0x31, 0x3B] (argState 0 2 0)
    let k := load 0x2000 [0x81, 0x40, 0x81, 0x3F] (argState 0 4 0)
    (1 < arg1 s ∧ (∀ j, j < 1 → digitValue ((packInput s).getD j 0#8) ≠ none) ∧
      digitValue ((packInput s).getD 1 0#8) = none) ∧
    ((∀ j, j < 1 → alnumValue ((packInput s).getD j 0#8) ≠ none) ∧ alnumValue ((packInput s).getD 1 0#8) = none) ∧
    (arg1 k % 2 = 0 ∧ 1 < arg1 k / 2 ∧
      (∀ j, j < 1 → kanjiValue (((packInput k).getD (2 * j) 0#8).toNat * 256 +
        ((packInput k).getD (2 * j + 1) 0#8).toNat) ≠ none) ∧
      kanjiValue (((packInput k).getD 2 0#8).toNat * 256 + ((packInput k).getD 3 0#8).toNat) = none) := by decide

theorem witness_ZeroLengthPack : arg1 (argState 8192 0 32768) = 0 ∧ arg0 (argState 8192 0 32768) ≤ 8192 ∧
    arg2 (argState 8192 0 32768) ≤ 32768 := by decide

/-- A plain board meets what the mask statements ask of a state. -/
theorem plainBoard_meets {n ver m : Nat} {micro : Bool} (hn : n ≤ 32768)
    (hd : dimOf (plainBoard n ver micro m) * dimOf (plainBoard n ver micro m) = n) :
    (plainBoard n ver micro m).ram.wf = true ∧ boardWellFormed (plainBoard n ver micro m) ∧
      boardKnown (plainBoard n ver micro m) := by
  have hr : ∀ k, k < n → isRam (0x8000 + k) = true := fun k hk => (isRam_iff _).2 (by omega)
  refine ⟨wf_writeBytes _ wf_unwritten _, ?_, ?_⟩
  · intro b hb
    unfold boardCells readBytes at hb
    rw [hd] at hb
    obtain ⟨k, hk, rfl⟩ := List.mem_map.1 hb
    have hk := List.mem_range.1 hk
    have : readByte (plainBoard n ver micro m).ram (plainBoard n ver micro m).draws (0x8000 + k) = 0x24#8 := by
      have := readByte_writeBytes_inside wf_unwritten (List.replicate n 0x24#8) 0x8000 k
        (plainBoard n ver micro m).draws (by simpa using hk) (hr k hk)
      rw [List.getD_replicate _ hk] at this
      exact this
    rw [show Window.board.base = 0x8000 from rfl, this]
    decide
  · intro k hk
    rw [hd] at hk
    show planeGet (writeBytes Memory.unwritten 0x8000 (List.replicate n 0x24#8)).known (0x8000 + k) = 0xFF#8
    rw [writeBytes_known _ wf_unwritten, if_pos ⟨by omega, by simpa using hk, hr k hk⟩]

theorem witness_microBoard (m : Nat) : configLegal (microState m).bcfg ∧ (microState m).ram.wf = true ∧
    boardWellFormed (microState m) ∧ boardKnown (microState m) :=
  ⟨.inr (by rw [show (microState m).bcfg = ⟨1#6, true⟩ from rfl]; decide), plainBoard_meets (by decide) rfl⟩

theorem witness_standardBoard (m : Nat) : configLegal (standardState m).bcfg ∧ (standardState m).ram.wf = true ∧
    boardWellFormed (standardState m) ∧ boardKnown (standardState m) :=
  ⟨.inl (by rw [show (standardState m).bcfg = ⟨1#6, false⟩ from rfl]; decide), plainBoard_meets (by decide) rfl⟩

theorem microBoard_checked : checkBoard (boardCells (microState 7)) = none := by decide +kernel

theorem mask_succeeds {s : State} (h1 : checkBcfg s = none) (h2 : checkMaskId s (arg0 s) = none)
    (h3 : checkBoard (boardCells s) = none) : (after .maskApply s).status.err = false ∧
      (after (.maskSelect true false) s).status.err = false ∧ (after (.maskSelect true true) s).status.err = false := by
  have key : ∀ i, (∃ u, runOf i s = .ok u) → (after i s).status.err = false := by
    intro i ⟨u, h⟩
    unfold after
    rw [exec_ok h]
    rfl
  refine ⟨key _ ?_, key _ ?_, key _ ?_⟩
  all_goals
    simp only [runOf, runMaskApply, runMaskSelect, if_true, Bool.false_eq_true, if_false, h1, h2, h3]
    exact ⟨_, rfl⟩

theorem microState_succeeds : (after .maskApply (microState 7)).status.err = false ∧
    (after (.maskSelect true false) (microState 7)).status.err = false ∧
    (after (.maskSelect true true) (microState 7)).status.err = false :=
  mask_succeeds (by decide) (by decide) microBoard_checked

theorem witness_MaskApplyInvertsCells : maskIdLegal (microState 7).bcfg.micro (arg0 (microState 7)) ∧
    maskIdLegal (standardState 7).bcfg.micro (arg0 (standardState 7)) := by
  unfold maskIdLegal
  decide

theorem witness_MaskApplyTwiceRestores : ∃ t u, exec .maskApply (microState 7) = .next t ∧ t.status.err = false ∧
    exec .maskApply t = .next u := ⟨after .maskApply (microState 7), after .maskApply (after .maskApply (microState 7)), exec_after _ _,
    microState_succeeds.1, exec_after _ _⟩

def badCellState : State := load 0x8000 [0x24, 0x03] (config 1 true (argState 1 0 0))

theorem witness_MaskChecksInOrder : ¬ configLegal (config 0 false State.reset).bcfg ∧
    ¬ configLegal (config 41 false State.reset).bcfg ∧ ¬ configLegal (config 5 true State.reset).bcfg ∧
    configLegal (config 40 false State.reset).bcfg ∧ 7 < arg0 (argState 8 0 0) ∧
    ¬ maskIdLegal true (arg0 (argState 0 0 0)) ∧ maskIdLegal false (arg0 (argState 7 0 0)) ∧
    1 < dimOf badCellState * dimOf badCellState ∧
    cellMalformed (readByte badCellState.ram badCellState.draws 0x8001) = true ∧
    cellMalformed (readByte badCellState.ram badCellState.draws 0x8000) = false := by
  unfold configLegal maskIdLegal
  decide

theorem witness_PenaltiesCellByCell : 1 ≤ 1 ∧ [0x25#8].length = 1 * 1 := by decide

theorem witness_MaskScoreReportsPenalties :
    (standardState 0).bcfg.micro = false ∧ (microState 0).bcfg.micro = true := by decide

theorem witness_MaskSelectFindsWinner : ∃ (n : Nat) (mask score : Nat → Nat),
    n = (if (microState 0).bcfg.micro then 4 else 8) ∧
    (∀ k, mask k = if (microState 0).bcfg.micro then [1, 4, 6, 7].getD k 0 else k) ∧
    ∀ k, score k = if k < n then scoreOf (microState 0).bcfg.micro (dimOf (microState 0))
      (applyMask (dimOf (microState 0)) (mask k) (boardCells (microState 0))) else 0 :=
  ⟨_, _, _, rfl, fun _ => rfl, fun _ => rfl⟩

theorem witness_MaskSelectTakesForcedMask : maskIdLegal (microState 7).bcfg.micro (arg0 (microState 7)) ∧
    3 < 4 ∧ [1, 4, 6, 7].getD 3 0 = arg0 (microState 7) ∧ 7 = arg0 (standardState 7) := by
  unfold maskIdLegal
  decide

theorem witness_RescoringReproducesWinner : ∃ t u, exec (.maskSelect true false) (microState 7) = .next t ∧
    t.status.err = false ∧ exec .maskScore t = .next u := 
  ⟨after (.maskSelect true false) (microState 7), after .maskScore (after (.maskSelect true false) (microState 7)),
    exec_after _ _, microState_succeeds.2.1, exec_after _ _⟩

theorem witness_SelectAndApplyAgree :
    (exec (.maskSelect true false) (microState 7) = .next (after (.maskSelect true false) (microState 7)) ∧
      (after (.maskSelect true false) (microState 7)).status.err = false ∧
      ∀ t : State, ∃ u, exec .maskApply { t with args := { t.args with a0 := t.res.r0 } } = .next u) ∧
    (∃ u, exec (.maskSelect true true) (microState 7) = .next u) ∧ ∃ u, exec .maskApply (microState 7) = .next u :=
  ⟨⟨exec_after _ _, microState_succeeds.2.1, fun _ => exists_next _ _⟩, exists_next _ _, exists_next _ _⟩

theorem witness_MasksKeepTagsAndFunctionCells :
    exec (.maskSelect true true) (microState 7) = .next (after (.maskSelect true true) (microState 7)) ∧
      (after (.maskSelect true true) (microState 7)).status.err = false ∧
      120 < dimOf (microState 7) * dimOf (microState 7) :=
  ⟨exec_after _ _, microState_succeeds.2.2, by decide⟩

end Sys2Proof.Machine.Tests
end

section
/-! PROOFS. 00_scope.md: what one step does in each kind of state. -/

namespace Sys2Proof.Machine

/-- Decoding undoes encoding (30_encoding.md R71, R74, R75). -/
@[simp] theorem decodeWord_encode (i : Instr) : decodeWord (encode i) = .ok i := by
  cases i with
  | maskSelect commit force => cases commit <;> cases force <;> rfl
  | _ => rfl

theorem runCommand_of_decodes {s : State} {i : Instr} (h : decodeWord s.cmd = .ok i) : runCommand s = exec i s := by
  unfold runCommand
  rw [h]

theorem step_of_ready {s : State} {i : Instr} (h : Ready s i) : step s = exec i s := by
  obtain ⟨hbusy, hdec, hfirst⟩ := h
  rw [step_run hbusy hfirst, runCommand_of_decodes hdec]

theorem step_idle {s : State} (hb : s.status.busy = false) (hh : s.host = []) : step s = .next s := by
  unfold step
  rw [hb, hh]

theorem step_idle_event {s : State} {ev : HostEvent} {rest : List HostEvent} (hb : s.status.busy = false)
    (hh : s.host = ev :: rest) : step s = .next (takeEvent { s with host := rest } ev) := by
  unfold step
  rw [hb, hh]

theorem step_waiting_event {s : State} {ev : HostEvent} {rest : List HostEvent} (hb : s.status.busy = true)
    (hh : s.host = ev :: rest) (hw : s.wait ≠ 0) :
    step s = .next (takeEvent { s with host := rest, wait := s.wait - 1 } ev) := by
  unfold step
  rw [hb, hh]
  exact if_neg hw

@[simp] theorem withFetchWord_encode (s : State) (i : Instr) :
    s.withFetchWord 32 (encode i).toNat = launch s (encode i) 0 := by
  have hword : BitVec.ofNat 32 ((encode i).toNat % 2 ^ 32) = encode i := by
    rw [Nat.mod_eq_of_lt (encode i).isLt, BitVec.ofNat_toNat, BitVec.setWidth_eq]
  rw [State.withFetchWord, hword]

/-- A command launched with nothing to wait for is ready, whatever events are pending. -/
theorem launch_encode_ready (s : State) (i : Instr) : Ready (launch s (encode i) 0) i :=
  ⟨rfl, decodeWord_encode i, .inr rfl⟩

/-- Settles O5: one lemma for each kind of step; the fetched word is a launch with no wait, hence ready. -/
theorem stepRunsDecodedCommand : Obligations.StepRunsDecodedCommand := by
  refine ⟨fun _ _ => step_of_ready, fun _ => step_idle, fun _ _ _ => step_idle_event,
    fun _ _ _ => step_waiting_event, fun _ _ => rfl, fun _ => rfl, fun s i => ?_⟩
  rw [withFetchWord_encode]
  exact step_of_ready (launch_encode_ready s i)

end Sys2Proof.Machine
end

section
/-! PROOFS. 10_state.md: the invariant, the reset values, the registers, and what a command reads and writes. -/

namespace Sys2Proof.Machine

/-! ## The invariant -/

theorem inv_reset : StateInv State.reset :=
  ⟨wf_unwritten, nofun, nofun, nofun, fun _ => rfl, rfl, rfl, rfl, fun _ => rfl, nofun⟩

/-- The errors of the table carry the codes of 60_exceptions.md R150 and R151. -/
theorem errorsOf_all_legal (i : Instr) : (errorsOf i).all (fun p => legalEcode p.1 && legalSub p.2) = true := by
  cases i with
  | maskSelect commit force => cases force <;> rfl
  | _ => rfl

theorem runOf_error_legal {i : Instr} {s : State} {e : CmdError} (h : runOf i s = .error e) :
    legalEcode e.kind.code = true ∧ legalSub e.sub.code = true :=
  Bool.and_eq_true_iff.1 (List.all_eq_true.1 (errorsOf_all_legal i) _ (runOf_error h))

theorem decodeFailure_legal (e : Sys2Proof.DecodeError) :
    legalEcode (decodeFailure e).kind.code = true ∧ legalSub (decodeFailure e).sub.code = true := by
  cases e <;> exact ⟨rfl, rfl⟩

theorem inv_failsWith {s : State} (h : StateInv s) {c : BitVec 4} {b : BitVec 8} (x : BitVec 24)
    (hc : legalEcode c = true) (hb : legalSub b = true) : StateInv (failsWith s c b x) where
  ram := h.ram
  busyDone := nofun
  busyErr := nofun
  busyInfo := nofun
  ecodeErr := nofun
  ecodeLegal := hc
  subLegal := hb
  res3 := h.res3
  idleWait _ := rfl
  illegalWait := nofun

theorem inv_succeedsWith {s : State} (h : StateInv s) {r : Results} (c : Scores) (p : Penalties) {m : Memory}
    (hm : m.wf = true) (hr : r.r3 = s.res.r3) : StateInv (succeedsWith s r c p m) where
  ram := hm
  busyDone := nofun
  busyErr := nofun
  busyInfo := nofun
  ecodeErr _ := rfl
  ecodeLegal := rfl
  subLegal := rfl
  res3 := hr.trans h.res3
  idleWait _ := rfl
  illegalWait := nofun

theorem inv_exec {i : Instr} {s t : State} (h : StateInv s) (hx : exec i s = .next t) : StateInv t := by
  rcases exec_cases hx with ⟨e, he, rfl⟩ | ⟨u, hu, hwrote, rfl⟩
  · obtain ⟨hc, hb⟩ := runOf_error_legal he
    exact inv_failsWith h _ hc hb
  · obtain ⟨_, hr3⟩ := hwrote
    exact inv_succeedsWith h _ _ (runOf_wf h.ram hu) hr3

theorem inv_runCommand {s t : State} (h : StateInv s) (hx : runCommand s = .next t) : StateInv t := by
  rcases runCommand_cases hx with ⟨i, _, hi⟩ | ⟨e, _, rfl⟩
  · exact inv_exec h hi
  · obtain ⟨hc, hb⟩ := decodeFailure_legal e
    exact inv_failsWith h _ hc hb

/-- A launch starts with a clean report, and waits only for a word that decodes (44_control.md R144; 30_encoding.md R82). -/
theorem inv_launch {s : State} (h : StateInv s) (w : Word) : StateInv (launch s w (launchWait s w)) where
  ram := h.ram
  busyDone _ := rfl
  busyErr _ := rfl
  busyInfo _ := rfl
  ecodeErr _ := rfl
  ecodeLegal := rfl
  subLegal := rfl
  res3 := h.res3
  idleWait := nofun
  illegalWait _ _ he := launchWait_illegal he s

/-- An acknowledgement clears ECODE whenever it clears ERR (10_state.md R23). -/
theorem inv_acknowledge {s : State} (h : StateInv s) (w : Word) : StateInv (acknowledge s w) where
  ram := h.ram
  busyDone hb := by simp [h.busyDone hb]
  busyErr hb := by simp [h.busyErr hb]
  busyInfo := h.busyInfo
  ecodeErr he := by
    rw [acknowledge_status, Status.writeOneToClear_err] at he
    rw [acknowledge_status, Status.writeOneToClear_ecode]
    split
    · rfl
    · next hkeep =>
      rw [Bool.eq_false_of_not_eq_true hkeep] at he
      exact h.ecodeErr (by simpa using he)
  ecodeLegal := by
    rw [acknowledge_status, Status.writeOneToClear_ecode]
    split
    · rfl
    · exact h.ecodeLegal
  subLegal := h.subLegal
  res3 := h.res3
  idleWait := h.idleWait
  illegalWait := h.illegalWait

theorem inv_softReset {s : State} (h : StateInv s) : StateInv (softReset s) :=
  { inv_reset with ram := wf_abortedRam h.ram }

theorem inv_writeReg {s : State} (h : StateInv s) (w : Word) (r : Reg) : StateInv (writeReg s w r) := by
  rcases writeReg_cases s w r with e | ⟨_, _, e⟩ | ⟨_, _, e⟩ | ⟨_, e⟩ | ⟨_, e⟩ | ⟨_, _, e⟩ | ⟨_, _, _, e⟩ | ⟨_, _, e⟩ <;>
    rw [e]
  · exact h
  · exact { inv_softReset h with }
  · exact { h with }
  · exact inv_acknowledge h w
  · exact { h with }
  · exact inv_launch h w
  · exact { h with }
  · exact { h with }

theorem inv_serve {s : State} (h : StateInv s) (t : Transaction) : StateInv (serve s t).1 := by
  rcases serve_cases s t with e | ⟨_, w, r, _, _, e⟩ | ⟨off, size, w, _, _, _, _, _, e⟩ <;> rw [e]
  · exact h
  · exact inv_writeReg h w r
  · exact { h with ram := wf_writeBytes _ h.ram _ }

theorem inv_takeEvent {s : State} (h : StateInv s) (ev : HostEvent) : StateInv (takeEvent s ev) := by
  cases ev with
  | bus t => exact { inv_serve h t with }
  | powerOnReset => exact { inv_reset with }

/-- Settles O14: every field of the invariant holds of the reset values by evaluation. -/
theorem resetMeetsInvariant : Obligations.ResetMeetsInvariant := inv_reset

/-- Settles O15: by the four things a step can do; an event taken while a command runs also lowers `wait`, and a wait
that is 0 stays 0. -/
theorem stepKeepsInvariant : Obligations.StepKeepsInvariant := by
  intro s t h hstep
  rcases step_cases hstep with ⟨_, _, hrun⟩ | ⟨ev, rest, hbusy, _, _, rfl⟩ | ⟨ev, rest, _, _, rfl⟩ | ⟨_, _, rfl⟩
  · exact inv_runCommand h hrun
  · refine inv_takeEvent (s := { s with host := rest, wait := s.wait - 1 })
      { h with idleWait := fun hidle => ?_, illegalWait := fun e hb he => ?_ } ev
    · exact absurd (hidle.symm.trans hbusy) (by decide)
    · exact congrArg (· - 1) (h.illegalWait e hb he)
  · exact inv_takeEvent (s := { s with host := rest }) { h with } ev
  · exact h

/-! ## What a completion sets -/

/-- Settles O9: both completions say it field by field. -/
theorem completionSetsStatus : Obligations.CompletionSetsStatus := by
  intro i s t h
  rcases exec_cases h with ⟨_, _, rfl⟩ | ⟨_, _, _, rfl⟩
  · exact ⟨rfl, rfl, rfl, Bool.and_true _, nofun⟩
  · exact ⟨rfl, rfl, rfl, Bool.and_true _, fun _ => ⟨rfl, rfl⟩⟩

/-! ## What a command may write -/

/-- Whether a command may write the byte at `a`: which commands write MEM_R, BITBUF and BOARD (10_state.md R33, R35,
R36), and of BOARD the cells of the board alone (43_mask.md R123). -/
def mayWrite (i : Instr) (s : State) (a : Nat) : Prop :=
  (i ∈ [Instr.polyMul, .genPoly, .rsEcc] ∧ 0x1400 ≤ a ∧ a < 0x1500) ∨
  (i ∈ [Instr.packNum, .packAlnum, .packKanji, .packByte, .packBits] ∧ 0x4000 ≤ a ∧ a < 0x5000) ∨
  (i ∈ [Instr.maskApply, .maskSelect true false, .maskSelect true true] ∧
    0x8000 ≤ a ∧ a < 0x8000 + dimOf s * dimOf s)

theorem runPack_fits {paired : Bool} {nbits : Nat → Nat} {fields : List Byte → Except Nat (List Field)} {s t : State}
    (h : runPack paired nbits fields s = .ok t) : arg2 s + nbits (arg1 s) ≤ 32768 := by
  rcases runPack_cases paired nbits fields s with ⟨_, e⟩ | ⟨_, _, _, e⟩ | ⟨_, _, _, e⟩ | ⟨_, _, hfits, _⟩
  · rw [e] at h; cases h
  · rw [e] at h; cases h
  · rw [e] at h; cases h
  · exact hfits

/-- The destination region of a command that raises nothing lies in its output memory. -/
theorem mayWrite_of_inRegion {i : Instr} {s t : State} (h : runOf i s = .ok t) {a j : Nat} (hj : j < 8)
    (hin : inRegion (destination i s) a j) : mayWrite i s a := by
  have bits : ∀ {p n}, i ∈ [Instr.packNum, .packAlnum, .packKanji, .packByte, .packBits] → p + n ≤ 32768 →
      inRegion (.bits p n) a j → mayWrite i s a := fun hi hfits hin =>
    let ⟨hlo, hhi, _⟩ := (inRegion_bits hj hfits).1 hin
    .inr (.inl ⟨hi, hlo, hhi⟩)
  cases i with
  | nop | gfMul | gfPow | polyEval | maskScore => exact hin.elim
  | polyMul | genPoly | rsEcc =>
    simp only [runOf, runPolyMul, runGenPoly, runRsEcc] at h
    repeat (split at h; · cases h)
    simp only [destination, inRegion, Window.base] at hin
    exact .inl ⟨by simp, by omega⟩
  | packNum => exact bits (by simp) (runPack_fits h) hin
  | packAlnum => exact bits (by simp) (runPack_fits h) hin
  | packKanji => exact bits (by simp) (runPack_fits h) hin
  | packByte => exact bits (by simp) (runPack_fits (paired := false) (fields := byteEncode) h) hin
  | packBits =>
    simp only [runOf, runPackBits] at h
    repeat (split at h; · cases h)
    next hfits => exact bits (by simp) (Nat.le_of_not_lt hfits) hin
  | maskApply => exact .inr (.inr ⟨by simp, hin⟩)
  | maskSelect commit force =>
    cases commit with
    | false => exact hin.elim
    | true => exact .inr (.inr ⟨by cases force <;> simp, hin⟩)

/-- A byte outside the command's output memory is left alone, whether the command fails or not. -/
theorem exec_byteKept {i : Instr} {s t : State} (hw : s.ram.wf = true) (h : exec i s = .next t) {a : Nat}
    (hmemR : i ∈ [Instr.polyMul, .genPoly, .rsEcc] → ¬ (0x1400 ≤ a ∧ a < 0x1500))
    (hbitbuf : i ∈ [Instr.packNum, .packAlnum, .packKanji, .packByte, .packBits] → ¬ (0x4000 ≤ a ∧ a < 0x5000))
    (hboard : i ∈ [Instr.maskApply, .maskSelect true false, .maskSelect true true] →
      ¬ (0x8000 ≤ a ∧ a < 0x8000 + dimOf s * dimOf s)) : byteKept s.ram t.ram a := by
  rcases exec_cases h with ⟨_, _, rfl⟩ | ⟨u, hu, _, rfl⟩
  · exact byteKept_refl _ _
  · refine byteKept_of_bits fun j hj => runOf_region (t := u) hw hu hj fun hin => ?_
    rcases mayWrite_of_inRegion hu hj hin with ⟨hi, ha⟩ | ⟨hi, ha⟩ | ⟨hi, ha⟩
    · exact hmemR hi ha
    · exact hbitbuf hi ha
    · exact hboard hi ha

/-- Settles O11: both completions keep the registers, and MEM_A, MEM_B and IN are no output. -/
theorem commandsKeepTheirInputs : Obligations.CommandsKeepTheirInputs := by
  intro i s t hw h
  have hram : ∀ a, (0x1200 ≤ a ∧ a < 0x1400) ∨ (0x2000 ≤ a ∧ a < 0x4000) → byteKept s.ram t.ram a :=
    fun a _ => exec_byteKept hw h (fun _ => by omega) (fun _ => by omega) (fun _ => by omega)
  rcases exec_cases h with ⟨_, _, rfl⟩ | ⟨u, _, ⟨_, hr3⟩, rfl⟩
  · exact ⟨rfl, rfl, rfl, rfl, rfl, rfl, rfl, hram⟩
  · exact ⟨rfl, rfl, rfl, rfl, hr3, rfl, rfl, hram⟩

/-! ## The writers of each output -/

theorem runPack_scores_pens {paired : Bool} {nbits : Nat → Nat} {fields : List Byte → Except Nat (List Field)}
    {s t : State} (h : runPack paired nbits fields s = .ok t) : t.scores = s.scores ∧ t.pens = s.pens := by
  rcases runPack_cases paired nbits fields s with ⟨_, e⟩ | ⟨_, _, _, e⟩ | ⟨_, _, _, e⟩ | ⟨_, _, _, ⟨_, _, e⟩ | ⟨_, _, e⟩⟩ <;>
    rw [e] at h <;> cases h
  exact ⟨rfl, rfl⟩

@[simp] theorem commitMask_scores (commit : Bool) (s : State) (m : Nat) (cells : List Byte) :
    (commitMask commit s m cells).scores = s.scores := by cases commit <;> rfl

@[simp] theorem commitMask_pens (commit : Bool) (s : State) (m : Nat) (cells : List Byte) :
    (commitMask commit s m cells).pens = s.pens := by cases commit <;> rfl

@[simp] theorem putScore_scores (s : State) (cells : List Byte) : (putScore s cells).scores = s.scores := by
  unfold putScore
  split <;> rfl

theorem putScore_pens_micro {s : State} (h : s.bcfg.micro = true) (cells : List Byte) :
    (putScore s cells).pens = s.pens := by
  rw [putScore, if_pos h]
  rfl

/-- Only MASK_SELECT without FORCE writes SCORE, and only MASK_SCORE on a standard board writes PEN (10_state.md R30,
R31). -/
def KeepsScoreAndPen (i : Instr) (s t : State) : Prop :=
  ((∀ commit, i ≠ .maskSelect commit false) → t.scores = s.scores) ∧
    ((i ≠ .maskScore ∨ s.bcfg.micro = true) → t.pens = s.pens)

theorem keepsScoreAndPen_of_eq {i : Instr} {s t : State} (h : t.scores = s.scores ∧ t.pens = s.pens) :
    KeepsScoreAndPen i s t := ⟨fun _ => h.1, fun _ => h.2⟩

theorem runOf_keepsScoreAndPen {i : Instr} {s t : State} (h : runOf i s = .ok t) : KeepsScoreAndPen i s t := by
  cases i with
  | nop => cases h; exact keepsScoreAndPen_of_eq ⟨rfl, rfl⟩
  | gfMul | gfPow | polyMul | genPoly | rsEcc | polyEval | packBits =>
    simp only [runOf, runGfMul, runGfPow, runPolyMul, runGenPoly, runRsEcc, runPolyEval, runPackBits] at h
    repeat (split at h; · cases h)
    cases h; exact keepsScoreAndPen_of_eq ⟨rfl, rfl⟩
  | packNum => exact keepsScoreAndPen_of_eq (runPack_scores_pens h)
  | packAlnum => exact keepsScoreAndPen_of_eq (runPack_scores_pens h)
  | packKanji => exact keepsScoreAndPen_of_eq (runPack_scores_pens h)
  | packByte =>
    exact keepsScoreAndPen_of_eq (runPack_scores_pens (paired := false) (nbits := byteBits) (fields := byteEncode) h)
  | maskApply => obtain rfl := firstError_ok h; exact keepsScoreAndPen_of_eq ⟨rfl, rfl⟩
  | maskScore =>
    obtain rfl := firstError_ok h
    exact ⟨fun _ => putScore_scores _ _, fun hc => putScore_pens_micro (hc.resolve_left fun hne => hne rfl) _⟩
  | maskSelect commit force =>
    cases force with
    | true => obtain rfl := firstError_ok h; exact keepsScoreAndPen_of_eq ⟨commitMask_scores .., commitMask_pens ..⟩
    | false => obtain rfl := firstError_ok h; exact ⟨fun hne => absurd rfl (hne commit), fun _ => commitMask_pens ..⟩

theorem exec_keepsScoreAndPen {i : Instr} {s t : State} (h : exec i s = .next t) : KeepsScoreAndPen i s t := by
  rcases exec_cases h with ⟨_, _, rfl⟩ | ⟨u, hu, _, rfl⟩
  · exact ⟨fun _ => rfl, fun _ => rfl⟩
  · exact runOf_keepsScoreAndPen (t := u) hu

/-- Settles O12: the bytes by where each command may write, SCORE and PEN by what a run keeps. -/
theorem outputsHaveTheirWriters : Obligations.OutputsHaveTheirWriters := by
  intro i s t hw h
  obtain ⟨hscores, hpens⟩ := exec_keepsScoreAndPen h
  refine ⟨hscores, hpens, fun hi a _ _ => ?_, fun hi a _ _ => ?_, fun hi a _ _ => ?_, fun a _ => ?_⟩
  · exact exec_byteKept hw h (fun hm => absurd hm hi) (fun _ => by omega) (fun _ => by omega)
  · exact exec_byteKept hw h (fun _ => by omega) (fun hm => absurd hm hi) (fun _ => by omega)
  · exact exec_byteKept hw h (fun _ => by omega) (fun _ => by omega) (fun hm => absurd hm hi)
  · exact exec_byteKept hw h (fun _ => by omega) (fun _ => by omega) (fun _ => by omega)

/-! ## Results as a function of the inputs -/

/-- Two states that a command cannot tell apart: they agree on its operands, on the old values of its outputs, and on what
every RAM byte reads as (10_state.md R41). -/
structure SameInputs (s t : State) : Prop where
  args : s.args = t.args
  bcfg : s.bcfg = t.bcfg
  res : s.res = t.res
  scores : s.scores = t.scores
  pens : s.pens = t.pens
  ram : s.ram = t.ram
  reads : ∀ a, isRam a = true → readByte s.ram s.draws a = readByte t.ram t.draws a

/-- A state with the outputs of another. -/
def withOutputsOf (t u : State) : State := { t with res := u.res, scores := u.scores, pens := u.pens, ram := u.ram }

theorem withOutputsOf_setRes0 (t u : State) (w : Word) :
    withOutputsOf t (setRes0 u w) = setRes0 (withOutputsOf t u) w := rfl
theorem withOutputsOf_setRes01 (t u : State) (w0 w1 : Word) :
    withOutputsOf t (setRes01 u w0 w1) = setRes01 (withOutputsOf t u) w0 w1 := rfl
theorem withOutputsOf_setRes012 (t u : State) (w0 w1 w2 : Word) :
    withOutputsOf t (setRes012 u w0 w1 w2) = setRes012 (withOutputsOf t u) w0 w1 w2 := rfl
theorem withOutputsOf_putResult (t u : State) (r : List Byte) (n : Nat) :
    withOutputsOf t (putResult u r n) = putResult (withOutputsOf t u) r n := rfl
theorem withOutputsOf_putBoard (t u : State) (cells : List Byte) :
    withOutputsOf t (putBoard u cells) = putBoard (withOutputsOf t u) cells := rfl

theorem withOutputsOf_setRam (t u : State) (m : Memory) :
    withOutputsOf t { u with ram := m } = { withOutputsOf t u with ram := m } := rfl
theorem withOutputsOf_setScores (t u : State) (c : Scores) :
    withOutputsOf t { u with scores := c } = { withOutputsOf t u with scores := c } := rfl
theorem withOutputsOf_setPens (t u : State) (p : Penalties) :
    withOutputsOf t { u with pens := p } = { withOutputsOf t u with pens := p } := rfl

theorem firstError_map (f : State → State) : ∀ (checks : List (Option CmdError)) (u : State),
    (firstError checks u).map f = firstError checks (f u)
  | [], _ => rfl
  | none :: checks, u => firstError_map f checks u
  | some _ :: _, _ => rfl

/-- The board of a legal configuration lies in BOARD (43_mask.md R122, R123, R130). -/
theorem dimOf_sq_le {s : State} (h : bcfgLegal s.bcfg = true) : dimOf s * dimOf s ≤ 32768 := by
  have hdim : dimOf s ≤ 177 := by
    unfold bcfgLegal at h
    unfold dimOf boardDim verOf
    cases hm : s.bcfg.micro <;> simp only [hm, if_true, if_false, decide_eq_true_eq, Bool.false_eq_true] at h ⊢ <;> omega
  exact (Nat.mul_le_mul hdim hdim).trans (by decide)

namespace SameInputs

variable {s t : State} (h : SameInputs s t)
include h

theorem withOutputsOf_eq : withOutputsOf t s = t := by
  rw [withOutputsOf, h.res, h.scores, h.pens, h.ram]

theorem arg0_eq : arg0 s = arg0 t := by rw [arg0, h.args, arg0]
theorem arg1_eq : arg1 s = arg1 t := by rw [arg1, h.args, arg1]
theorem arg2_eq : arg2 s = arg2 t := by rw [arg2, h.args, arg2]
theorem dimOf_eq : dimOf s = dimOf t := by rw [dimOf, verOf, h.bcfg, dimOf, verOf]
theorem checkBcfg_eq : checkBcfg s = checkBcfg t := by rw [checkBcfg, h.bcfg, checkBcfg]
theorem checkMaskId_eq (m : Nat) : checkMaskId s m = checkMaskId t m := by rw [checkMaskId, h.bcfg, checkMaskId]

theorem readBytes_eq {a n : Nat} (hram : ∀ k, k < n → isRam (a + k) = true) :
    readBytes s.ram s.draws a n = readBytes t.ram t.draws a n :=
  List.map_congr_left fun k hk => h.reads _ (hram k (List.mem_range.1 hk))

theorem memABytes_eq {n : Nat} (hn : n ≤ 256) : memABytes s n = memABytes t n :=
  h.readBytes_eq fun k hk => (isRam_iff _).2 (by rw [Window.base]; omega)

theorem memBBytes_eq {n : Nat} (hn : n ≤ 256) : memBBytes s n = memBBytes t n :=
  h.readBytes_eq fun k hk => (isRam_iff _).2 (by rw [Window.base]; omega)

theorem boardCells_eq (hlegal : bcfgLegal s.bcfg = true) : boardCells s = boardCells t := by
  have hn := dimOf_sq_le hlegal
  rw [boardCells, h.readBytes_eq fun k hk => (isRam_iff _).2 (by rw [Window.base]; omega), h.dimOf_eq, boardCells]

theorem runPack_eq (paired : Bool) (nbits : Nat → Nat) (fields : List Byte → Except Nat (List Field)) :
    (runPack paired nbits fields s).map (withOutputsOf t) = runPack paired nbits fields t := by
  simp only [runPack, h.arg0_eq, h.arg1_eq, h.arg2_eq]
  split
  · rfl
  split
  · rfl
  split
  · rfl
  next hin _ _ =>
    rw [h.readBytes_eq fun k hk => (isRam_iff _).2 (by simp only [Window.size, Window.base] at *; omega)]
    cases fields (readBytes t.ram t.draws (Window.inBytes.base + arg0 t) (arg1 t)) with
    | error off => rfl
    | ok fs =>
      refine congrArg Except.ok ?_
      rw [withOutputsOf_setRes01, withOutputsOf_setRam, h.withOutputsOf_eq, h.ram]

/-- A mask command: a check of BCFG before anything looks at the board. -/
theorem maskRun_eq {checks : State → List Byte → List (Option CmdError)} {result : State → List Byte → State}
    (hchecks : ∀ cells, checks s cells = checks t cells)
    (hresult : ∀ cells, withOutputsOf t (result s cells) = result t cells) :
    (firstError (checkBcfg s :: checks s (boardCells s)) (result s (boardCells s))).map (withOutputsOf t) =
      firstError (checkBcfg t :: checks t (boardCells t)) (result t (boardCells t)) := by
  by_cases hlegal : bcfgLegal s.bcfg = true
  · rw [firstError_map, hresult, hchecks, h.checkBcfg_eq, h.boardCells_eq hlegal]
  · rw [← h.checkBcfg_eq, checkBcfg, if_neg hlegal]
    rfl

theorem commitMask_eq (commit : Bool) (m : Nat) (cells : List Byte) :
    withOutputsOf t (commitMask commit s m cells) = commitMask commit t m cells := by
  cases commit with
  | false => exact h.withOutputsOf_eq
  | true =>
    rw [commitMask, if_pos rfl, withOutputsOf_putBoard, h.withOutputsOf_eq, h.dimOf_eq]
    rfl

theorem putScore_eq (cells : List Byte) : withOutputsOf t (putScore s cells) = putScore t cells := by
  unfold putScore
  rw [apply_ite (withOutputsOf t), withOutputsOf_setRes012, withOutputsOf_setRes01,
    withOutputsOf_setPens t s (penaltiesOf (dimOf s) cells), h.withOutputsOf_eq, h.bcfg, h.dimOf_eq]

theorem selectForced_eq (commit : Bool) (cells : List Byte) :
    withOutputsOf t (selectForced commit s cells) = selectForced commit t cells := by
  rw [selectForced, withOutputsOf_setRes012, h.commitMask_eq, h.arg0_eq, h.bcfg, selectForced]

theorem selectScored_eq (commit : Bool) (cells : List Byte) :
    withOutputsOf t (selectScored commit s cells) = selectScored commit t cells := by
  rw [selectScored, selectWinner, withOutputsOf_setRes012, withOutputsOf_setScores, h.commitMask_eq, h.dimOf_eq, h.bcfg,
    selectScored, selectWinner]

/-- A run takes from the state it starts in nothing but its inputs. -/
theorem runOf_eq (i : Instr) : (runOf i s).map (withOutputsOf t) = runOf i t := by
  cases i with
  | nop => exact congrArg Except.ok h.withOutputsOf_eq
  | gfMul | gfPow | genPoly | packBits =>
    simp only [runOf, runGfMul, runGfPow, runGenPoly, runPackBits, h.arg0_eq, h.arg1_eq, h.arg2_eq]
    repeat (split; · rfl)
    refine congrArg Except.ok ?_
    simp only [withOutputsOf_setRes0, withOutputsOf_setRes01, withOutputsOf_putResult, withOutputsOf_setRam,
      h.withOutputsOf_eq, h.ram]
  | polyMul =>
    simp only [runOf, runPolyMul, h.arg0_eq, h.arg1_eq]
    repeat (split; · rfl)
    refine congrArg Except.ok ?_
    rw [withOutputsOf_putResult, h.withOutputsOf_eq, h.memABytes_eq (by omega), h.memBBytes_eq (by omega)]
  | rsEcc =>
    simp only [runOf, runRsEcc, h.arg0_eq, h.arg1_eq]
    repeat (split; · rfl)
    refine congrArg Except.ok ?_
    rw [withOutputsOf_putResult, h.withOutputsOf_eq, h.memABytes_eq (by omega)]
  | polyEval =>
    simp only [runOf, runPolyEval, h.arg0_eq, h.arg1_eq]
    repeat (split; · rfl)
    refine congrArg Except.ok ?_
    rw [withOutputsOf_setRes0, h.withOutputsOf_eq, h.memABytes_eq (by omega)]
  | packNum => exact h.runPack_eq false numBits numEncode
  | packAlnum => exact h.runPack_eq false alnumBits alnumEncode
  | packKanji => exact h.runPack_eq true kanjiBits kanjiEncode
  | packByte => exact h.runPack_eq false byteBits byteEncode
  | maskApply =>
    refine h.maskRun_eq (checks := fun s cells => [checkMaskId s (arg0 s), checkBoard cells])
      (result := fun s cells => setRes0 (putBoard s (applyMask (dimOf s) (arg0 s) cells)) (toWord (arg0 s)))
      (fun cells => ?_) fun cells => ?_
    · rw [h.arg0_eq, h.checkMaskId_eq]
    · rw [withOutputsOf_setRes0, withOutputsOf_putBoard, h.withOutputsOf_eq, h.arg0_eq, h.dimOf_eq]
  | maskScore =>
    exact h.maskRun_eq (checks := fun _ cells => [checkBoard cells]) (result := putScore) (fun _ => rfl) h.putScore_eq
  | maskSelect commit force =>
    cases force with
    | false =>
      exact h.maskRun_eq (checks := fun _ cells => [checkBoard cells]) (result := selectScored commit) (fun _ => rfl)
        (h.selectScored_eq commit)
    | true =>
      refine h.maskRun_eq (checks := fun s cells => [checkMaskId s (arg0 s), checkBoard cells])
        (result := selectForced commit) (fun cells => ?_) (h.selectForced_eq commit)
      rw [h.arg0_eq, h.checkMaskId_eq]

end SameInputs

/-- A byte every bit of which holds a value reads alike whatever is drawn; so does any byte under one draw. -/
theorem readByte_eq_of_draws {m : Memory} {d d' : Nat}
    (h : d = d' ∨ ∀ a, isRam a = true → planeGet m.known a = 0xFF#8) {a : Nat} (ha : isRam a = true) :
    readByte m d a = readByte m d' a := by
  rcases h with rfl | hknown
  · rfl
  · rw [readByte_known d (romByte_of_isRam ha) (hknown a ha), readByte_known d' (romByte_of_isRam ha) (hknown a ha)]

/-- Settles O13: the run of the second state is the run of the first with its outputs carried over. -/
theorem resultsDependOnInputsOnly : Obligations.ResultsDependOnInputsOnly := by
  intro i s t s' t' hargs hbcfg hres hscores hpens hram hdraws hs ht
  have hsame : SameInputs s t :=
    ⟨hargs, hbcfg, hres, hscores, hpens, hram, fun a ha => by rw [← hram]; exact readByte_eq_of_draws hdraws ha⟩
  rw [exec_next hs, exec_next ht, ← hsame.runOf_eq i]
  cases runOf i s with
  | error e => exact ⟨hres, hscores, hpens, hram, rfl, rfl, rfl⟩
  | ok u => exact ⟨rfl, rfl, rfl, rfl, rfl, rfl, rfl⟩

/-! ## Power-on reset -/

theorem romByte_exp {i : Nat} (h : i < 256) : romByte (0x1000 + i) = some (expAt i) := by
  have hw : windowAt (0x1000 + i) = some .exp := by
    rw [windowAt, if_neg (by omega), if_pos (by omega)]
  rw [romByte, hw]
  simp [expAt]

theorem romByte_log {i : Nat} (h : i < 256) : romByte (0x1100 + i) = some (logTable.getD i 0#8) := by
  have hw : windowAt (0x1100 + i) = some .log := by
    rw [windowAt, if_neg (by omega), if_neg (by omega), if_pos (by omega)]
  rw [romByte, hw]
  simp

theorem readByte_rom {a : Nat} {b : Byte} (h : romByte a = some b) (m : Memory) (d : Nat) : readByte m d a = b := by
  rw [readByte, h]

theorem logAt_ofNat {i : Nat} (h : i < 256) : logAt (BitVec.ofNat 8 i) = (logTable.getD i 0#8).toNat := by
  rw [logAt, BitVec.toNat_ofNat, Nat.mod_eq_of_lt h]

theorem readReg_reset (r : Reg) : readReg State.reset r = if r = .id then 0x51524501#32 else 0#32 := by
  cases r with
  | arg n | res n | score n | pen n => revert n; decide
  | id | ctrl | status | cmd | errInfo | bcfg => rfl

/-- The registers read as they do in a state with the same ones. -/
theorem readReg_powerOnReset (s : State) (r : Reg) : readReg (takeEvent s .powerOnReset) r = readReg State.reset r := by
  cases r <;> rfl

/-- Settles O16: a power-on reset leaves the registers and the RAM of the reset state, and the ROMs are constants. -/
theorem powerOnResetValues : Obligations.PowerOnResetValues := by
  intro s hs
  have hroms : ∀ i, i < 256 → readByte s.ram s.draws (0x1000 + i) = expAt i ∧
      (readByte s.ram s.draws (0x1100 + i)).toNat = logAt (BitVec.ofNat 8 i) := fun i hi =>
    ⟨readByte_rom (romByte_exp hi) _ _, by rw [readByte_rom (romByte_log hi), logAt_ofNat hi]⟩
  rcases hs with rfl | ⟨s0, rfl⟩
  · exact ⟨readReg_reset, rfl, rfl, fun _ => rfl, hroms⟩
  · exact ⟨fun r => (readReg_powerOnReset s0 r).trans (readReg_reset r), rfl, rfl, fun _ => rfl, hroms⟩

/-! ## The registers the host writes -/

/-- A write of a register's offset as a whole word is answered OKAY (20_memory.md R50, R51). -/
theorem serve_write_offset (s : State) (r : Reg) (w : Word) :
    serve s (.write (BitVec.ofNat 16 r.offset) .four w) = (writeReg s w r, ⟨true, 0⟩) :=
  serve_write_reg w (target_offset s r)

/-- What STATUS reads as after an acknowledgement, bit by bit (10_state.md R20, R22 to R24). -/
theorem statusWord_writeOneToClear_bit (st : Status) (w : Word) {j : Nat} (hj : j < 32) :
    (st.writeOneToClear w).word.getLsbD j =
    (if j = 1 ∨ j = 2 ∨ j = 3 then st.word.getLsbD j && !w.getLsbD j
    else if 8 ≤ j ∧ j < 12 then st.word.getLsbD j && !w.getLsbD 2
    else if j = 0 then st.busy
    else false) := by
  rw [statusWord_bit _ hj, statusWord_bit _ hj]
  by_cases hecode : 8 ≤ j ∧ j < 12
  · have hlow : j ≠ 0 ∧ j ≠ 1 ∧ j ≠ 2 ∧ j ≠ 3 := by omega
    cases hw : w.getLsbD 2 <;> simp only [hlow, hecode, hw, Status.writeOneToClear_ecode] <;> simp
  · by_cases hlow : j < 4
    · interval_cases j <;> simp
    · have hne : j ≠ 0 ∧ j ≠ 1 ∧ j ≠ 2 ∧ j ≠ 3 := by omega
      simp [hecode, hne]

/-- Settles O22: the write is an acknowledgement, which changes STATUS alone. -/
theorem statusWriteOneToClear : Obligations.StatusWriteOneToClear := fun s w =>
  ⟨s.status.writeOneToClear w, serve_write_offset s .status w, fun _ hj => statusWord_writeOneToClear_bit s.status w hj⟩

theorem args_get_set (a : Args) (w : Word) (n k : Fin 4) : (a.set w n).get k = if k = n then w else a.get k := by
  fin_cases n <;> fin_cases k <;> rfl

theorem readReg_setArg (s : State) (w : Word) (n : Fin 4) (r : Reg) :
    readReg { s with args := s.args.set w n } r = if r = .arg n then w else readReg s r := by
  cases r with
  | arg k => simpa [readReg] using args_get_set s.args w n k
  | _ => rfl

theorem readReg_setBcfg (s : State) (w : Word) (r : Reg) :
    readReg { s with bcfg := Bcfg.ofWord w } r = if r = .bcfg then w &&& 0x13F#32 else readReg s r := by
  cases r with
  | bcfg => exact bcfgWord_ofWord w
  | _ => rfl

/-- What CTRL reads as after a write: bit 0 of the word (10_state.md R19). -/
theorem ctrlWord_ofBit (w : Word) : Ctrl.word ⟨w.getLsbD 0⟩ = w &&& 1#32 := by
  apply BitVec.eq_of_getLsbD_eq
  intro i hi
  unfold Ctrl.word bit
  rw [BitVec.getLsbD_append (n := 31) (m := 1)]
  interval_cases i <;> simp

theorem readReg_setCtrl (s : State) (w : Word) (r : Reg) :
    readReg { s with ctrl := ⟨w.getLsbD 0⟩ } r = if r = .ctrl then w &&& 1#32 else readReg s r := by
  cases r with
  | ctrl => exact ctrlWord_ofBit w
  | _ => rfl

/-- Settles O23: while idle each of the three writes replaces its register's field. -/
theorem registerWritesReadBack : Obligations.RegisterWritesReadBack := by
  intro s w hidle
  refine ⟨fun n => ⟨s.args.set w n, ?_, readReg_setArg s w n⟩, ⟨Bcfg.ofWord w, ?_, readReg_setBcfg s w⟩,
    fun hsrst => ⟨⟨w.getLsbD 0⟩, ?_, readReg_setCtrl s w⟩⟩
  · refine (serve_write_offset s (.arg n) w).trans ?_
    simp [writeReg, hidle]
  · refine (serve_write_offset s .bcfg w).trans ?_
    simp [writeReg, hidle]
  · refine (serve_write_offset s .ctrl w).trans ?_
    rw [writeReg, writeCtrl, hsrst]
    rfl

/-- A RAM byte of which no bit holds a value reads as the draw (10_state.md R38). -/
theorem readByte_unwritten {m : Memory} {a : Nat} (hr : isRam a = true) (hk : planeGet m.known a = 0#8) (d : Nat) :
    readByte m d a = Config.freeByte d a := by
  rw [readByte, romByte_of_isRam hr]
  simpa [hk] using and_ff (Config.freeByte d a)

theorem littleEndian_one (b : Byte) : littleEndian [b] = b.toNat := by simp [littleEndian]

theorem serve_read_mem {s : State} {off : Offset} {size : Size} {win : Window}
    (h : target s off size = some (.mem win)) : serve s (.read off size) =
      (s, ⟨true, toWord (littleEndian (readBytes s.ram s.draws off.toNat size.bytes))⟩) := by
  simp only [serve, h]; rfl

/-- Settles O25: a read of size 1 answers the one byte it reads. -/
theorem unwrittenByteReadsAsDraw : Obligations.UnwrittenByteReadsAsDraw := by
  intro s off hidle hr hk
  obtain ⟨win, htarget⟩ := target_ram (size := .one) hidle hr (Nat.mod_one _)
  have hbytes : readBytes s.ram s.draws off.toNat Size.one.bytes = [Config.freeByte s.draws off.toNat] :=
    congrArg (fun b => [b]) (readByte_unwritten hr hk s.draws)
  rw [serve_read_mem htarget, hbytes, littleEndian_one]
  show (BitVec.ofNat 32 _).toNat = _
  rw [BitVec.toNat_ofNat]
  omega

theorem ctrlWord_bit_zero (c : Ctrl) : c.word.getLsbD 0 = c.ie := by
  rcases c with ⟨ie⟩
  cases ie <;> rfl

/-- Settles O26: the two bits are IE and DONE. -/
theorem irqIsEnabledDone : Obligations.IrqIsEnabledDone := by
  intro s
  have hdone : s.status.word.getLsbD 1 = s.status.done := statusWord_bit s.status (by decide)
  refine ⟨?_, by simp [irqInput]⟩
  rw [readReg, ctrlWord_bit_zero, readReg, hdone, irq]

end Sys2Proof.Machine
end

section
/-! PROOFS. 20_memory.md: the bus accesses to the registers and memories, and the bits of BITBUF. -/

namespace Sys2Proof.Machine

/-! ## Little-endian accesses to the memories -/

theorem bytes_le_four (size : Size) : size.bytes ≤ 4 := by cases size <;> decide

/-- From 0x1000 on an accepted access reaches a memory: the registers lie below (20_memory.md R48, R52). -/
theorem target_mem_of_ge {s : State} {off : Offset} {size : Size} {x : Target} (hoff : 0x1000 ≤ off.toNat)
    (h : target s off size = some x) : ∃ win, x = .mem win := by
  cases x with
  | mem win => exact ⟨win, rfl⟩
  | reg r =>
    unfold target at h
    cases hwin : windowAt off.toNat with
    | some win => simp [hwin] at h
    | none =>
      have hreg : regAt off.toNat = some r := by
        rw [hwin] at h
        dsimp only at h
        split at h
        · simpa using h
        · cases h
      have := (registerOffsets_lt ((regAt_iff _).1 ⟨r, hreg⟩)).1
      omega

theorem okay_serve_read_none {s : State} {off : Offset} {size : Size} (h : target s off size = none) :
    (serve s (.read off size)).2.okay = false := by
  simp only [serve, h]; rfl

/-- At most four bytes, as a number, fit the word that holds read data. -/
theorem toNat_toWord_littleEndian {bs : List Byte} (h : bs.length ≤ 4) :
    (toWord (littleEndian bs)).toNat = littleEndian bs := by
  have hlt : littleEndian bs < 2 ^ 32 :=
    calc littleEndian bs < 256 ^ bs.length := littleEndian_lt bs
      _ ≤ 256 ^ 4 := Nat.pow_le_pow_right (by decide) h
  rw [toWord, BitVec.toNat_ofNat, Nat.mod_eq_of_lt hlt]

/-- Byte `k` of the bytes read, 0 past the last one. -/
theorem getD_readBytes_or_zero (m : Memory) (d a n k : Nat) :
    ((readBytes m d a n).getD k 0#8).toNat = if k < n then (readByte m d (a + k)).toNat else 0 := by
  split
  · next h => rw [getD_readBytes m d a n k h]
  · next h => rw [List.getD_eq_default _ _ (by rw [length_readBytes]; omega)]; rfl

/-- The bytes of an accepted memory read (20_memory.md R57). -/
theorem serve_read_mem_byte {s : State} {off : Offset} {size : Size} {win : Window}
    (h : target s off size = some (.mem win)) (k : Nat) :
    (serve s (.read off size)).2.rdata.toNat / 256 ^ k % 256 =
      if k < size.bytes then (readByte s.ram s.draws (off.toNat + k)).toNat else 0 := by
  rw [serve_read_mem h, toNat_toWord_littleEndian (by simpa using bytes_le_four size), littleEndian_digit,
    getD_readBytes_or_zero]

/-- Settles O24: a RAM write stores the little-endian bytes of its data, and a read's data has the bytes it reads. -/
theorem littleEndianAccesses : Obligations.LittleEndianAccesses := by
  refine ⟨fun s off size w hwf hidle hr halign => ?_, fun s off size hoff hokay k _ => ?_⟩
  · obtain ⟨win, htarget⟩ := target_ram hidle hr halign
    have hlen := length_toLittleEndian size.bytes w.toNat
    refine ⟨_, serve_write_mem w htarget, fun k d hk => ?_, fun a ha => byteKept_writeBytes hwf _ (by rwa [hlen])⟩
    rw [readByte_writeBytes_inside hwf _ _ k d (by rwa [hlen]) (isRam_span hr halign hk), getD_toLittleEndian _ hk]
  · cases htarget : target s off size with
    | none => rw [okay_serve_read_none htarget] at hokay; cases hokay
    | some x =>
      obtain ⟨win, rfl⟩ := target_mem_of_ge hoff htarget
      exact serve_read_mem_byte htarget k

/-! ## The bits of BITBUF -/

/-- Settles O36: each bit written reads back as its bit of `v`, and no bit outside the field changes. -/
theorem bitWriteReplacesBits : Obligations.BitWriteReplacesBits :=
  ⟨fun _ _ _ _ => rfl, fun _ p w v hwf _ _ _ hfits =>
    ⟨fun t d ht => bitRead_bitWrite hwf p w v d t ht hfits, onlyBitsChange_bitWrite hwf p w v⟩⟩

/-! ## Writes that change nothing -/

/-- The registers a host write leaves alone (20_memory.md R54). -/
def Reg.readOnly : Reg → Bool
  | .id | .res _ | .errInfo | .score _ | .pen _ => true
  | .ctrl | .status | .cmd | .arg _ | .bcfg => false

theorem writeReg_readOnly {r : Reg} (h : r.readOnly = true) (s : State) (w : Word) : writeReg s w r = s := by
  cases r with
  | id | res | errInfo | score | pen => rfl
  | ctrl | status | cmd | arg | bcfg => cases h

/-- A write at the offset of a register of the class `p` is that register's write. -/
theorem serve_write_class {off : Offset} {p : Reg → Bool} (h : (regAt off.toNat).any p = true) (s : State) (w : Word) :
    ∃ r, p r = true ∧ serve s (.write off .four w) = (writeReg s w r, ⟨true, 0⟩) := by
  obtain ⟨r, hr, hp⟩ := (Option.any_eq_true _ _).1 h
  exact ⟨r, hp, serve_write_reg w (target_reg r hr)⟩

theorem regAt_readOnly : ∀ o ∈ [0x000, 0x020, 0x024, 0x028, 0x02C, 0x030, 0x040, 0x044, 0x048, 0x04C, 0x050, 0x054,
    0x058, 0x05C, 0x060, 0x064, 0x068, 0x06C], (regAt o).any Reg.readOnly = true := by decide

theorem writeOneToClear_of_zeros (st : Status) {w : Word} (h1 : w.getLsbD 1 = false) (h2 : w.getLsbD 2 = false)
    (h3 : w.getLsbD 3 = false) : st.writeOneToClear w = st := by
  cases st
  simp only [Status.writeOneToClear, h1, h2, h3]
  simp

theorem writeByte_of_not_ram {a : Nat} (h : isRam a = false) (m : Memory) (b : Byte) : writeByte m a b = m := by
  simp [writeByte, putBits, h]

/-- Bytes written where there is no RAM change nothing (20_memory.md R54). -/
theorem writeBytes_of_not_ram (m : Memory) (bs : List Byte) {a : Nat}
    (h : ∀ k, k < bs.length → isRam (a + k) = false) : writeBytes m a bs = m := by
  induction bs generalizing a with
  | nil => rfl
  | cons b bs ih =>
    have htail : ∀ k, k < bs.length → isRam (a + 1 + k) = false := fun k hk => by
      rw [Nat.add_assoc, Nat.add_comm 1 k]
      exact h (k + 1) (Nat.succ_lt_succ hk)
    rw [writeBytes, writeByte_of_not_ram (a := a) (h 0 (Nat.succ_pos _)), ih htail]

/-- The bytes of an aligned access that starts in a ROM are no RAM. -/
theorem isRam_rom_span {a : Nat} {size : Size} (hlo : 0x1000 ≤ a) (hhi : a < 0x1200) (ha : a % size.bytes = 0) {k : Nat}
    (hk : k < size.bytes) : isRam (a + k) = false := by
  rw [Bool.eq_false_iff, ne_eq, isRam_iff]
  cases size <;> simp only [Size.bytes] at * <;> omega

/-- A naturally aligned access to a ROM reaches it, BUSY or not. -/
theorem target_rom {s : State} {off : Offset} {size : Size} (hlo : 0x1000 ≤ off.toNat) (hhi : off.toNat < 0x1200)
    (ha : off.toNat % size.bytes = 0) : ∃ win, target s off size = some (.mem win) := by
  cases hwin : windowAt off.toNat with
  | none =>
    have := (windowAt_none_iff off.isLt).1 hwin
    omega
  | some win =>
    have hrom : ¬ win.isRam = true := by rw [windowAt_isRam hwin]; omega
    exact ⟨win, by unfold target; rw [hwin]; simp [ha, hrom]⟩

theorem serve_write_rom {off : Offset} {size : Size} (hlo : 0x1000 ≤ off.toNat) (hhi : off.toNat < 0x1200)
    (ha : off.toNat % size.bytes = 0) (s : State) (w : Word) : serve s (.write off size w) = (s, ⟨true, 0⟩) := by
  obtain ⟨win, htarget⟩ := target_rom (s := s) hlo hhi ha
  rw [serve_write_mem w htarget, writeBytes_of_not_ram]
  intro k hk
  rw [length_toLittleEndian] at hk
  exact isRam_rom_span hlo hhi ha hk

/-- Settles O19: the three kinds of write are to a read-only register, to a ROM, and an empty acknowledgement. -/
theorem readsAndReadOnlyWritesChangeNothing : Obligations.ReadsAndReadOnlyWritesChangeNothing := by
  refine ⟨serve_read, ?_⟩
  rintro s off size w (⟨hoff, rfl⟩ | ⟨hlo, hhi, halign⟩ | ⟨rfl, rfl, h1, h2, h3⟩)
  · obtain ⟨r, hro, hserve⟩ := serve_write_class (regAt_readOnly _ hoff) s w
    rw [hserve, writeReg_readOnly hro]
  · exact serve_write_rom hlo hhi halign s w
  · refine (serve_write_offset s .status w).trans ?_
    rw [writeReg, acknowledge, writeOneToClear_of_zeros s.status h1 h2 h3]

/-! ## Writes while a command runs -/

/-- The registers whose writes are dropped while BUSY (20_memory.md R66). -/
def Reg.droppedWhileBusy : Reg → Bool
  | .cmd | .arg _ | .bcfg => true
  | .id | .ctrl | .status | .res _ | .errInfo | .score _ | .pen _ => false

theorem writeReg_dropped {s : State} (hbusy : s.status.busy = true) {r : Reg} (h : r.droppedWhileBusy = true) (w : Word) :
    writeReg s w r = dropWrite s := by
  cases r with
  | cmd | arg | bcfg => exact if_pos hbusy
  | id | ctrl | status | res | errInfo | score | pen => cases h

theorem regAt_droppedWhileBusy : ∀ o ∈ [0x00C, 0x010, 0x014, 0x018, 0x01C, 0x034],
    (regAt o).any Reg.droppedWhileBusy = true := by decide

theorem writeReg_ctrl_noReset {w : Word} (h : w.getLsbD 1 = false) (s : State) :
    writeReg s w .ctrl = { s with ctrl := ⟨w.getLsbD 0⟩ } := by
  rw [writeReg, writeCtrl, h]; rfl

theorem writeReg_ctrl_reset {w : Word} (h : w.getLsbD 1 = true) (s : State) :
    writeReg s w .ctrl = { softReset s with ctrl := ⟨w.getLsbD 0⟩ } := by
  rw [writeReg, writeCtrl, h]; rfl

/-- Settles O21: the six registers drop the write, and CTRL and STATUS are written as they are while idle. -/
theorem busyWritesAreDropped : Obligations.BusyWritesAreDropped := by
  intro s w hbusy
  have hctrl : serve s (.write 0x0004 .four w) = (writeReg s w .ctrl, ⟨true, 0⟩) := serve_write_offset s .ctrl w
  refine ⟨fun off hoff => ?_, fun hsrst => ?_, fun hsrst => ?_, serve_write_offset s .status w⟩
  · obtain ⟨r, hdrop, hserve⟩ := serve_write_class (regAt_droppedWhileBusy _ hoff) s w
    rw [hserve, writeReg_dropped hbusy hdrop]
    rfl
  · rw [hctrl, writeReg_ctrl_noReset hsrst]
  · rw [hctrl, writeReg_ctrl_reset hsrst]
    exact ⟨rfl, rfl, rfl⟩

/-! ## What a register reads as -/

/-- A concatenation as a number: the high part times the low part's size, plus the low part. -/
theorem toNat_append_eq_add {n m : Nat} (x : BitVec n) (y : BitVec m) : (x ++ y).toNat = 2 ^ m * x.toNat + y.toNat := by
  rw [BitVec.toNat_append, ← Nat.shiftLeft_add_eq_or_of_lt y.isLt, Nat.shiftLeft_eq, Nat.mul_comm]

theorem toNat_bit (b : Bool) : (bit b).toNat = b.toNat := BitVec.toNat_ofBool b

theorem toNat_ctrlWord (c : Ctrl) : c.word.toNat = c.ie.toNat := by
  simp [Ctrl.word, toNat_append_eq_add (n := 31) (m := 1), toNat_bit]

theorem toNat_statusWord (st : Status) : st.word.toNat =
    st.busy.toNat + 2 * st.done.toNat + 4 * st.err.toNat + 8 * st.ovr.toNat + 256 * st.ecode.toNat := by
  rw [Status.word, toNat_append_eq_add (n := 20) (m := 12), toNat_append_eq_add (n := 4) (m := 8),
    toNat_append_eq_add (n := 4) (m := 4), toNat_append_eq_add (n := 1) (m := 3), toNat_append_eq_add (n := 1) (m := 2),
    toNat_append_eq_add (n := 1) (m := 1)]
  simp only [toNat_bit, BitVec.ofNat_eq_ofNat, BitVec.toNat_ofNat]
  omega

theorem toNat_errInfoWord (e : ErrInfo) : e.word.toNat = 0x1000000 * e.sub.toNat + e.idx.toNat :=
  toNat_append_eq_add e.sub e.idx

theorem toNat_bcfgWord (b : Bcfg) : b.word.toNat = 256 * b.micro.toNat + b.ver.toNat := by
  rw [Bcfg.word, toNat_append_eq_add (n := 23) (m := 9), toNat_append_eq_add (n := 1) (m := 8),
    toNat_append_eq_add (n := 2) (m := 6), toNat_bit]
  simp

/-- Settles O59: each register stands at its offset, and its word is the sum of its fields at their places. -/
theorem registerReadsGiveTheirValues : Obligations.RegisterReadsGiveTheirValues := by
  refine ⟨by decide, fun s => ⟨fun r => serve_read_reg (target_offset s r), rfl, toNat_ctrlWord _, toNat_statusWord _, rfl,
    fun n => ?_, fun n => ?_, toNat_errInfoWord _, toNat_bcfgWord _, fun n => ?_, fun n => ?_⟩⟩
  all_goals fin_cases n <;> rfl

end Sys2Proof.Machine
end

section
/-! PROOFS. 30_encoding.md: the fields of a command word, the checks of its decoder, its encoder, and illegal words. -/

namespace Sys2Proof.Machine

/-! ## The fields of a word -/

@[simp] theorem toNat_opcField (w : Word) : (opcField w).toNat = w.toNat % 256 := by simp [opcField]

@[simp] theorem toNat_flagsField (w : Word) : (flagsField w).toNat = w.toNat / 256 % 256 := by
  simp [flagsField, Nat.shiftRight_eq_div_pow]

@[simp] theorem toNat_rsvdField (w : Word) : (rsvdField w).toNat = w.toNat / 65536 := by
  rw [rsvdField, BitVec.extractLsb'_toNat, Nat.shiftRight_eq_div_pow]
  omega

theorem flagsField_bit {n : Nat} (hn : n < 8) (w : Word) : (flagsField w).getLsbD n = w.getLsbD (8 + n) := by
  simp [flagsField, hn]

/-- A word is its three fields in a row (30_encoding.md R71, R73). -/
theorem fields_append (w : Word) : rsvdField w ++ (flagsField w ++ opcField w) = w := by
  apply BitVec.eq_of_toNat_eq
  rw [toNat_append_eq_add (n := 16) (m := 16), toNat_append_eq_add (n := 8) (m := 8), toNat_opcField,
    toNat_flagsField, toNat_rsvdField]
  omega

/-! ## The three conditions of 30_encoding.md R80 in terms of the fields -/

theorem undefinedMaskSelectFlags_iff : ∀ flags : BitVec 8, flags &&& 0xFC#8 = 0#8 ↔ flags.toNat < 4 := by decide

theorem undefinedFlagsClear_iff (w : Word) :
    undefinedFlagsClear w = true ↔ undefinedFlags (opcField w) (flagsField w) = 0#8 := by
  have hopc : opcField w = 0x32#8 ↔ w.toNat % 256 = 0x32 := by rw [← BitVec.toNat_inj, toNat_opcField]; rfl
  simp only [undefinedFlagsClear, undefinedFlags, hopc]
  split
  · rw [undefinedMaskSelectFlags_iff, toNat_flagsField, decide_eq_true_iff]
  · rw [← BitVec.toNat_inj, toNat_flagsField, decide_eq_true_iff]; rfl

theorem reservedClear_iff (w : Word) : reservedClear w = true ↔ rsvdField w = 0#16 := by
  rw [reservedClear, decide_eq_true_iff, ← BitVec.toNat_inj, toNat_rsvdField, BitVec.toNat_ofNat]
  omega

theorem instrOfOpcode_isSome (opc : BitVec 8) (commit force : Bool) :
    (instrOfOpcode opc commit force).isSome = assignedOpcodes.contains opc.toNat := by
  unfold instrOfOpcode
  split
  case h_16 => simp [assignedOpcodes]; and_intros <;> assumption
  all_goals next hopc => rw [hopc]; rfl

/-- What an opcode names has that opcode, and MASK_SELECT has the two flags given (30_encoding.md R74, R75). -/
theorem instrOfOpcode_some {opc : BitVec 8} {commit force : Bool} {i : Instr}
    (h : instrOfOpcode opc commit force = some i) :
    i.opcode = opc ∧ ∀ c f, i = .maskSelect c f → c = commit ∧ f = force := by
  unfold instrOfOpcode at h
  split at h <;> cases h
  case h_15.refl hopc => exact ⟨(BitVec.eq_of_toNat_eq hopc).symm, fun _ _ hi => Instr.maskSelect.inj hi.symm⟩
  all_goals next hopc => exact ⟨(BitVec.eq_of_toNat_eq hopc).symm, nofun⟩

/-! ## The decoder -/

/-- The command that OPC names, with the two flag bits of the word, before FLAGS and RSVD are checked. -/
def namedCommand (w : Word) : Option Instr :=
  instrOfOpcode (opcField w) ((flagsField w).getLsbD 0) ((flagsField w).getLsbD 1)

theorem namedCommand_isSome (w : Word) : (namedCommand w).isSome = opcodeAssigned w := by
  rw [namedCommand, instrOfOpcode_isSome, toNat_opcField, opcodeAssigned]

theorem decodeWord_of_namesNone {w : Word} (h : namedCommand w = none) :
    decodeWord w = .error (.badOpc (opcField w)) := by
  rw [namedCommand] at h
  rw [decodeWord, h]

/-- FLAGS is checked before RSVD (30_encoding.md R83). -/
theorem decodeWord_of_names {w : Word} {i : Instr} (h : namedCommand w = some i) :
    decodeWord w =
      if undefinedFlagsClear w = false then .error (.badFlags (flagsField w))
      else if reservedClear w = false then .error (.badRsvd (rsvdField w))
      else .ok i := by
  rw [namedCommand] at h
  rw [decodeWord, h]
  simp only [ne_eq, ← undefinedFlagsClear_iff, ← reservedClear_iff, Bool.not_eq_true]

/-- A word that decodes passes the three checks. -/
theorem decodeWord_ok {w : Word} {i : Instr} (h : decodeWord w = .ok i) :
    namedCommand w = some i ∧ undefinedFlagsClear w = true ∧ reservedClear w = true := by
  cases hname : namedCommand w with
  | none => rw [decodeWord_of_namesNone hname] at h; cases h
  | some j =>
    rw [decodeWord_of_names hname] at h
    split at h
    · cases h
    · next hflags =>
      split at h
      · cases h
      · next hrsvd => cases h; exact ⟨rfl, eq_true_of_ne_false hflags, eq_true_of_ne_false hrsvd⟩

/-! ## Encoding undoes decoding -/

theorem maskSelect_flags_of_bits : ∀ flags : BitVec 8, flags &&& 0xFC#8 = 0#8 →
    (Instr.maskSelect (flags.getLsbD 0) (flags.getLsbD 1)).flags = flags := by decide

/-- FLAGS with no undefined bit is the FLAGS of a command that has its two bits (30_encoding.md R75). -/
theorem flags_of_undefinedFlags {i : Instr} {flags : BitVec 8} (h : undefinedFlags i.opcode flags = 0#8)
    (hbits : ∀ c f, i = .maskSelect c f → c = flags.getLsbD 0 ∧ f = flags.getLsbD 1) : i.flags = flags := by
  cases i with
  | maskSelect commit force =>
    obtain ⟨rfl, rfl⟩ := hbits commit force rfl
    exact maskSelect_flags_of_bits flags h
  | _ => exact h.symm

theorem encode_of_decodes {w : Word} {i : Instr} (h : decodeWord w = .ok i) : encode i = w := by
  obtain ⟨hname, hclear, hrsvd⟩ := decodeWord_ok h
  obtain ⟨hopc, hbits⟩ := instrOfOpcode_some hname
  have hflags : i.flags = flagsField w :=
    flags_of_undefinedFlags (hopc ▸ (undefinedFlagsClear_iff w).1 hclear) hbits
  calc encode i = rsvdField w ++ (flagsField w ++ opcField w) := by
        rw [encode, hflags, hopc, (reservedClear_iff w).1 hrsvd]; rfl
    _ = w := fields_append w

/-- Settles O1: encoding undoes decoding, field by field, and decoding undoes encoding. -/
theorem decodeEncodeAgree : Obligations.DecodeEncodeAgree := fun _ i =>
  ⟨fun h => (encode_of_decodes h).symm, fun h => h ▸ decodeWord_encode i⟩

/-! ## The first fault -/

/-- Settles O2: by what OPC names; the fields are the parts of the word's number. -/
theorem decodeReportsFirstFault : Obligations.DecodeReportsFirstFault := by
  intro w
  rw [← toNat_opcField, ← toNat_flagsField, ← toNat_rsvdField, ← namedCommand_isSome]
  simp only [BitVec.ofNat_toNat, BitVec.setWidth_eq]
  cases hname : namedCommand w with
  | none => exact ⟨fun _ => decodeWord_of_namesNone hname, nofun, nofun, nofun⟩
  | some i =>
    obtain ⟨hopc, hbits⟩ := instrOfOpcode_some hname
    rw [decodeWord_of_names hname]
    refine ⟨nofun, fun _ hflags => if_pos hflags, fun _ hflags hrsvd => by simp [hflags, hrsvd],
      fun _ hflags hrsvd => ⟨i, by simp [hflags, hrsvd], congrArg _ hopc, fun c f hi => ?_⟩⟩
    rw [← flagsField_bit (n := 0) (by decide), ← flagsField_bit (n := 1) (by decide)]
    exact hbits c f hi

/-! ## Illegal words -/

theorem serve_cmd_idle {s : State} (hidle : s.status.busy = false) (w : Word) :
    serve s (.write 0x000C .four w) = (launch s w (launchWait s w), ⟨true, 0⟩) := by
  refine (serve_write_offset s .cmd w).trans ?_
  rw [writeReg, hidle]
  rfl

theorem runCommand_of_illegal {s : State} {e : Sys2Proof.DecodeError} (h : decodeWord s.cmd = .error e) :
    runCommand s =
      .next (failsWith s (decodeFailure e).kind.code (decodeFailure e).sub.code (decodeFailure e).idx) := by
  rw [runCommand, h, ← complete_error_eq]

/-- Settles O3: the launch waits for nothing, so the next step runs the word and fails it with its fault. -/
theorem illegalWordCompletesWithError : Obligations.IllegalWordCompletesWithError := by
  intro s t w e hw
  have hserve (hidle : s.status.busy = false) :
      serve s (.write 0x000C .four w) = (launch s w 0, ⟨true, 0⟩) := by
    rw [serve_cmd_idle hidle, launchWait_illegal hw]
  refine ⟨hserve, fun hway => ?_⟩
  have hrunning : t.status.busy = true ∧ t.cmd = w ∧ (t.host = [] ∨ t.wait = 0) := by
    rcases hway with ⟨hidle, rfl⟩ | hruns
    · rw [takeEvent, hserve hidle]
      exact ⟨rfl, rfl, .inr rfl⟩
    · exact hruns
  obtain ⟨hbusy, rfl, hfirst⟩ := hrunning
  rw [step_run hbusy hfirst, runCommand_of_illegal hw]
  cases e <;> rfl

/-! ## Sample words and mnemonics -/

/-- Every mnemonic names its command (30_encoding.md R84). -/
theorem assemble_mnemonicOf (i : Instr) : assemble (mnemonicOf i) = some i := by
  cases i with
  | maskSelect commit force => cases commit <;> cases force <;> decide
  | _ => decide

/-- Settles O4: the words and the two orders of MASK_SELECT's letters by evaluation. -/
theorem sampleWordsDecode : Obligations.SampleWordsDecode :=
  ⟨rfl, rfl, rfl, rfl, rfl, rfl, rfl, rfl, assemble_mnemonicOf, by decide, by decide⟩

end Sys2Proof.Machine
end

section
/-! PROOFS. 40_gf.md: the tables EXP and LOG, the field product without them, and the two commands. -/

namespace Sys2Proof.Machine

/-! ## The tables -/

/-- Each entry of EXP times x is the next, the indices counted modulo 255 (40_gf.md R88, R89). -/
theorem timesX_expAt_toNat : ∀ b : Byte, timesX (expAt b.toNat) = expAt ((b.toNat + 1) % 255) := by decide

theorem logAt_expAt_toNat : ∀ b : Byte, b.toNat < 255 → logAt (expAt b.toNat) = b.toNat := by decide

theorem expAt_logAt : ∀ a : Byte, a ≠ 0#8 → logAt a < 255 ∧ expAt (logAt a) = a := by decide

theorem timesX_expAt {i : Nat} (hi : i < 256) : timesX (expAt i) = expAt ((i + 1) % 255) := by
  simpa only [BitVec.toNat_ofNatLT] using timesX_expAt_toNat (BitVec.ofNatLT i hi)

theorem logAt_expAt {i : Nat} (hi : i < 255) : logAt (expAt i) = i :=
  logAt_expAt_toNat (BitVec.ofNatLT i (Nat.lt_succ_of_lt hi)) hi

/-- LOG[0] is 0, which would be the logarithm of a zero entry; EXP[0] is 1. -/
theorem expAt_ne_zero {i : Nat} (hi : i < 255) : expAt i ≠ 0#8 := by
  intro hzero
  obtain rfl : i = 0 := by rw [← logAt_expAt hi, hzero]; rfl
  exact absurd hzero (by decide)

/-- Settles O27: the tables by evaluation, and the ROM bytes are their entries. -/
theorem tablesHoldPowersAndLogs : Obligations.TablesHoldPowersAndLogs := by
  refine ⟨rfl, fun i hi => ?_, rfl, fun i hi => ⟨expAt_ne_zero hi, logAt_expAt hi⟩, expAt_logAt, rfl,
    fun m d i hi => ⟨readByte_rom (romByte_exp hi) m d, ?_⟩⟩
  · rw [timesX_expAt (by omega), Nat.mod_eq_of_lt (by omega)]
  · rw [readByte_rom (romByte_log hi), logAt_ofNat hi]

/-! ## Multiplication by powers of x -/

/-- What a shift drops is put back, reduced, for the bytes that have x^7. -/
theorem timesX_eq (b : Byte) : timesX b = (b <<< 1) ^^^ (if b.msb then 0x1D#8 else 0#8) := by
  rw [timesX, BitVec.msb_eq_decide]
  by_cases h : b.toNat < 0x80
  · simp [h, Nat.not_le.2 h]
  · simp [h, Nat.le_of_not_lt h]

theorem timesX_xor (b c : Byte) : timesX (b ^^^ c) = timesX b ^^^ timesX c := by
  have hreduce : ∀ m n : Bool, (if m ^^ n then 0x1D#8 else 0#8) =
      (if m then 0x1D#8 else 0#8) ^^^ (if n then 0x1D#8 else 0#8) := by decide
  simp only [timesX_eq, BitVec.msb_xor, BitVec.shiftLeft_xor_distrib, hreduce]
  ac_rfl

theorem timesXPow_xor (n : Nat) (b c : Byte) : timesXPow n (b ^^^ c) = timesXPow n b ^^^ timesXPow n c := by
  induction n with
  | zero => rfl
  | succ n ih => rw [timesXPow, ih, timesX_xor]; rfl

theorem timesXPow_add (m n : Nat) (b : Byte) : timesXPow (m + n) b = timesXPow m (timesXPow n b) := by
  induction m with
  | zero => rw [Nat.zero_add]; rfl
  | succ m ih => rw [Nat.succ_add]; exact congrArg timesX ih

theorem timesXPow_timesX (n : Nat) (b : Byte) : timesXPow n (timesX b) = timesX (timesXPow n b) := by
  induction n with
  | zero => rfl
  | succ n ih => exact congrArg timesX ih

/-- The powers of x repeat after 255 (40_gf.md R88). -/
theorem timesXPow_one (n : Nat) : timesXPow n 1#8 = expAt (n % 255) := by
  induction n with
  | zero => rfl
  | succ n ih => rw [timesXPow, ih, timesX_expAt (by omega), Nat.mod_add_mod]

/-- Every non-zero byte is a power of x (40_gf.md R88). -/
theorem timesXPow_logAt {a : Byte} (ha : a ≠ 0#8) : timesXPow (logAt a) 1#8 = a := by
  obtain ⟨hlt, hexp⟩ := expAt_logAt a ha
  rw [timesXPow_one, Nat.mod_eq_of_lt hlt, hexp]

/-! ## The field product without the tables -/

/-- The terms x^i * b of a product, for those `i` of a list that are bits of `a`, added to `acc`. -/
def addTerms (a b : Byte) (is : List Nat) (acc : Byte) : Byte :=
  is.foldl (fun acc i => if a.getLsbD i then acc ^^^ timesXPow i b else acc) acc

theorem fieldProduct_eq_addTerms (a b : Byte) : fieldProduct a b = addTerms a b (List.range 8) 0#8 := rfl

theorem addTerms_cons (a b : Byte) (i : Nat) (is : List Nat) (acc : Byte) :
    addTerms a b (i :: is) acc = addTerms a b is (if a.getLsbD i then acc ^^^ timesXPow i b else acc) := rfl

theorem addTerms_xor (a b c : Byte) (is : List Nat) (x y : Byte) :
    addTerms a (b ^^^ c) is (x ^^^ y) = addTerms a b is x ^^^ addTerms a c is y := by
  induction is generalizing x y with
  | nil => rfl
  | cons i is ih =>
    simp only [addTerms_cons, ← ih]
    congr 1
    split
    · rw [timesXPow_xor]; ac_rfl
    · rfl

theorem addTerms_timesX (a b : Byte) (is : List Nat) (x : Byte) :
    addTerms a (timesX b) is (timesX x) = timesX (addTerms a b is x) := by
  induction is generalizing x with
  | nil => rfl
  | cons i is ih => rw [addTerms_cons, timesXPow_timesX, ← timesX_xor, ← apply_ite timesX, ih, addTerms_cons]

theorem addTerms_zero_left (b : Byte) (is : List Nat) (x : Byte) : addTerms 0#8 b is x = x := by
  induction is with
  | nil => rfl
  | cons i is ih => rw [addTerms_cons, BitVec.getLsbD_zero, if_neg Bool.false_ne_true, ih]

/-- The product distributes over XOR (40_gf.md R95). -/
theorem fieldProduct_xor (a b c : Byte) : fieldProduct a (b ^^^ c) = fieldProduct a b ^^^ fieldProduct a c := by
  simp only [fieldProduct_eq_addTerms, ← addTerms_xor, BitVec.xor_zero]

theorem fieldProduct_timesX (a b : Byte) : fieldProduct a (timesX b) = timesX (fieldProduct a b) := by
  rw [fieldProduct_eq_addTerms, fieldProduct_eq_addTerms, ← addTerms_timesX]
  rfl

@[simp] theorem fieldProduct_zero_left (b : Byte) : fieldProduct 0#8 b = 0#8 := by
  rw [fieldProduct_eq_addTerms, addTerms_zero_left]

@[simp] theorem fieldProduct_zero_right (a : Byte) : fieldProduct a 0#8 = 0#8 := by
  simpa using fieldProduct_xor a 0#8 0#8

@[simp] theorem fieldProduct_one_right : ∀ a : Byte, fieldProduct a 1#8 = a := by decide

theorem fieldProduct_timesXPow (a : Byte) (n : Nat) (b : Byte) :
    fieldProduct a (timesXPow n b) = timesXPow n (fieldProduct a b) := by
  induction n with
  | zero => rfl
  | succ n ih => rw [timesXPow, fieldProduct_timesX, ih]; rfl

/-- The powers of x multiply by the sum of their exponents: the product that the tables look up (40_gf.md R92). -/
theorem gfMul_eq_fieldProduct (a b : Byte) : gfMul a b = fieldProduct a b := by
  unfold gfMul
  by_cases ha : a = 0#8
  · rw [ha, if_pos (.inl rfl), fieldProduct_zero_left]
  by_cases hb : b = 0#8
  · rw [hb, if_pos (.inr rfl), fieldProduct_zero_right]
  rw [if_neg (not_or.2 ⟨ha, hb⟩)]
  calc expAt ((logAt a + logAt b) % 255)
      = timesXPow (logAt b) (timesXPow (logAt a) 1#8) := by rw [← timesXPow_one, Nat.add_comm, timesXPow_add]
    _ = timesXPow (logAt b) (fieldProduct a 1#8) := by rw [timesXPow_logAt ha, fieldProduct_one_right]
    _ = fieldProduct a b := by rw [← fieldProduct_timesXPow, timesXPow_logAt hb]

/-! ## The laws -/

theorem gfMul_comm (a b : Byte) : gfMul a b = gfMul b a := by
  rw [gfMul, gfMul, Nat.add_comm]
  exact if_congr or_comm rfl rfl

theorem fieldProduct_assoc (a b c : Byte) :
    fieldProduct (fieldProduct a b) c = fieldProduct a (fieldProduct b c) := by
  by_cases hc : c = 0#8
  · simp [hc]
  · rw [← timesXPow_logAt hc]
    simp only [fieldProduct_timesXPow, fieldProduct_one_right]

/-- x^n and x^(255-n) are inverse (40_gf.md R95). -/
theorem fieldProduct_inverse {a : Byte} (ha : a ≠ 0#8) : fieldProduct a (expAt (255 - logAt a)) = 1#8 := by
  have hlog : logAt a < 255 := (expAt_logAt a ha).1
  have hinv : expAt (255 - logAt a) = timesXPow (255 - logAt a) 1#8 := by
    rw [timesXPow_one]
    by_cases h0 : logAt a = 0
    · rw [h0]; rfl
    · rw [Nat.mod_eq_of_lt (by omega)]
  calc fieldProduct a (expAt (255 - logAt a))
      = timesXPow (255 - logAt a) (timesXPow (logAt a) 1#8) := by
        rw [hinv, fieldProduct_timesXPow, fieldProduct_one_right, timesXPow_logAt ha]
    _ = timesXPow 255 1#8 := by rw [← timesXPow_add, Nat.sub_add_cancel (Nat.le_of_lt hlog)]
    _ = 1#8 := timesXPow_one 255

/-- Settles O30: the table product is the field product, whose laws are those of the powers of x. -/
theorem fieldLaws : Obligations.FieldLaws := by
  intro a b c
  refine ⟨gfMul_comm a b, ?_⟩
  simp only [gfMul_eq_fieldProduct]
  exact ⟨fieldProduct_assoc a b c, fieldProduct_xor a b c, fieldProduct_one_right a, fieldProduct_zero_right a,
    BitVec.xor_self, fieldProduct_inverse⟩

/-! ## GF_MUL and GF_POW -/

/-- Settles O28: the checks in order, and the table product is the field product. -/
theorem gfMulGivesFieldProduct : Obligations.GfMulGivesFieldProduct := by
  refine ⟨rfl, fun s => ⟨fun h0 => ?_, fun h0 h1 => ?_, fun h0 h1 => ?_⟩⟩
  · exact exec_error (i := .gfMul) (e := argRange 0) (if_pos h0)
  · exact exec_error (i := .gfMul) (e := argRange 1) ((if_neg h0.not_gt).trans (if_pos h1))
  · rw [← gfMul_eq_fieldProduct]
    exact exec_ok (i := .gfMul) ((if_neg h0.not_gt).trans (if_neg h1.not_gt))

/-- The power that the tables look up is the repeated product (40_gf.md R94). -/
theorem gfPow_eq_fieldPower {a : Byte} (ha : a ≠ 0#8) (n : Nat) : gfPow a n = fieldPower a n := by
  rw [gfPow, ← timesXPow_one]
  induction n with
  | zero => rfl
  | succ n ih =>
    calc timesXPow (logAt a * (n + 1)) 1#8
        = timesXPow (logAt a * n) a := by rw [Nat.mul_succ, timesXPow_add, timesXPow_logAt ha]
      _ = fieldProduct a (timesXPow (logAt a * n) 1#8) := by rw [fieldProduct_timesXPow, fieldProduct_one_right]
      _ = fieldPower a (n + 1) := by rw [ih]; rfl

theorem byteOfNat_ne_zero {n : Nat} (hpos : 1 ≤ n) (hn : n ≤ 255) : BitVec.ofNat 8 n ≠ 0#8 := by
  rw [ne_eq, ← BitVec.toNat_inj, BitVec.toNat_ofNat, Nat.mod_eq_of_lt (by omega)]
  exact Nat.ne_of_gt hpos

/-- Settles O29: the checks in order, and the table power is the repeated product. -/
theorem gfPowGivesFieldPower : Obligations.GfPowGivesFieldPower := by
  refine ⟨rfl, fun s => ⟨fun h0 => ?_, fun h0 h1 => ?_, fun h0 h1 => ?_, fun hpos h0 h1 => ?_⟩⟩
  · exact exec_error (i := .gfPow) (e := argRange 0) (if_pos h0)
  · exact exec_error (i := .gfPow) (e := argRange 1) ((if_neg h0.not_gt).trans (if_pos h1))
  · have hrange : ¬ 255 < arg0 s := by rw [h0]; decide
    exact exec_error (i := .gfPow) (e := raise .logZero 0)
      ((if_neg hrange).trans ((if_neg h1.not_gt).trans (if_pos h0)))
  · rw [← gfPow_eq_fieldPower (byteOfNat_ne_zero hpos h0)]
    exact exec_ok (i := .gfPow)
      ((if_neg h0.not_gt).trans ((if_neg h1.not_gt).trans (if_neg (Nat.ne_of_gt hpos))))

end Sys2Proof.Machine
end

section
/-! PROOFS. 41_poly.md: coefficients and values of polynomials in the field, the generator and the division, and the
four commands. -/

namespace Sys2Proof.Machine

/-! ## The field product on both sides, and powers -/

theorem fieldProduct_comm (a b : Byte) : fieldProduct a b = fieldProduct b a := by
  rw [← gfMul_eq_fieldProduct, gfMul_comm, gfMul_eq_fieldProduct]

theorem fieldProduct_xor_left (a b c : Byte) : fieldProduct (a ^^^ b) c = fieldProduct a c ^^^ fieldProduct b c := by
  simp only [fieldProduct_comm _ c, fieldProduct_xor]

@[simp] theorem fieldProduct_one_left (a : Byte) : fieldProduct 1#8 a = a := by
  rw [fieldProduct_comm, fieldProduct_one_right]

theorem fieldPower_add (x : Byte) (m n : Nat) :
    fieldPower x (m + n) = fieldProduct (fieldPower x m) (fieldPower x n) := by
  induction m with
  | zero => rw [Nat.zero_add, fieldPower, fieldProduct_one_left]
  | succ m ih => rw [Nat.succ_add, fieldPower, ih, fieldPower, fieldProduct_assoc]

theorem fieldPower_one (x : Byte) : fieldPower x 1 = x := fieldProduct_one_right x

/-! ## Sums -/

@[simp] theorem xorSum_cons (a : Byte) (bs : List Byte) : xorSum (a :: bs) = a ^^^ xorSum bs := by
  rw [xorSum, List.foldl_cons, BitVec.xor_comm 0#8 a, List.foldl_assoc, xorSum]

theorem xorSum_reverse (bs : List Byte) : xorSum bs.reverse = xorSum bs :=
  (List.reverse_perm bs).foldl_eq (rcomm := ⟨fun a b c => by ac_rfl⟩) 0#8

theorem xorSum_map_xor {α : Type} (f g : α → Byte) (l : List α) :
    xorSum (l.map fun i => f i ^^^ g i) = xorSum (l.map f) ^^^ xorSum (l.map g) := by
  induction l with
  | nil => exact (BitVec.xor_self).symm
  | cons i l ih =>
    simp only [List.map_cons, xorSum_cons, ih]
    ac_rfl

theorem xorSum_map_fieldProduct {α : Type} (a : Byte) (f : α → Byte) (l : List α) :
    xorSum (l.map fun i => fieldProduct a (f i)) = fieldProduct a (xorSum (l.map f)) := by
  induction l with
  | nil => exact (fieldProduct_zero_right a).symm
  | cons i l ih => simp only [List.map_cons, xorSum_cons, ih, fieldProduct_xor]

/-- The first term of a sum and the others. -/
theorem xorSum_range_succ (f : Nat → Byte) (n : Nat) :
    xorSum ((List.range (n + 1)).map f) = f 0 ^^^ xorSum ((List.range n).map fun i => f (i + 1)) := by
  rw [List.range_succ_eq_map, List.map_cons, xorSum_cons, List.map_map]
  rfl

/-- The terms of a sum in reverse. -/
theorem xorSum_range_reflect (f : Nat → Byte) (n : Nat) :
    xorSum ((List.range n).map f) = xorSum ((List.range n).map fun i => f (n - 1 - i)) := by
  rw [← xorSum_reverse, ← List.map_reverse, List.range_eq_range', List.reverse_range', List.map_map,
    List.range_eq_range']
  simp only [Nat.zero_add]
  rfl

theorem xorSum_map_zero {α : Type} (l : List α) : xorSum (l.map fun _ => 0#8) = 0#8 := by
  induction l with
  | nil => rfl
  | cons _ l ih => rw [List.map_cons, xorSum_cons, ih, BitVec.xor_zero]

/-! ## Coefficients -/

@[simp] theorem getD_xorInto (p q : List Byte) (i : Nat) :
    (xorInto p q).getD i 0#8 = p.getD i 0#8 ^^^ q.getD i 0#8 := by
  induction p generalizing q i with
  | nil => simp [xorInto]
  | cons a p ih =>
    cases q with
    | nil => simp [xorInto]
    | cons b q =>
      cases i with
      | zero => rfl
      | succ i => exact ih q i

@[simp] theorem getD_map_gfMul (a : Byte) (p : List Byte) (i : Nat) :
    (p.map fun b => gfMul a b).getD i 0#8 = fieldProduct a (p.getD i 0#8) := by
  simp only [gfMul_eq_fieldProduct]
  simpa only [fieldProduct_zero_right] using List.getD_map (f := fieldProduct a) (l := p) (d := 0#8) (n := i)

theorem productCoeff_nil (q : List Byte) (t : Nat) : productCoeff [] q t = 0#8 := by
  simp only [productCoeff, List.getD_nil, fieldProduct_zero_left, xorSum_map_zero]

theorem productCoeff_zero (p q : List Byte) : productCoeff p q 0 = fieldProduct (p.getD 0 0#8) (q.getD 0 0#8) := by
  rw [productCoeff, xorSum_range_succ]
  exact BitVec.xor_zero

theorem productCoeff_cons_succ (a : Byte) (p q : List Byte) (t : Nat) :
    productCoeff (a :: p) q (t + 1) = fieldProduct a (q.getD (t + 1) 0#8) ^^^ productCoeff p q t := by
  rw [productCoeff, xorSum_range_succ]
  simp only [Nat.add_sub_add_right, List.getD_cons_succ]
  rfl

/-- The rows of the product loop add up to the sums of 41_poly.md R98. -/
theorem getD_polyMul (p q : List Byte) (t : Nat) : (polyMul p q).getD t 0#8 = productCoeff p q t := by
  induction p generalizing t with
  | nil => exact (productCoeff_nil q t).symm
  | cons a p ih =>
    rw [polyMul, getD_xorInto, getD_map_gfMul]
    cases t with
    | zero => rw [productCoeff_zero]; exact BitVec.xor_zero
    | succ t => rw [List.getD_cons_succ, ih, productCoeff_cons_succ]

/-- The terms of a coefficient in reverse are those of the swapped product. -/
theorem productCoeff_comm (p q : List Byte) (t : Nat) : productCoeff p q t = productCoeff q p t := by
  rw [productCoeff, xorSum_range_reflect, productCoeff]
  refine congrArg xorSum (List.map_congr_left fun i hi => ?_)
  have hle : i ≤ t := Nat.le_of_lt_succ (List.mem_range.1 hi)
  rw [Nat.add_sub_cancel, Nat.sub_sub_self hle, fieldProduct_comm]

/-! ## Values -/

/-- The value at `x` of the polynomial of `n` coefficients that begins with those of `p`, and is 0 after them. -/
def valueIn (x : Byte) (n : Nat) (p : List Byte) : Byte :=
  xorSum ((List.range n).map fun i => fieldProduct (p.getD i 0#8) (fieldPower x (n - 1 - i)))

theorem polyValue_eq_valueIn (p : List Byte) (x : Byte) : polyValue p x = valueIn x p.length p := rfl

theorem valueIn_nil (x : Byte) (n : Nat) : valueIn x n [] = 0#8 := by
  simp only [valueIn, List.getD_nil, fieldProduct_zero_left, xorSum_map_zero]

theorem valueIn_cons (x : Byte) (n : Nat) (a : Byte) (p : List Byte) :
    valueIn x (n + 1) (a :: p) = fieldProduct a (fieldPower x n) ^^^ valueIn x n p := by
  have hexp (i : Nat) : n + 1 - 1 - (i + 1) = n - 1 - i := by omega
  rw [valueIn, xorSum_range_succ]
  simp only [hexp, List.getD_cons_succ]
  rfl

theorem valueIn_zero_cons (x : Byte) (n : Nat) (p : List Byte) : valueIn x n (0#8 :: p) = valueIn x (n - 1) p := by
  cases n with
  | zero => rfl
  | succ n => rw [valueIn_cons, fieldProduct_zero_left, BitVec.zero_xor, Nat.add_sub_cancel]

theorem valueIn_xorInto (x : Byte) (n : Nat) (p q : List Byte) :
    valueIn x n (xorInto p q) = valueIn x n p ^^^ valueIn x n q := by
  simp only [valueIn, getD_xorInto, fieldProduct_xor_left, xorSum_map_xor]

theorem valueIn_map_gfMul (x : Byte) (n : Nat) (a : Byte) (p : List Byte) :
    valueIn x n (p.map fun b => gfMul a b) = fieldProduct a (valueIn x n p) := by
  simp only [valueIn, getD_map_gfMul, fieldProduct_assoc, xorSum_map_fieldProduct]

@[simp] theorem polyValue_nil (x : Byte) : polyValue [] x = 0#8 := rfl

theorem polyValue_cons (a : Byte) (p : List Byte) (x : Byte) :
    polyValue (a :: p) x = fieldProduct a (fieldPower x p.length) ^^^ polyValue p x := valueIn_cons x p.length a p

theorem polyValue_append (p q : List Byte) (x : Byte) :
    polyValue (p ++ q) x = fieldProduct (polyValue p x) (fieldPower x q.length) ^^^ polyValue q x := by
  induction p with
  | nil => rw [polyValue_nil, fieldProduct_zero_left, BitVec.zero_xor, List.nil_append]
  | cons a p ih =>
    rw [List.cons_append, polyValue_cons, polyValue_cons, ih, List.length_append, fieldPower_add,
      fieldProduct_xor_left, fieldProduct_assoc, BitVec.xor_assoc]

/-- Zero coefficients behind a polynomial multiply it by powers of x. -/
theorem valueIn_length_add (x : Byte) (p : List Byte) (m : Nat) :
    valueIn x (p.length + m) p = fieldProduct (polyValue p x) (fieldPower x m) := by
  induction p with
  | nil => rw [valueIn_nil, polyValue_nil, fieldProduct_zero_left]
  | cons a p ih =>
    rw [List.length_cons, Nat.add_right_comm, valueIn_cons, ih, polyValue_cons, fieldPower_add, fieldProduct_xor_left,
      fieldProduct_assoc]

theorem polyValue_replicate_zero (k : Nat) (x : Byte) : polyValue (List.replicate k 0#8) x = 0#8 := by
  induction k with
  | zero => rfl
  | succ k ih => rw [List.replicate_succ, polyValue_cons, ih, fieldProduct_zero_left, BitVec.xor_zero]

/-- Horner's rule from any accumulator on (41_poly.md R106). -/
theorem foldl_horner (p : List Byte) (x acc : Byte) :
    p.foldl (fun acc c => gfMul acc x ^^^ c) acc =
      fieldProduct acc (fieldPower x p.length) ^^^ polyValue p x := by
  induction p generalizing acc with
  | nil => exact ((BitVec.xor_zero).trans (fieldProduct_one_right acc)).symm
  | cons c p ih =>
    rw [List.foldl_cons, ih, gfMul_eq_fieldProduct, fieldProduct_xor_left, fieldProduct_assoc, polyValue_cons,
      BitVec.xor_assoc]
    rfl

theorem polyEval_eq_polyValue (p : List Byte) (x : Byte) : polyEval p x = polyValue p x := by
  rw [polyEval, foldl_horner, fieldProduct_zero_left, BitVec.zero_xor]

/-! ## Products, the generator and the division at a point -/

theorem valueIn_polyMul (x : Byte) (p : List Byte) {q : List Byte} (hq : 1 ≤ q.length) :
    valueIn x (p.length + q.length - 1) (polyMul p q) = fieldProduct (polyValue p x) (polyValue q x) := by
  induction p with
  | nil => rw [polyMul, valueIn_nil, polyValue_nil, fieldProduct_zero_left]
  | cons a p ih =>
    have hlen : (a :: p).length + q.length - 1 = q.length + p.length := by simp only [List.length_cons]; omega
    rw [hlen, polyMul, valueIn_xorInto, valueIn_map_gfMul, valueIn_length_add, valueIn_zero_cons,
      Nat.add_comm q.length, ih, polyValue_cons, fieldProduct_xor_left, fieldProduct_assoc,
      fieldProduct_comm (polyValue q x)]

/-- The value of a product is the product of the values. -/
theorem polyValue_polyMul (x : Byte) {p q : List Byte} (hp : p ≠ []) (hq : 1 ≤ q.length) :
    polyValue (polyMul p q) x = fieldProduct (polyValue p x) (polyValue q x) := by
  rw [← valueIn_polyMul x p hq, polyValue_eq_valueIn, length_polyMul p q hq, if_neg hp]

theorem genPoly_ne_nil (k : Nat) : genPoly k ≠ [] := List.ne_nil_of_length_pos (by simp)

theorem genPoly_monic (k : Nat) : (genPoly k).getD 0 0#8 = 1#8 := by
  induction k with
  | zero => rfl
  | succ k ih => rw [genPoly, getD_polyMul, productCoeff_zero, ih, fieldProduct_one_left]; rfl

theorem polyValue_linear (c x : Byte) : polyValue [1#8, c] x = x ^^^ c := by
  rw [polyValue_cons, polyValue_cons, polyValue_nil, fieldProduct_one_left, BitVec.xor_zero, List.length_singleton,
    fieldPower_one]
  exact congrArg _ (fieldProduct_one_right c)

/-- Root i comes in with factor i, and later factors keep it (41_poly.md R99). -/
theorem polyValue_genPoly {i k : Nat} (hi : i < k) : polyValue (genPoly k) (expAt i) = 0#8 := by
  induction k with
  | zero => exact absurd hi (Nat.not_lt_zero i)
  | succ k ih =>
    rw [genPoly, polyValue_polyMul _ (genPoly_ne_nil k) (by simp), polyValue_linear]
    rcases Nat.lt_succ_iff_lt_or_eq.1 hi with hlt | rfl
    · rw [ih hlt, fieldProduct_zero_left]
    · rw [BitVec.xor_self, fieldProduct_zero_right]

/-- A leading zero adds nothing. -/
theorem polyValue_tail {p : List Byte} (h : p.getD 0 0#8 = 0#8) (x : Byte) : polyValue p.tail x = polyValue p x := by
  cases p with
  | nil => rfl
  | cons a p =>
    obtain rfl : a = 0#8 := h
    rw [List.tail_cons, polyValue_cons, fieldProduct_zero_left, BitVec.zero_xor]

/-- A step of the division by a monic `g` keeps the value at the roots of `g`: it adds a multiple of `g`, and the
leading place it leaves holds 0 (41_poly.md R103). -/
theorem polyValue_divideStep {g : List Byte} {x : Byte} (hmonic : g.getD 0 0#8 = 1#8) (hroot : polyValue g x = 0#8)
    (c : Byte) {r : List Byte} (hlen : g.length ≤ r.length + 1) :
    polyValue (xorInto (c :: r) (g.map fun y => gfMul y c)).tail x = polyValue (c :: r) x := by
  simp only [gfMul_comm _ c]
  have hhead : (xorInto (c :: r) (g.map fun y => gfMul c y)).getD 0 0#8 = 0#8 := by
    rw [getD_xorInto, getD_map_gfMul, hmonic, fieldProduct_one_right]
    exact BitVec.xor_self
  have hmultiple : valueIn x (r.length + 1) g = 0#8 := by
    obtain ⟨m, hm⟩ := Nat.exists_eq_add_of_le hlen
    rw [hm, valueIn_length_add, hroot, fieldProduct_zero_left]
  rw [polyValue_tail hhead x, polyValue_eq_valueIn, length_xorInto, List.length_map, List.length_cons, max_eq_left hlen,
    valueIn_xorInto, valueIn_map_gfMul, hmultiple, fieldProduct_zero_right]
  exact BitVec.xor_zero

theorem polyValue_divideSteps {g : List Byte} {x : Byte} (hmonic : g.getD 0 0#8 = 1#8) (hroot : polyValue g x = 0#8) :
    ∀ (n : Nat) (r : List Byte), n + g.length ≤ r.length + 1 → polyValue (divideSteps g n r) x = polyValue r x
  | 0, _, _ => rfl
  | _ + 1, [], _ => rfl
  | n + 1, c :: r, hlen => by
    rw [List.length_cons] at hlen
    rw [divideSteps]
    split
    · next hzero =>
      rw [polyValue_divideSteps hmonic hroot n r (by omega)]
      exact polyValue_tail (p := c :: r) hzero x
    · have hlength : (xorInto (c :: r) (g.map fun y => gfMul y c)).tail.length = r.length := by
        simp only [List.length_tail, length_xorInto, List.length_map, List.length_cons]; omega
      rw [polyValue_divideSteps hmonic hroot n _ (by omega), polyValue_divideStep hmonic hroot c (by omega)]

/-- At the roots of the generator the remainder has the value of message and zeros, which is the value the message
has in front of the remainder; the two cancel (41_poly.md R105). -/
theorem polyValue_codeword (msg : List Byte) {i k : Nat} (hi : i < k) :
    polyValue (msg ++ rsRemainder msg k) (expAt i) = 0#8 := by
  have hremainder : polyValue (rsRemainder msg k) (expAt i) =
      fieldProduct (polyValue msg (expAt i)) (fieldPower (expAt i) k) := by
    rw [rsRemainder, polyValue_divideSteps (genPoly_monic k) (polyValue_genPoly hi) _ _ (by simp; omega),
      polyValue_append, polyValue_replicate_zero, List.length_replicate, BitVec.xor_zero]
  rw [polyValue_append, length_rsRemainder, hremainder, BitVec.xor_self]

/-! ## The commands -/

theorem isRam_memR {t : Nat} (ht : t < 256) : isRam (0x1400 + t) = true := (isRam_iff _).2 (by omega)

/-- A polynomial command that passes its checks writes its result to MEM_R from index 0 on, and nothing else of RAM. -/
theorem exec_putResult {i : Instr} {s : State} {r : List Byte} {n : Nat} (hw : s.ram.wf = true)
    (h : runOf i s = .ok (putResult s r n)) (hlen : r.length ≤ 256) :
    ∃ ram, exec i s = .next (succeedsWith s { s.res with r0 := BitVec.ofNat 32 n } s.scores s.pens ram) ∧
      (∀ t d, t < r.length → readByte ram d (0x1400 + t) = r.getD t 0#8) ∧
      ∀ a, (a < 0x1400 ∨ 0x1400 + r.length ≤ a) → byteKept s.ram ram a :=
  ⟨_, exec_ok h, fun t d ht => readByte_writeBytes_inside hw r 0x1400 t d ht (isRam_memR (by omega)),
    fun _ ha => byteKept_writeBytes hw r ha⟩

theorem length_memABytes (s : State) (n : Nat) : (memABytes s n).length = n := length_readBytes _ _ _ _

theorem length_memBBytes (s : State) (n : Nat) : (memBBytes s n).length = n := length_readBytes _ _ _ _

theorem length_polyMul_mem {s : State} (h0 : 1 ≤ arg0 s) (h1 : 1 ≤ arg1 s) :
    (polyMul (memABytes s (arg0 s)) (memBBytes s (arg1 s))).length = arg0 s + arg1 s - 1 := by
  have hne : memABytes s (arg0 s) ≠ [] := List.ne_nil_of_length_pos (by rwa [length_memABytes])
  rw [length_polyMul _ _ (by rwa [length_memBBytes]), if_neg hne, length_memABytes, length_memBBytes]

/-- Settles O31: the checks in order; the result's coefficients are the sums of 41_poly.md R98. -/
theorem polyMulGivesProduct : Obligations.PolyMulGivesProduct := by
  refine ⟨rfl, fun s => ⟨fun h0 => ?_, fun h0 h0' h1 => ?_, fun h0 h0' h1 h1' hsum => ?_, fun hw h0 h1 hsum => ?_⟩⟩
  · exact exec_error (i := .polyMul) (e := argRange 0) (if_pos h0)
  · exact exec_error (i := .polyMul) (e := argRange 1) ((if_neg (by omega)).trans (if_pos h1))
  · rw [← Nat.min_eq_left (show arg0 s + arg1 s - 1 ≤ 0xFFFFFF by omega)]
    exact exec_error (i := .polyMul) (e := raise .lenRange (clampIdx (arg0 s + arg1 s - 1)))
      ((if_neg (by omega)).trans ((if_neg (by omega)).trans (if_pos hsum)))
  · have hlen := length_polyMul_mem h0 h1
    have hrun : runOf .polyMul s =
        .ok (putResult s (polyMul (memABytes s (arg0 s)) (memBBytes s (arg1 s))) (arg0 s + arg1 s - 1)) :=
      (if_neg (by omega)).trans ((if_neg (by omega)).trans (if_neg (by omega)))
    obtain ⟨ram, hexec, hread, hkept⟩ := exec_putResult hw hrun (by omega)
    rw [hlen] at hread hkept
    exact ⟨ram, hexec, fun t d ht => (hread t d ht).trans (getD_polyMul _ _ t), hkept⟩

/-- The checks that a run of POLY_MUL with a result has passed (41_poly.md R100). -/
theorem runPolyMul_ok {s u : State} (h : runPolyMul s = .ok u) :
    1 ≤ arg0 s ∧ 1 ≤ arg1 s ∧ arg0 s + arg1 s - 1 ≤ 256 := by
  unfold runPolyMul at h
  split_ifs at h
  omega

theorem readBytes_congr {m m' : Memory} {d d' a a' n : Nat}
    (h : ∀ k, k < n → readByte m d (a + k) = readByte m' d' (a' + k)) : readBytes m d a n = readBytes m' d' a' n :=
  List.map_congr_left fun k hk => h k (List.mem_range.1 hk)

/-- Settles O32: both runs pass the checks, and the sums are those of the swapped product. -/
theorem polyMulIsSymmetric : Obligations.PolyMulIsSymmetric := by
  intro s t s' t' hs ht h01 h10 hA hB hexec hexec' herr
  obtain ⟨u, hrun, -⟩ := exec_success hexec herr
  obtain ⟨h0, h1, hsum⟩ := runPolyMul_ok hrun
  obtain ⟨-, hcommand⟩ := polyMulGivesProduct
  obtain ⟨-, -, -, hsuccess⟩ := hcommand s
  obtain ⟨-, -, -, hsuccess'⟩ := hcommand t
  obtain ⟨ram, hnext, hread, -⟩ := hsuccess hs h0 h1 hsum
  obtain ⟨ram', hnext', hread', -⟩ := hsuccess' ht (by omega) (by omega) (by omega)
  obtain rfl := Host.Outcome.next.inj (hexec.symm.trans hnext)
  obtain rfl := Host.Outcome.next.inj (hexec'.symm.trans hnext')
  have hcount : arg1 s + arg0 s - 1 = arg0 s + arg1 s - 1 := by omega
  rw [← h01, ← h10, hcount] at hread' ⊢
  refine ⟨rfl, rfl, fun k d hk => ?_⟩
  rw [readBytes_congr hA, readBytes_congr hB] at hread
  exact (hread k d hk).trans ((productCoeff_comm _ _ k).trans (hread' k d hk).symm)

/-- Settles O33: the generator is monic, and each factor brings its root. -/
theorem genPolyHasItsRoots : Obligations.GenPolyHasItsRoots := by
  refine ⟨rfl, fun s => ⟨fun h0 => ?_, fun hw h0 h0' => ?_⟩⟩
  · exact exec_error (i := .genPoly) (e := argRange 0) (if_pos h0)
  · have hlen : (genPoly (arg0 s)).length = arg0 s + 1 := length_genPoly (arg0 s)
    have hrun : runOf .genPoly s = .ok (putResult s (genPoly (arg0 s)) (arg0 s + 1)) := if_neg (by omega)
    obtain ⟨ram, hexec, hread, hkept⟩ := exec_putResult hw hrun (by omega)
    rw [hlen] at hread hkept
    exact ⟨genPoly (arg0 s), ram, hexec, hlen, genPoly_monic _, fun _ => polyValue_genPoly,
      fun t d ht => hread t d (Nat.lt_succ_of_le ht), hkept⟩

/-- Settles O34: the division keeps the value at the generator's roots. -/
theorem rsEccMakesCodewords : Obligations.RsEccMakesCodewords := by
  refine ⟨rfl, fun s => ⟨fun h0 => ?_, fun h0 h1 => ?_, fun h0 h1 hsum => ?_, fun hw h0 h1 hsum => ?_⟩⟩
  · exact exec_error (i := .rsEcc) (e := argRange 0) (if_pos h0)
  · exact exec_error (i := .rsEcc) (e := argRange 1) ((if_neg h0.not_gt).trans (if_pos h1))
  · exact exec_error (i := .rsEcc) (e := raise .fieldSize (clampIdx (arg0 s + arg1 s)))
      ((if_neg h0.not_gt).trans ((if_neg h1.not_gt).trans (if_pos hsum)))
  · have hlen : (rsRemainder (memABytes s (arg0 s)) (arg1 s)).length = arg1 s := length_rsRemainder _ _
    have hrun : runOf .rsEcc s = .ok (putResult s (rsRemainder (memABytes s (arg0 s)) (arg1 s)) (arg1 s)) :=
      (if_neg h0.not_gt).trans ((if_neg h1.not_gt).trans (if_neg hsum.not_gt))
    obtain ⟨ram, hexec, hread, hkept⟩ := exec_putResult hw hrun (by omega)
    have hcount : BitVec.ofNat 32 (arg1 s) = s.args.a1 := BitVec.ofNat_toNat ..
    rw [hcount] at hexec
    rw [hlen] at hread hkept
    exact ⟨_, ram, hexec, hlen, fun _ => polyValue_codeword _, hread, hkept⟩

/-- Settles O35: Horner's rule gives the sum of the terms. -/
theorem polyEvalGivesValue : Obligations.PolyEvalGivesValue := by
  refine ⟨rfl, fun s => ⟨fun h0 => ?_, fun h0 h0' h1 => ?_, fun h0 h0' h1 => ?_⟩⟩
  · exact exec_error (i := .polyEval) (e := argRange 0) (if_pos h0)
  · exact exec_error (i := .polyEval) (e := argRange 1) ((if_neg (by omega)).trans (if_pos h1))
  · rw [← polyEval_eq_polyValue]
    exact exec_ok (i := .polyEval) ((if_neg (by omega)).trans (if_neg h1.not_gt))

end Sys2Proof.Machine
end

section
/-! PROOFS. 42_pack.md: the character tables, the characters of a packer's input, the fields of BITBUF they become, and
the five packers. -/

namespace Sys2Proof.Machine

/-! ## The character tables -/

theorem digitValue_eq_some_iff {b : Byte} {v : Nat} : digitValue b = some v ↔ v < 10 ∧ b.toNat = 0x30 + v := by
  unfold digitValue
  split
  · rw [Option.some_inj]; omega
  · simp only [reduceCtorEq, false_iff]; omega

/-- The 45 symbols of PACK_ALNUM as bytes, in the order of their values (42_pack.md R113). -/
def alnumTable : List Nat := "0123456789ABCDEFGHIJKLMNOPQRSTUVWXYZ $%*+-./:".toList.map Char.toNat

theorem length_alnumTable : alnumTable.length = 45 := by decide

theorem alnumTable_alnumValue : ∀ b : Byte, (alnumValue b).all (fun v => alnumTable[v]? == some b.toNat) = true := by
  decide

theorem alnumValue_alnumTable : ∀ v < 45, alnumValue (BitVec.ofNat 8 (alnumTable.getD v 0)) = some v := by decide

theorem alnumValue_eq_some_iff {b : Byte} {v : Nat} : alnumValue b = some v ↔ alnumTable[v]? = some b.toNat := by
  constructor
  · intro h
    simpa [h] using alnumTable_alnumValue b
  · intro h
    obtain ⟨hv, -⟩ := List.getElem?_eq_some_iff.1 h
    have hvalue := alnumValue_alnumTable v (length_alnumTable ▸ hv)
    rwa [List.getD_eq_getElem?_getD, h, Option.getD_some, BitVec.ofNat_toNat, BitVec.setWidth_eq] at hvalue

theorem alnumValue_lt {b : Byte} {v : Nat} (h : alnumValue b = some v) : v < 45 := by
  obtain ⟨hv, -⟩ := List.getElem?_eq_some_iff.1 (alnumValue_eq_some_iff.1 h)
  exact length_alnumTable ▸ hv

theorem kanjiValue_isSome {c : Nat} :
    (kanjiValue c).isSome = true ↔ (0x8140 ≤ c ∧ c ≤ 0x9FFC) ∨ (0xE040 ≤ c ∧ c ≤ 0xEBBF) := by
  unfold kanjiValue
  split_ifs with hlow hhigh
  · simp [hlow]
  · simp [hhigh]
  · simp [hlow, hhigh]

/-- The row and the place of a code in its Kanji range fit 13 bits (42_pack.md R115). -/
theorem kanjiValue_lt {c v : Nat} (h : kanjiValue c = some v) : v < 8192 := by
  unfold kanjiValue at h
  split_ifs at h with hlow hhigh
  · rw [Option.some_inj] at h
    omega
  · rw [Option.some_inj] at h
    omega

/-- Settles O45: the two byte tables by their characters, the Kanji ranges by the definition's own. -/
theorem characterTables : Obligations.CharacterTables :=
  ⟨fun _ _ => digitValue_eq_some_iff, fun _ _ => alnumValue_eq_some_iff, fun _ _ => kanjiValue_isSome,
    fun _ _ => kanjiValue_lt, rfl, rfl, rfl, rfl⟩

/-! ## The characters of a packer's input -/

theorem length_packInput (s : State) : (packInput s).length = arg1 s := length_readBytes _ _ _ _

/-- The code of the `k`-th two-byte character, high byte first (42_pack.md R115). -/
def pairCode (bs : List Byte) (k : Nat) : Nat := (bs.getD (2 * k) 0#8).toNat * 256 + (bs.getD (2 * k + 1) 0#8).toNat

theorem pairCode_cons_cons_zero (hi lo : Byte) (bs : List Byte) :
    pairCode (hi :: lo :: bs) 0 = hi.toNat * 256 + lo.toNat := rfl

theorem pairCode_cons_cons_succ (hi lo : Byte) (bs : List Byte) (k : Nat) :
    pairCode (hi :: lo :: bs) (k + 1) = pairCode bs k := rfl

theorem charValues_ok {value : Byte → Option Nat} : ∀ {bs : List Byte} {v : Nat → Nat} (off : Nat),
    (∀ k, k < bs.length → value (bs.getD k 0#8) = some (v k)) →
    ∃ vs, charValues value off bs = .ok vs ∧ ∀ k, k < bs.length → vs.getD k 0 = v k
  | [], _, _, _ => ⟨[], rfl, nofun⟩
  | b :: bs, v, off, h => by
    obtain ⟨vs, hvs, hget⟩ := charValues_ok (v := fun k => v (k + 1)) (off + 1)
      fun k hk => h (k + 1) (Nat.succ_lt_succ hk)
    have hb : value b = some (v 0) := h 0 (Nat.succ_pos _)
    refine ⟨v 0 :: vs, by simp only [charValues, hb, hvs], fun k hk => ?_⟩
    cases k with
    | zero => rfl
    | succ k => exact hget k (Nat.lt_of_succ_lt_succ hk)

theorem charValues_error {value : Byte → Option Nat} : ∀ {bs : List Byte} {j : Nat} (off : Nat), j < bs.length →
    (∀ k, k < j → value (bs.getD k 0#8) ≠ none) → value (bs.getD j 0#8) = none →
    charValues value off bs = .error (off + j)
  | b :: bs, 0, off, _, _, hbad => by
    have hb : value b = none := hbad
    simp only [charValues, hb, Nat.add_zero]
  | b :: bs, j + 1, off, hj, hgood, hbad => by
    obtain ⟨v, hb⟩ := Option.ne_none_iff_exists'.1 (hgood 0 (Nat.succ_pos _))
    have ih := charValues_error (bs := bs) (off + 1) (Nat.lt_of_succ_lt_succ hj)
      (fun k hk => hgood (k + 1) (Nat.succ_lt_succ hk)) hbad
    rw [List.getD_cons_zero] at hb
    simp only [charValues, hb, ih, Nat.add_right_comm off 1 j, Nat.add_assoc]

theorem pairValues_ok : ∀ {bs : List Byte} {v : Nat → Nat} (off : Nat),
    (∀ k, k < bs.length / 2 → kanjiValue (pairCode bs k) = some (v k)) →
    ∃ vs, pairValues off bs = .ok vs ∧ ∀ k, k < bs.length / 2 → vs.getD k 0 = v k
  | [], _, _, _ => ⟨[], rfl, nofun⟩
  | [_], _, _, _ => ⟨[], rfl, fun k hk => by simp at hk⟩
  | hi :: lo :: bs, v, off, h => by
    have hhalf : (hi :: lo :: bs).length / 2 = bs.length / 2 + 1 := Nat.add_div_right _ Nat.two_pos
    rw [hhalf] at h ⊢
    obtain ⟨vs, hvs, hget⟩ := pairValues_ok (v := fun k => v (k + 1)) (off + 2)
      fun k hk => pairCode_cons_cons_succ hi lo bs k ▸ h (k + 1) (Nat.succ_lt_succ hk)
    have hpair := h 0 (Nat.succ_pos _)
    rw [pairCode_cons_cons_zero] at hpair
    refine ⟨v 0 :: vs, by simp only [pairValues, hpair, hvs], fun k hk => ?_⟩
    cases k with
    | zero => rfl
    | succ k => exact hget k (Nat.lt_of_succ_lt_succ hk)

theorem exists_eq_cons_cons {α : Type} : ∀ {l : List α}, 2 ≤ l.length → ∃ a b rest, l = a :: b :: rest
  | a :: b :: rest, _ => ⟨a, b, rest, rfl⟩

theorem pairValues_error {j : Nat} {bs : List Byte} (off : Nat) (hj : 2 * j + 1 < bs.length)
    (hgood : ∀ k, k < j → kanjiValue (pairCode bs k) ≠ none) (hbad : kanjiValue (pairCode bs j) = none) :
    pairValues off bs = .error (off + 2 * j) := by
  induction j generalizing bs off with
  | zero =>
    obtain ⟨hi, lo, bs, rfl⟩ := exists_eq_cons_cons (l := bs) (by omega)
    rw [pairCode_cons_cons_zero] at hbad
    simp only [pairValues, hbad, Nat.mul_zero, Nat.add_zero]
  | succ j ih =>
    obtain ⟨hi, lo, bs, rfl⟩ := exists_eq_cons_cons (l := bs) (by omega)
    obtain ⟨v, hpair⟩ := Option.ne_none_iff_exists'.1 (hgood 0 (Nat.succ_pos _))
    rw [pairCode_cons_cons_zero] at hpair
    rw [pairCode_cons_cons_succ] at hbad
    have hrest := ih (bs := bs) (off + 2) (by simp only [List.length_cons] at hj; omega)
      (fun k hk => pairCode_cons_cons_succ hi lo bs k ▸ hgood (k + 1) (Nat.succ_lt_succ hk)) hbad
    rw [show off + 2 * (j + 1) = off + 2 + 2 * j by omega]
    simp only [pairValues, hpair, hrest]

/-! ## The fields of a packer -/

/-- Field `f` starts `q` bits after the first bit of the fields `fs`. -/
def FieldAt (fs : List Field) (q : Nat) (f : Field) : Prop := ∃ pre post, fs = pre ++ f :: post ∧ fieldsWidth pre = q

theorem fieldAt_zero_of_head {fs : List Field} {f : Field} (h : fs.head? = some f) : FieldAt fs 0 f := by
  obtain ⟨gs, rfl⟩ := List.head?_eq_some_iff.1 h
  exact ⟨[], gs, rfl, rfl⟩

theorem FieldAt.cons {fs : List Field} {q : Nat} {f : Field} (h : FieldAt fs q f) (g : Field) :
    FieldAt (g :: fs) (g.1 + q) f := by
  obtain ⟨pre, post, rfl, rfl⟩ := h
  exact ⟨g :: pre, post, rfl, rfl⟩

theorem fieldsWidth_append (fs gs : List Field) : fieldsWidth (fs ++ gs) = fieldsWidth fs + fieldsWidth gs := by
  simp [fieldsWidth]

/-- A field that fits its width reads back as its value. -/
theorem FieldAt.reads_back {fs : List Field} {q w v : Nat} (h : FieldAt fs q (w, v)) {m : Memory}
    (hw : m.wf = true) {p : Nat} (hfits : p + fieldsWidth fs ≤ 32768) (hv : v < 2 ^ w) (d : Nat) :
    bitsNumber (writeFields m p fs) d (p + q) w = v := by
  obtain ⟨pre, post, rfl, rfl⟩ := h
  rw [fieldsWidth_append, fieldsWidth_cons] at hfits
  exact bitsNumber_writeFields hw pre post p w v d hv (by omega)

/-- After `g` groups of three the fields go on with those of the digits left (42_pack.md R112). -/
theorem fieldAt_numFields {f : Field} : ∀ {g : Nat} {ds : List Nat}, 3 * g ≤ ds.length →
    (numFields (ds.drop (3 * g))).head? = some f → FieldAt (numFields ds) (10 * g) f
  | 0, _, _, h => fieldAt_zero_of_head h
  | g + 1, a :: b :: c :: ds, hlen, h => by
    have ih := fieldAt_numFields (g := g) (ds := ds) (by simp only [List.length_cons] at hlen; omega) h
    rw [show 10 * (g + 1) = 10 + 10 * g by omega]
    exact ih.cons _
  | g + 1, [], hlen, _ => by simp at hlen
  | g + 1, [_], hlen, _ => by simp at hlen; omega
  | g + 1, [_, _], hlen, _ => by simp at hlen; omega

/-- After `g` pairs the fields go on with those of the characters left (42_pack.md R114). -/
theorem fieldAt_alnumFields {f : Field} : ∀ {g : Nat} {vs : List Nat}, 2 * g ≤ vs.length →
    (alnumFields (vs.drop (2 * g))).head? = some f → FieldAt (alnumFields vs) (11 * g) f
  | 0, _, _, h => fieldAt_zero_of_head h
  | g + 1, a :: b :: vs, hlen, h => by
    have ih := fieldAt_alnumFields (g := g) (vs := vs) (by simp only [List.length_cons] at hlen; omega) h
    rw [show 11 * (g + 1) = 11 + 11 * g by omega]
    exact ih.cons _
  | g + 1, [], hlen, _ => by simp at hlen
  | g + 1, [_], hlen, _ => by simp at hlen; omega

theorem fieldAt_map {α : Type} (w : Nat) (f : α → Nat) {x : α} : ∀ {k : Nat} {vs : List α}, k < vs.length →
    FieldAt (vs.map fun v => (w, f v)) (w * k) (w, f (vs.getD k x))
  | 0, v :: vs, _ => fieldAt_zero_of_head rfl
  | k + 1, v :: vs, hk => by
    have ih := fieldAt_map w f (x := x) (k := k) (vs := vs) (Nat.lt_of_succ_lt_succ hk)
    rw [Nat.mul_succ, Nat.add_comm]
    exact ih.cons _

theorem numFields_head_group {ds : List Nat} (h : 3 ≤ ds.length) :
    (numFields ds).head? = some (10, 100 * ds.getD 0 0 + 10 * ds.getD 1 0 + ds.getD 2 0) := by
  match ds, h with
  | _ :: _ :: _ :: _, _ => rfl

theorem numFields_head_two {ds : List Nat} (h : ds.length = 2) :
    (numFields ds).head? = some (7, 10 * ds.getD 0 0 + ds.getD 1 0) := by
  obtain ⟨a, b, rfl⟩ := List.length_eq_two.1 h
  rfl

theorem numFields_head_one {ds : List Nat} (h : ds.length = 1) : (numFields ds).head? = some (4, ds.getD 0 0) := by
  obtain ⟨a, rfl⟩ := List.length_eq_one_iff.1 h
  rfl

theorem alnumFields_head_pair {vs : List Nat} (h : 2 ≤ vs.length) :
    (alnumFields vs).head? = some (11, 45 * vs.getD 0 0 + vs.getD 1 0) := by
  obtain ⟨a, b, vs, rfl⟩ := exists_eq_cons_cons h
  rfl

theorem alnumFields_head_one {vs : List Nat} (h : vs.length = 1) : (alnumFields vs).head? = some (6, vs.getD 0 0) := by
  obtain ⟨a, rfl⟩ := List.length_eq_one_iff.1 h
  rfl

theorem getD_drop (l : List Nat) (n k : Nat) : (l.drop n).getD k 0 = l.getD (n + k) 0 := by
  simp [List.getD_eq_getElem?_getD]

/-! ## The checks of the mode packers, in their order -/

/-- The range checks of a mode packer that is to write `nb` bits pass (42_pack.md R109). -/
structure RangesPass (paired : Bool) (nb : Nat) (s : State) : Prop where
  src : arg0 s + arg1 s ≤ 8192
  even : paired = true → arg1 s % 2 = 0
  dst : arg2 s + nb ≤ 32768

section
variable {paired : Bool} {nbits : Nat → Nat} {fields : List Byte → Except Nat (List Field)} {s : State}

theorem runPack_inRange (hsrc : 8192 < arg0 s + arg1 s) :
    runPack paired nbits fields s = .error (raise .inRange (clampIdx (arg0 s + arg1 s))) := if_pos hsrc

theorem runPack_oddLength (hsrc : arg0 s + arg1 s ≤ 8192) (hp : paired = true) (hodd : arg1 s % 2 = 1) :
    runPack paired nbits fields s = .error (raise .oddLength (clampIdx (arg1 s))) :=
  (if_neg hsrc.not_gt).trans (if_pos ⟨hp, hodd⟩)

theorem not_oddLength (heven : paired = true → arg1 s % 2 = 0) : ¬ (paired = true ∧ arg1 s % 2 = 1) :=
  fun ⟨hp, hodd⟩ => by have := heven hp; omega

theorem runPack_outRange (hsrc : arg0 s + arg1 s ≤ 8192) (heven : paired = true → arg1 s % 2 = 0)
    (hdst : 32768 < arg2 s + nbits (arg1 s)) :
    runPack paired nbits fields s = .error (raise .outRange (clampIdx (arg2 s + nbits (arg1 s)))) :=
  (if_neg hsrc.not_gt).trans ((if_neg (not_oddLength heven)).trans (if_pos hdst))

/-- Once the ranges are good, the characters decide (42_pack.md R109). -/
theorem runPack_of_rangesPass (h : RangesPass paired (nbits (arg1 s)) s) :
    (∃ off, fields (packInput s) = .error off ∧
        runPack paired nbits fields s = .error (raise .badChar (clampIdx off))) ∨
      ∃ fs, fields (packInput s) = .ok fs ∧
        runPack paired nbits fields s = .ok (setRes01 { s with ram := writeFields s.ram (arg2 s) fs }
          (toWord (nbits (arg1 s))) (toWord (arg2 s + nbits (arg1 s)))) := by
  obtain ⟨hsrc, heven, hdst⟩ := h
  rcases runPack_cases paired nbits fields s with ⟨hc, _⟩ | ⟨_, hp, hodd, _⟩ | ⟨_, _, hc, _⟩ | ⟨_, _, _, hchars⟩
  · exact absurd hc hsrc.not_gt
  · exact absurd ⟨hp, hodd⟩ (not_oddLength heven)
  · exact absurd hc hdst.not_gt
  · exact hchars

theorem runPack_badChar {off : Nat} (h : RangesPass paired (nbits (arg1 s)) s)
    (hf : fields (packInput s) = .error off) :
    runPack paired nbits fields s = .error (raise .badChar (clampIdx off)) := by
  rcases runPack_of_rangesPass (fields := fields) h with ⟨off', hf', hrun⟩ | ⟨fs, hf', _⟩
  · cases hf.symm.trans hf'
    exact hrun
  · cases hf.symm.trans hf'

theorem runPack_ok {fs : List Field} (h : RangesPass paired (nbits (arg1 s)) s) (hf : fields (packInput s) = .ok fs) :
    runPack paired nbits fields s = .ok (setRes01 { s with ram := writeFields s.ram (arg2 s) fs }
      (toWord (nbits (arg1 s))) (toWord (arg2 s + nbits (arg1 s)))) := by
  rcases runPack_of_rangesPass (fields := fields) h with ⟨off, hf', _⟩ | ⟨fs', hf', hrun⟩
  · cases hf.symm.trans hf'
  · cases hf.symm.trans hf'
    exact hrun

/-- A run with a result has passed the range checks. -/
theorem rangesPass_of_runPack_ok {u : State} (h : runPack paired nbits fields s = .ok u) :
    RangesPass paired (nbits (arg1 s)) s := by
  rcases runPack_cases paired nbits fields s with ⟨_, e⟩ | ⟨_, _, _, e⟩ | ⟨_, _, _, e⟩ | ⟨hsrc, hodd, hdst, _⟩
  · rw [e] at h; cases h
  · rw [e] at h; cases h
  · rw [e] at h; cases h
  · exact ⟨hsrc, fun hp => by have : ¬ arg1 s % 2 = 1 := fun ho => hodd ⟨hp, ho⟩; omega, hdst⟩

end

/-! ## The four mode packers as one -/

/-- A mode packer: its command, whether its characters are byte pairs, its bit count, its fields (42_pack.md R109). -/
inductive ModePacker : Instr → Bool → (Nat → Nat) → (List Byte → Except Nat (List Field)) → Prop
  | num : ModePacker .packNum false numBits numEncode
  | alnum : ModePacker .packAlnum false alnumBits alnumEncode
  | kanji : ModePacker .packKanji true kanjiBits kanjiEncode
  | byte : ModePacker .packByte false byteBits byteEncode

namespace ModePacker

section
variable {i : Instr} {paired : Bool} {nbits : Nat → Nat} {fields : List Byte → Except Nat (List Field)}

theorem runOf_eq (h : ModePacker i paired nbits fields) (s : State) : runOf i s = runPack paired nbits fields s := by
  cases h <;> rfl

theorem paired_iff (h : ModePacker i paired nbits fields) : paired = true ↔ i = .packKanji := by
  cases h <;> decide

theorem destination_eq (h : ModePacker i paired nbits fields) (s : State) :
    destination i s = .bits (arg2 s) (nbits (arg1 s)) := by
  cases h <;> rfl

theorem fieldsWidth_eq (h : ModePacker i paired nbits fields) {s : State} {fs : List Field}
    (hf : fields (packInput s) = .ok fs) : fieldsWidth fs = nbits (arg1 s) := by
  rw [← length_packInput s]
  cases h with
  | num => exact fieldsWidth_num hf
  | alnum => exact fieldsWidth_alnum hf
  | kanji => exact fieldsWidth_kanji hf
  | byte => exact fieldsWidth_byte hf

theorem nbits_zero (h : ModePacker i paired nbits fields) : nbits 0 = 0 := by cases h <;> rfl

theorem fields_nil (h : ModePacker i paired nbits fields) : fields [] = .ok [] := by cases h <;> rfl

theorem exists_of_mem (h : i ∈ [Instr.packNum, .packAlnum, .packKanji, .packByte]) :
    ∃ paired nbits fields, ModePacker i paired nbits fields := by
  simp only [List.mem_cons, List.not_mem_nil, or_false] at h
  rcases h with rfl | rfl | rfl | rfl
  · exact ⟨_, _, _, num⟩
  · exact ⟨_, _, _, alnum⟩
  · exact ⟨_, _, _, kanji⟩
  · exact ⟨_, _, _, byte⟩

/-- A mode packer with good ranges and valid characters completes, its fields in the RAM. -/
theorem exec_of_fields (h : ModePacker i paired nbits fields) {s : State} {fs : List Field}
    (hr : RangesPass paired (nbits (arg1 s)) s) (hf : fields (packInput s) = .ok fs) :
    exec i s = .next (succeedsWith s
      { s.res with r0 := BitVec.ofNat 32 (nbits (arg1 s)), r1 := BitVec.ofNat 32 (arg2 s + nbits (arg1 s)) }
      s.scores s.pens (writeFields s.ram (arg2 s) fs)) :=
  exec_ok ((h.runOf_eq s).trans (runPack_ok hr hf))

/-- What the RAM holds then: every field that fits its width, as a number, and no other change. -/
theorem completes (h : ModePacker i paired nbits fields) {s : State} {fs : List Field} (hw : s.ram.wf = true)
    (hr : RangesPass paired (nbits (arg1 s)) s) (hf : fields (packInput s) = .ok fs) :
    ∃ ram, exec i s = .next (succeedsWith s
        { s.res with r0 := BitVec.ofNat 32 (nbits (arg1 s)), r1 := BitVec.ofNat 32 (arg2 s + nbits (arg1 s)) }
        s.scores s.pens ram) ∧
      (∀ {q w v} d, FieldAt fs q (w, v) → v < 2 ^ w → bitsNumber ram d (arg2 s + q) w = v) ∧
      onlyBitsChange s.ram ram (arg2 s) (nbits (arg1 s)) := by
  have hwidth := h.fieldsWidth_eq hf
  refine ⟨_, h.exec_of_fields hr hf, fun d hat hv => hat.reads_back hw (hwidth ▸ hr.dst) hv d, ?_⟩
  rw [← hwidth]
  exact onlyBitsChange_writeFields hw fs (arg2 s)

theorem exec_of_badChar (h : ModePacker i paired nbits fields) {s : State} {off : Nat}
    (hr : RangesPass paired (nbits (arg1 s)) s) (hf : fields (packInput s) = .error off) (hoff : off ≤ 0xFFFFFF) :
    exec i s = .next (failsWith s 1#4 0x22#8 (BitVec.ofNat 24 off)) := by
  rw [← Nat.min_eq_left hoff]
  exact exec_error ((h.runOf_eq s).trans (runPack_badChar hr hf))

end

end ModePacker

/-- Settles O46: no character gives no field, and no field changes nothing. -/
theorem zeroLengthPack : Obligations.ZeroLengthPack := by
  intro i s hi hlen hsrc hdst
  obtain ⟨paired, nbits, fields, hp⟩ := ModePacker.exists_of_mem hi
  have hbits : nbits (arg1 s) = 0 := hlen ▸ hp.nbits_zero
  have hinput : packInput s = [] := List.eq_nil_of_length_eq_zero ((length_packInput s).trans hlen)
  have hexec := hp.exec_of_fields (s := s) (fs := []) ⟨by omega, fun _ => by rw [hlen], by omega⟩
    (hinput ▸ hp.fields_nil)
  have hdst' : BitVec.ofNat 32 (arg2 s) = s.args.a2 := BitVec.ofNat_toNat ..
  rwa [hbits, Nat.add_zero, hdst'] at hexec

/-! ## PACK_BITS -/

theorem runPackBits_ok {s u : State} (h : runPackBits s = .ok u) : arg2 s + arg1 s ≤ 32768 ∧
    u = setRes01 { s with ram := bitWrite s.ram (arg2 s) (arg1 s) (arg0 s) } (toWord (arg1 s))
      (toWord (arg2 s + arg1 s)) := by
  unfold runPackBits at h
  split_ifs at h with _ _ hdst
  exact ⟨Nat.le_of_not_lt hdst, (Except.ok.inj h).symm⟩

theorem bitsNumber_bitWrite {m : Memory} (hw : m.wf = true) {p w v : Nat} (hv : v < 2 ^ w) (hfits : p + w ≤ 32768)
    (d : Nat) : bitsNumber (bitWrite m p w v) d p w = v :=
  bitsNumber_eq w _ d p v hv fun t ht => bitRead_bitWrite hw p w v d t ht hfits

/-- Settles O41: the checks in order, and the field written reads back. -/
theorem packBitsWritesField : Obligations.PackBitsWritesField := by
  refine ⟨rfl, fun s => ⟨fun hwidth => ?_, fun h1 h32 hwide => ?_, fun h1 h32 hv hdst => ?_,
    fun hw h1 h32 hv hdst => ?_⟩⟩
  · exact exec_error (i := .packBits) (e := argRange 1) (if_pos hwidth)
  · exact exec_error (i := .packBits) (e := argRange 0) ((if_neg (by omega)).trans (if_pos ⟨h32, hwide⟩))
  · exact exec_error (i := .packBits) (e := raise .outRange (clampIdx (arg2 s + arg1 s)))
      ((if_neg (by omega)).trans ((if_neg (by omega)).trans (if_pos hdst)))
  · have hrun : runOf .packBits s = .ok (setRes01 { s with ram := bitWrite s.ram (arg2 s) (arg1 s) (arg0 s) }
        (toWord (arg1 s)) (toWord (arg2 s + arg1 s))) :=
      (if_neg (by omega)).trans ((if_neg (by omega)).trans (if_neg hdst.not_gt))
    have hcount : toWord (arg1 s) = s.args.a1 := BitVec.ofNat_toNat ..
    rw [hcount] at hrun
    exact ⟨_, exec_ok hrun, bitsNumber_bitWrite hw hv hdst, onlyBitsChange_bitWrite hw _ _ _⟩

/-! ## What all packers share -/

/-- A packer that raises nothing has a bit range of BITBUF as its destination, and reports its length and its end. -/
theorem runOf_packer {i : Instr} {s u : State}
    (hi : i ∈ [Instr.packNum, .packAlnum, .packKanji, .packByte, .packBits]) (h : runOf i s = .ok u) :
    ∃ n, destination i s = .bits (arg2 s) n ∧ arg2 s + n ≤ 32768 ∧ u.res.r0 = toWord n ∧
      u.res.r1 = toWord (arg2 s + n) := by
  have hmode : i = .packBits ∨ i ∈ [Instr.packNum, .packAlnum, .packKanji, .packByte] := by
    simp only [List.mem_cons, List.not_mem_nil, or_false] at hi ⊢
    tauto
  rcases hmode with rfl | hmode
  · obtain ⟨hdst, rfl⟩ := runPackBits_ok h
    exact ⟨arg1 s, rfl, hdst, rfl, rfl⟩
  · obtain ⟨paired, nbits, fields, hp⟩ := ModePacker.exists_of_mem hmode
    rw [hp.runOf_eq] at h
    have hr := rangesPass_of_runPack_ok h
    rcases runPack_of_rangesPass (fields := fields) hr with ⟨_, _, hrun⟩ | ⟨fs, _, hrun⟩
    · cases h.symm.trans hrun
    · cases h.symm.trans hrun
      exact ⟨nbits (arg1 s), hp.destination_eq s, hr.dst, rfl, rfl⟩

theorem toNat_toWord {n : Nat} (h : n < 2 ^ 32) : (toWord n).toNat = n := by
  rw [toWord, BitVec.toNat_ofNat, Nat.mod_eq_of_lt h]

/-- Settles O42: a run changes its destination alone, which is the bit range reported. -/
theorem packersChangeOnlyTheirBits : Obligations.PackersChangeOnlyTheirBits := by
  intro i s t hi hw hexec herr
  obtain ⟨u, hrun, _, rfl⟩ := exec_success hexec herr
  obtain ⟨n, hregion, hfits, hr0, hr1⟩ := runOf_packer hi hrun
  have h0 : u.res.r0.toNat = n := by rw [hr0, toNat_toWord (by omega)]
  have h1 : u.res.r1.toNat = arg2 s + n := by rw [hr1, toNat_toWord (by omega)]
  show u.res.r1.toNat = arg2 s + u.res.r0.toNat ∧ u.res.r1.toNat ≤ 32768 ∧
    onlyBitsChange s.ram u.ram (arg2 s) u.res.r0.toNat
  rw [h0, h1]
  refine ⟨rfl, hfits, onlyBitsChange_of_out fun a j hj hout => runOf_region hw hrun hj ?_⟩
  rwa [hregion, inRegion_bits hj hfits]

/-! ## The checks -/

theorem numBits_eq (n : Nat) : numBits n = 10 * (n / 3) + [0, 4, 7].getD (n % 3) 0 := by
  unfold numBits
  have : n % 3 < 3 := Nat.mod_lt _ (by decide)
  generalize n % 3 = r at *
  interval_cases r <;> rfl

/-- Settles O43: the three checks of the common steps. -/
theorem packRangeChecksInOrder : Obligations.PackRangeChecksInOrder := by
  intro i s nb hcases
  obtain ⟨paired, nbits, fields, hp, rfl⟩ :
      ∃ paired nbits fields, ModePacker i paired nbits fields ∧ nb = nbits (arg1 s) := by
    rcases hcases with ⟨rfl, rfl⟩ | ⟨rfl, rfl⟩ | ⟨rfl, rfl⟩ | ⟨rfl, rfl⟩
    · exact ⟨_, _, _, .num, (numBits_eq _).symm⟩
    · exact ⟨_, _, _, .alnum, rfl⟩
    · exact ⟨_, _, _, .kanji, rfl⟩
    · exact ⟨_, _, _, .byte, rfl⟩
  refine ⟨fun hsrc => ?_, fun hsrc hkanji hodd => ?_, fun hsrc heven hdst => ?_⟩
  · exact exec_error ((hp.runOf_eq s).trans (runPack_inRange hsrc))
  · rw [← Nat.min_eq_left (show arg1 s ≤ 0xFFFFFF by omega)]
    exact exec_error ((hp.runOf_eq s).trans (runPack_oddLength hsrc (hp.paired_iff.2 hkanji) hodd))
  · exact exec_error ((hp.runOf_eq s).trans (runPack_outRange hsrc (heven ∘ hp.paired_iff.1) hdst))

theorem charEncode_error {value : Byte → Option Nat} (f : List Nat → List Field) {bs : List Byte} {j : Nat}
    (hj : j < bs.length) (hgood : ∀ k, k < j → value (bs.getD k 0#8) ≠ none) (hbad : value (bs.getD j 0#8) = none) :
    (charValues value 0 bs).map f = .error j := by
  rw [charValues_error 0 hj hgood hbad, Nat.zero_add]
  rfl

theorem kanjiEncode_error {bs : List Byte} {j : Nat} (hj : 2 * j + 1 < bs.length)
    (hgood : ∀ k, k < j → kanjiValue (pairCode bs k) ≠ none) (hbad : kanjiValue (pairCode bs j) = none) :
    kanjiEncode bs = .error (2 * j) := by
  rw [kanjiEncode, pairValues_error 0 hj hgood hbad, Nat.zero_add]
  rfl

/-- Settles O44: the first character without a value ends the list of values with its offset. -/
theorem packReportsFirstBadCharacter : Obligations.PackReportsFirstBadCharacter := by
  intro s j hsrc
  have hlen := length_packInput s
  refine ⟨fun hj hdst hgood hbad => ?_, fun hj hdst hgood hbad => ?_, fun heven hj hdst hgood hbad => ?_,
    fun hdst => ?_⟩
  · exact ModePacker.num.exec_of_badChar ⟨hsrc, nofun, hdst⟩ (charEncode_error _ (hlen ▸ hj) hgood hbad) (by omega)
  · exact ModePacker.alnum.exec_of_badChar ⟨hsrc, nofun, hdst⟩ (charEncode_error _ (hlen ▸ hj) hgood hbad) (by omega)
  · exact ModePacker.kanji.exec_of_badChar ⟨hsrc, fun _ => heven, hdst⟩ (kanjiEncode_error (by omega) hgood hbad)
      (by omega)
  · exact ⟨_, ModePacker.byte.exec_of_fields ⟨hsrc, nofun, hdst⟩ rfl, rfl⟩

/-! ## The fields read back -/

/-- Settles O40: byte `k` is field `k`. -/
theorem packByteCopiesBytes : Obligations.PackByteCopiesBytes := by
  intro s hw hsrc hdst
  obtain ⟨ram, hexec, hread, hkept⟩ := ModePacker.byte.completes hw ⟨hsrc, nofun, hdst⟩ rfl
  exact ⟨ram, hexec, fun k d hk =>
    hread d (fieldAt_map 8 BitVec.toNat ((length_packInput s).symm ▸ hk)) (BitVec.isLt _), hkept⟩

/-- Settles O39: pair `k` is field `k`. -/
theorem packKanjiGivesCharacters : Obligations.PackKanjiGivesCharacters := by
  intro s v hw heven hsrc hdst hvalue
  have hlen := length_packInput s
  rw [← hlen] at hvalue
  obtain ⟨vs, hvs, hget⟩ := pairValues_ok 0 hvalue
  have hcount := length_pairValues hvs
  obtain ⟨ram, hexec, hread, hkept⟩ := ModePacker.kanji.completes (fs := vs.map fun v => (13, v)) hw
    ⟨hsrc, fun _ => heven, hdst⟩ (by rw [kanjiEncode, hvs]; rfl)
  refine ⟨ram, hexec, fun k d hk => ?_, hkept⟩
  rw [← hlen] at hk
  rw [← hget k hk]
  refine hread d (fieldAt_map 13 id (hcount ▸ hk)) ?_
  rw [hget k hk]
  exact kanjiValue_lt (hvalue k hk)

/-- Settles O38: the characters have table values below 45, and the fields are those of the pairs and of a lone one. -/
theorem packAlnumGivesPairs : Obligations.PackAlnumGivesPairs := by
  intro s nb v hw hnb hsrc hdst hvalue
  subst hnb
  have hlen := length_packInput s
  obtain ⟨vs, hvs, hget⟩ := charValues_ok 0 (hlen.symm ▸ hvalue)
  have hcount : vs.length = arg1 s := (length_charValues hvs).trans hlen
  rw [hlen] at hget
  have hlt : ∀ {k}, k < arg1 s → v k < 45 := fun hk => alnumValue_lt (hvalue _ hk)
  obtain ⟨ram, hexec, hread, hkept⟩ := ModePacker.alnum.completes (fs := alnumFields vs) hw ⟨hsrc, nofun, hdst⟩
    (by rw [alnumEncode, hvs]; rfl)
  refine ⟨ram, hexec, fun g d hg => ?_, fun hodd d => ?_, hkept⟩
  · have hat := fieldAt_alnumFields (g := g) (vs := vs) (by omega)
      (alnumFields_head_pair (by rw [List.length_drop]; omega))
    rw [getD_drop, getD_drop, Nat.add_zero, hget _ (by omega), hget _ (by omega)] at hat
    have := hlt (k := 2 * g) (by omega)
    have := hlt (k := 2 * g + 1) (by omega)
    exact hread d hat (by omega)
  · have hat := fieldAt_alnumFields (g := arg1 s / 2) (vs := vs) (by omega)
      (alnumFields_head_one (by rw [List.length_drop]; omega))
    rw [getD_drop, Nat.add_zero, show 2 * (arg1 s / 2) = arg1 s - 1 by omega, hget _ (by omega)] at hat
    have := hlt (k := arg1 s - 1) (by omega)
    exact hread d hat (by omega)

/-- Settles O37: the fields are those of the groups of three digits and of the digits left over. -/
theorem packNumGivesDigitGroups : Obligations.PackNumGivesDigitGroups := by
  intro s nb hw hnb hsrc hdst hdigits
  rw [← numBits_eq] at hnb
  subst hnb
  have hlen := length_packInput s
  have hdigit : ∀ {k}, k < arg1 s → 0x30 ≤ ((packInput s).getD k 0#8).toNat ∧ ((packInput s).getD k 0#8).toNat ≤ 0x39 :=
    fun hk => hdigits _ (List.getD_eq_getElem _ _ (hlen.symm ▸ hk) ▸ List.getElem_mem _)
  obtain ⟨vs, hvs, hget⟩ := charValues_ok (value := digitValue) (bs := packInput s)
    (v := fun k => ((packInput s).getD k 0#8).toNat - 0x30) 0 fun k hk => if_pos (hdigit (hlen ▸ hk))
  have hcount : vs.length = arg1 s := (length_charValues hvs).trans hlen
  rw [hlen] at hget
  obtain ⟨ram, hexec, hread, hkept⟩ := ModePacker.num.completes (fs := numFields vs) hw ⟨hsrc, nofun, hdst⟩
    (by rw [numEncode, hvs]; rfl)
  refine ⟨ram, hexec, fun g d hg => ?_, fun htwo d => ?_, fun hone d => ?_, hkept⟩
  · have hat := fieldAt_numFields (g := g) (ds := vs) (by omega)
      (numFields_head_group (by rw [List.length_drop]; omega))
    rw [getD_drop, getD_drop, getD_drop, Nat.add_zero, hget _ (by omega), hget _ (by omega), hget _ (by omega)] at hat
    have := hdigit (k := 3 * g) (by omega)
    have := hdigit (k := 3 * g + 1) (by omega)
    have := hdigit (k := 3 * g + 2) (by omega)
    exact hread d hat (by omega)
  · have hat := fieldAt_numFields (g := arg1 s / 3) (ds := vs) (by omega)
      (numFields_head_two (by rw [List.length_drop]; omega))
    rw [getD_drop, getD_drop, Nat.add_zero, show 3 * (arg1 s / 3) = arg1 s - 2 by omega,
      show arg1 s - 2 + 1 = arg1 s - 1 by omega, hget _ (by omega), hget _ (by omega)] at hat
    have := hdigit (k := arg1 s - 2) (by omega)
    have := hdigit (k := arg1 s - 1) (by omega)
    exact hread d hat (by omega)
  · have hat := fieldAt_numFields (g := arg1 s / 3) (ds := vs) (by omega)
      (numFields_head_one (by rw [List.length_drop]; omega))
    rw [getD_drop, Nat.add_zero, show 3 * (arg1 s / 3) = arg1 s - 1 by omega, hget _ (by omega)] at hat
    have := hdigit (k := arg1 s - 1) (by omega)
    exact hread d hat (by omega)

end Sys2Proof.Machine
end

section
/-! PROOFS. 43_mask.md: cells under a mask, the board a mask leaves, the checks, and the three mask commands. -/

namespace Sys2Proof.Machine

/-- Settles O47: the formula at every version. -/
theorem boardDimensions : Obligations.BoardDimensions := by
  refine ⟨fun v _ hv => ⟨rfl, ?_⟩, fun v _ hv => ⟨rfl, ?_⟩⟩
  · have hdim : boardDim v false ≤ 177 := show 21 + 4 * (v - 1) ≤ 177 by omega
    exact (Nat.mul_le_mul hdim hdim).trans (by decide)
  · have hdim : boardDim v true ≤ 17 := show 11 + 2 * (v - 1) ≤ 17 by omega
    exact (Nat.mul_le_mul hdim hdim).trans (by decide)

/-! ## One cell under a mask -/

theorem cellMasked_xor_one : ∀ b : Byte, cellMasked (b ^^^ 1#8) = cellMasked b := by decide

theorem cellMalformed_xor_one : ∀ b : Byte, cellMasked b = true → cellMalformed (b ^^^ 1#8) = cellMalformed b := by
  decide

theorem xor_one_div_two : ∀ b : Byte, (b ^^^ 1#8).toNat / 2 = b.toNat / 2 := by decide

/-- A cell of tag 0..6 is no masked cell (43_mask.md R129). -/
theorem cellMasked_functionCell : ∀ b : Byte, b.toNat / 4 % 16 ≤ 6 → cellMasked b = false := by decide

theorem xor_one_xor_one (b : Byte) : b ^^^ 1#8 ^^^ 1#8 = b := by rw [BitVec.xor_assoc, BitVec.xor_self, BitVec.xor_zero]

section
variable (m r c : Nat) (b : Byte)

theorem maskCell_of_inverts (h : cellMasked b = true ∧ maskPred m r c = true) : maskCell m r c b = b ^^^ 1#8 :=
  if_pos ((Bool.and_eq_true _ _).mpr h)

theorem maskCell_of_keeps (h : ¬ (cellMasked b = true ∧ maskPred m r c = true)) : maskCell m r c b = b :=
  if_neg (mt (Bool.and_eq_true _ _).mp h)

@[simp] theorem maskCell_maskCell : maskCell m r c (maskCell m r c b) = b := by
  by_cases h : cellMasked b = true ∧ maskPred m r c = true
  · rw [maskCell_of_inverts m r c b h, maskCell_of_inverts, xor_one_xor_one]
    rwa [cellMasked_xor_one]
  · rw [maskCell_of_keeps m r c b h, maskCell_of_keeps m r c b h]

/-- A mask inverts bit 0 of a masked cell, or leaves the cell. -/
theorem maskCell_cases : cellMasked b = true ∧ maskCell m r c b = b ^^^ 1#8 ∨ maskCell m r c b = b := by
  by_cases h : cellMasked b = true ∧ maskPred m r c = true
  · exact .inl ⟨h.1, maskCell_of_inverts m r c b h⟩
  · exact .inr (maskCell_of_keeps m r c b h)

@[simp] theorem cellMalformed_maskCell : cellMalformed (maskCell m r c b) = cellMalformed b := by
  rcases maskCell_cases m r c b with ⟨hmasked, hcell⟩ | hcell
  · rw [hcell, cellMalformed_xor_one b hmasked]
  · rw [hcell]

theorem maskCell_div_two : (maskCell m r c b).toNat / 2 = b.toNat / 2 := by
  rcases maskCell_cases m r c b with ⟨-, hcell⟩ | hcell
  · rw [hcell, xor_one_div_two]
  · rw [hcell]

theorem maskCell_functionCell (h : b.toNat / 4 % 16 ≤ 6) : maskCell m r c b = b :=
  maskCell_of_keeps m r c b fun hm => by rw [cellMasked_functionCell b h] at hm; exact Bool.false_ne_true hm.1

end

/-! ## A board under a mask -/

section
variable (dim m : Nat)

theorem applyMaskFrom_applyMaskFrom : ∀ (t : Nat) (cells : List Byte),
    applyMaskFrom dim m t (applyMaskFrom dim m t cells) = cells
  | _, [] => rfl
  | t, b :: bs => by rw [applyMaskFrom, applyMaskFrom, maskCell_maskCell, applyMaskFrom_applyMaskFrom (t + 1) bs]

/-- A mask is its own inverse (43_mask.md R142). -/
@[simp] theorem applyMask_applyMask (cells : List Byte) : applyMask dim m (applyMask dim m cells) = cells :=
  applyMaskFrom_applyMaskFrom dim m 0 cells

theorem getD_applyMaskFrom : ∀ (t : Nat) (cells : List Byte) {k : Nat}, k < cells.length →
    (applyMaskFrom dim m t cells).getD k 0#8 = maskCell m ((t + k) / dim) ((t + k) % dim) (cells.getD k 0#8)
  | _, _ :: _, 0, _ => rfl
  | t, _ :: bs, k + 1, hk => by
    rw [applyMaskFrom, List.getD_cons_succ, List.getD_cons_succ,
      getD_applyMaskFrom (t + 1) bs (Nat.lt_of_succ_lt_succ hk), Nat.add_right_comm, Nat.add_assoc]

theorem getD_applyMask {cells : List Byte} {k : Nat} (hk : k < cells.length) :
    (applyMask dim m cells).getD k 0#8 = maskCell m (k / dim) (k % dim) (cells.getD k 0#8) := by
  rw [applyMask, getD_applyMaskFrom dim m 0 cells hk, Nat.zero_add]

theorem firstMalformed_applyMaskFrom : ∀ (t k : Nat) (cells : List Byte),
    firstMalformed t (applyMaskFrom dim m k cells) = firstMalformed t cells
  | _, _, [] => rfl
  | t, k, b :: bs => by
    rw [applyMaskFrom, firstMalformed, cellMalformed_maskCell, firstMalformed_applyMaskFrom (t + 1) (k + 1) bs,
      firstMalformed]

@[simp] theorem checkBoard_applyMask (cells : List Byte) : checkBoard (applyMask dim m cells) = checkBoard cells := by
  rw [checkBoard, applyMask, firstMalformed_applyMaskFrom, checkBoard]

end

/-! ## The board in the RAM -/

section
variable {dim r c : Nat}

theorem cellIndex_lt (hr : r < dim) (hc : c < dim) : r * dim + c < dim * dim :=
  calc r * dim + c < (r + 1) * dim := by rw [Nat.succ_mul]; exact Nat.add_lt_add_left hc _
    _ ≤ dim * dim := Nat.mul_le_mul_right dim hr

theorem cellIndex_div (hc : c < dim) : (r * dim + c) / dim = r := by
  rw [Nat.add_comm, Nat.add_mul_div_right _ _ (Nat.zero_lt_of_lt hc), Nat.div_eq_of_lt hc, Nat.zero_add]

theorem cellIndex_mod (hc : c < dim) : (r * dim + c) % dim = c := by
  rw [Nat.mul_add_mod_self_right, Nat.mod_eq_of_lt hc]

end

/-- The RAM after mask `m` is written to BOARD (43_mask.md R129, R138). -/
def maskedRam (s : State) (m : Nat) : Memory :=
  writeBytes s.ram Window.board.base (applyMask (dimOf s) m (boardCells s))

theorem readBytes_writeBytes {m : Memory} (h : m.wf = true) {bs : List Byte} {a : Nat} (d : Nat)
    (hram : ∀ k, k < bs.length → isRam (a + k) = true) : readBytes (writeBytes m a bs) d a bs.length = bs := by
  refine List.ext_getElem (length_readBytes _ _ _ _) fun k hk hk' => ?_
  rw [← List.getD_eq_getElem _ 0#8, ← List.getD_eq_getElem _ 0#8, getD_readBytes _ _ _ _ _ hk',
    readByte_writeBytes_inside h bs a k d hk' (hram k hk')]

theorem isRam_board {k : Nat} (hk : k < 32768) : isRam (0x8000 + k) = true := (isRam_iff _).2 (by omega)

section
variable {s : State}

theorem configLegal_iff (b : Bcfg) : configLegal b ↔ bcfgLegal b = true := by
  unfold configLegal bcfgLegal
  cases b.micro <;> simp

/-- Every cell of a legal configuration's board is a RAM byte. -/
theorem isRam_cell (hc : configLegal s.bcfg) {k : Nat} (hk : k < dimOf s * dimOf s) : isRam (0x8000 + k) = true :=
  isRam_board (hk.trans_le (dimOf_sq_le ((configLegal_iff _).1 hc)))

/-- A known cell is the value that its byte holds, whatever is drawn. -/
theorem getD_boardCells (hk : boardKnown s) {k : Nat} (hlt : k < dimOf s * dimOf s) (hram : isRam (0x8000 + k) = true) :
    (boardCells s).getD k 0#8 = planeGet s.ram.val (0x8000 + k) := by
  rw [boardCells, getD_readBytes _ _ _ _ _ hlt]
  exact readByte_known _ (romByte_of_isRam hram) (hk k hlt)

theorem dimOf_eq_of_bcfg {t : State} (hbcfg : t.bcfg = s.bcfg) : dimOf t = dimOf s := by
  rw [dimOf, verOf, hbcfg, dimOf, verOf]

/-- What a mask command reads back of the cells that another one wrote. -/
theorem boardCells_of_written {t : State} (hw : s.ram.wf = true) (hc : configLegal s.bcfg) (hbcfg : t.bcfg = s.bcfg)
    {cells : List Byte} (hlen : cells.length = dimOf s * dimOf s)
    (hram : t.ram = writeBytes s.ram Window.board.base cells) : boardCells t = cells := by
  rw [boardCells, hram, dimOf_eq_of_bcfg hbcfg, ← hlen]
  exact readBytes_writeBytes hw _ fun k hk => isRam_cell hc (hlen ▸ hk)

/-- Writing a known board back restores the RAM, whatever was written over it. -/
theorem writeBytes_boardCells (hw : s.ram.wf = true) (hk : boardKnown s) {cells : List Byte}
    (hlen : cells.length = dimOf s * dimOf s) :
    writeBytes (writeBytes s.ram Window.board.base cells) Window.board.base (boardCells s) = s.ram := by
  have hw' := wf_writeBytes cells hw Window.board.base
  refine memory_ext (wf_writeBytes _ hw' _) hw (fun a => ?_) (fun a => ?_)
  · rw [writeBytes_known _ hw', writeBytes_known _ hw, length_boardCells, hlen]
    split
    · next hin =>
      obtain ⟨k, rfl⟩ := Nat.exists_eq_add_of_le hin.1
      exact (hk k (Nat.lt_of_add_lt_add_left hin.2.1)).symm
    · rfl
  · rw [writeBytes_val _ hw', writeBytes_val _ hw, length_boardCells, hlen]
    split
    · next hin =>
      obtain ⟨k, rfl⟩ := Nat.exists_eq_add_of_le hin.1
      have hlt : k < dimOf s * dimOf s := Nat.lt_of_add_lt_add_left hin.2.1
      rw [Nat.add_sub_cancel_left]
      exact getD_boardCells hk hlt hin.2.2
    · rfl

theorem readByte_maskedRam (hw : s.ram.wf = true) (hc : configLegal s.bcfg) (m d : Nat) {k : Nat}
    (hk : k < dimOf s * dimOf s) :
    readByte (maskedRam s m) d (0x8000 + k) = maskCell m (k / dimOf s) (k % dimOf s) ((boardCells s).getD k 0#8) := by
  have hlen := length_boardCells s
  rw [maskedRam, ← getD_applyMask (dimOf s) m (hlen ▸ hk)]
  exact readByte_writeBytes_inside hw _ _ k d (by rwa [length_applyMask, hlen]) (isRam_cell hc hk)

theorem maskedRam_known (hw : s.ram.wf = true) (hc : configLegal s.bcfg) (m : Nat) {k : Nat}
    (hk : k < dimOf s * dimOf s) : planeGet (maskedRam s m).known (0x8000 + k) = 0xFF#8 := by
  rw [maskedRam, writeBytes_known _ hw, length_applyMask, length_boardCells]
  exact if_pos ⟨Nat.le_add_right _ k, Nat.add_lt_add_left hk _, isRam_cell hc hk⟩

theorem boardMasked_maskedRam (hw : s.ram.wf = true) (hc : configLegal s.bcfg) (m : Nat) :
    boardMasked s m (maskedRam s m) := by
  refine ⟨fun r c d hr hcol => ?_, fun a ha => byteKept_writeBytes hw _ ?_⟩
  · rw [readByte_maskedRam hw hc m d (cellIndex_lt hr hcol), cellIndex_div hcol, cellIndex_mod hcol]
    split
    · next hinverts => exact maskCell_of_inverts m r c _ hinverts
    · next hkeeps => exact maskCell_of_keeps m r c _ hkeeps
  · rwa [length_applyMask, length_boardCells]

end

/-! ## The checks -/

theorem cellMalformed_eq_false_iff : ∀ b : Byte,
    cellMalformed b = false ↔ b.toNat % 4 ≠ 3 ∧ b.toNat / 4 % 16 ≤ 9 ∧ b.toNat < 64 := by decide

theorem firstMalformed_eq_none_iff : ∀ (t : Nat) (cells : List Byte),
    firstMalformed t cells = none ↔ ∀ b ∈ cells, cellMalformed b = false
  | _, [] => by simp [firstMalformed]
  | t, b :: bs => by
    cases hb : cellMalformed b <;> simp [firstMalformed, hb, firstMalformed_eq_none_iff (t + 1) bs]

theorem firstMalformed_eq_some : ∀ (t : Nat) (cells : List Byte) {k : Nat}, cellMalformed (cells.getD k 0#8) = true →
    (∀ j, j < k → cellMalformed (cells.getD j 0#8) = false) → firstMalformed t cells = some (t + k)
  | _, [], _, hk, _ => by rw [List.getD_nil] at hk; exact absurd hk (by decide)
  | _, _ :: _, 0, hk, _ => if_pos hk
  | t, b :: bs, k + 1, hk, hbelow => by
    have hb : cellMalformed b = false := hbelow 0 k.succ_pos
    rw [firstMalformed, hb, if_neg Bool.false_ne_true, firstMalformed_eq_some (t + 1) bs hk fun j hj =>
      hbelow (j + 1) (Nat.succ_lt_succ hj), Nat.add_right_comm, Nat.add_assoc]

section
variable {s : State}

theorem checkBcfg_eq_none_iff : checkBcfg s = none ↔ configLegal s.bcfg := by
  rw [configLegal_iff, checkBcfg]
  split
  · next hlegal => exact iff_of_true rfl hlegal
  · next hillegal => exact iff_of_false nofun hillegal

theorem checkBcfg_of_illegal (hc : ¬ configLegal s.bcfg) :
    checkBcfg s = some (raise .badVersion (BitVec.ofNat 24 (s.bcfg.word.toNat % 512))) :=
  if_neg (mt (configLegal_iff _).2 hc)

theorem mem_candidates_micro {m : Nat} : m ∈ candidates true ↔ m = 1 ∨ m = 4 ∨ m = 6 ∨ m = 7 := by
  simp [candidates]

theorem checkMaskId_eq_none_iff {m : Nat} : checkMaskId s m = none ↔ maskIdLegal s.bcfg.micro m := by
  simp only [checkMaskId, maskIdLegal, mem_candidates_micro]
  split
  · next hm => exact iff_of_false nofun fun h => absurd hm h.1.not_gt
  split
  · next hmicro => exact iff_of_false nofun fun h => hmicro.2 (h.2 hmicro.1)
  · next hm hmicro => exact iff_of_true rfl ⟨Nat.le_of_not_lt hm, fun h => by_contra fun hn => hmicro ⟨h, hn⟩⟩

theorem checkMaskId_argRange {m : Nat} (hm : 7 < m) : checkMaskId s m = some (argRange 0) := if_pos hm

theorem checkMaskId_badMask {m : Nat} (hm : m ≤ 7) (hid : ¬ maskIdLegal s.bcfg.micro m) :
    checkMaskId s m = some (raise .badMask (BitVec.ofNat 24 m)) := by
  have hmicro : s.bcfg.micro = true ∧ m ∉ candidates true := by
    rw [mem_candidates_micro]
    exact Classical.not_imp.1 fun h => hid ⟨hm, h⟩
  exact (if_neg hm.not_gt).trans (if_pos hmicro)

theorem checkBoard_eq_none_iff : checkBoard (boardCells s) = none ↔ boardWellFormed s := by
  rw [checkBoard, Option.map_eq_none_iff, firstMalformed_eq_none_iff, boardWellFormed]
  simp only [cellMalformed_eq_false_iff]

theorem checkBoard_of_first {cells : List Byte} {k : Nat} (hk : cellMalformed (cells.getD k 0#8) = true)
    (hbelow : ∀ j, j < k → cellMalformed (cells.getD j 0#8) = false) :
    checkBoard cells = some (raise .badCell (BitVec.ofNat 24 k)) := by
  rw [checkBoard, firstMalformed_eq_some 0 cells hk hbelow, Nat.zero_add]
  rfl

end

/-! ## The mask commands as one -/

/-- A mask command: its command, whether it takes a mask ID in ARG0, and the state it makes of the board's cells
(43_mask.md R138, R140, R141). -/
inductive MaskCommand : Instr → Bool → (State → List Byte → State) → Prop
  | apply : MaskCommand .maskApply true fun s cells =>
      setRes0 (putBoard s (applyMask (dimOf s) (arg0 s) cells)) (toWord (arg0 s))
  | score : MaskCommand .maskScore false putScore
  | selectForced (commit : Bool) : MaskCommand (.maskSelect commit true) true (selectForced commit)
  | selectScored (commit : Bool) : MaskCommand (.maskSelect commit false) false (selectScored commit)

/-- What the checks of a mask command ask (43_mask.md R130, R131). -/
structure MaskChecksPass (takesId : Bool) (s : State) : Prop where
  config : configLegal s.bcfg
  maskId : takesId = true → maskIdLegal s.bcfg.micro (arg0 s)
  board : boardWellFormed s

/-- The checks of a mask command in their order (43_mask.md R130, R131). -/
def maskChecks (takesId : Bool) (s : State) : List (Option CmdError) :=
  if takesId then [checkBcfg s, checkMaskId s (arg0 s), checkBoard (boardCells s)]
  else [checkBcfg s, checkBoard (boardCells s)]

theorem firstError_of_error {checks : List (Option CmdError)} {t : State} {e : CmdError}
    (h : firstError checks t = .error e) (u : State) : firstError checks u = .error e := by
  rw [← firstError_map (fun _ => u) checks t, h]
  rfl

theorem maskChecks_none_iff {takesId : Bool} {s : State} :
    (∀ c ∈ maskChecks takesId s, c = none) ↔ MaskChecksPass takesId s := by
  constructor
  · intro hall
    refine ⟨checkBcfg_eq_none_iff.1 (hall _ ?_), fun hid => checkMaskId_eq_none_iff.1 (hall _ ?_),
      checkBoard_eq_none_iff.1 (hall _ ?_)⟩
    · cases takesId <;> simp [maskChecks]
    · simp [maskChecks, hid]
    · cases takesId <;> simp [maskChecks]
  · rintro ⟨hconfig, hid, hboard⟩
    cases takesId <;> simp [maskChecks, checkBcfg_eq_none_iff.2 hconfig, checkBoard_eq_none_iff.2 hboard]
    exact checkMaskId_eq_none_iff.2 (hid rfl)

theorem all_none_of_firstError_ok : ∀ {checks : List (Option CmdError)} {t u : State}, firstError checks t = .ok u →
    ∀ c ∈ checks, c = none
  | [], _, _, _, _, hc => absurd hc List.not_mem_nil
  | none :: cs, _, _, h, c, hc => (List.mem_cons.1 hc).elim id (all_none_of_firstError_ok (checks := cs) h c)
  | some _ :: _, _, _, h, _, _ => nomatch h

theorem exists_firstError_of_not_pass {takesId : Bool} {s : State} (h : ¬ MaskChecksPass takesId s) :
    ∃ e, ∀ u, firstError (maskChecks takesId s) u = .error e := by
  cases hrun : firstError (maskChecks takesId s) s with
  | error e => exact ⟨e, firstError_of_error hrun⟩
  | ok u => exact absurd (maskChecks_none_iff.1 (all_none_of_firstError_ok hrun)) h

namespace MaskCommand

theorem exists_of_mem {i : Instr} (h : i ∈ [Instr.maskApply, .maskScore, .maskSelect true false,
    .maskSelect false false, .maskSelect true true, .maskSelect false true]) :
    ∃ takesId result, MaskCommand i takesId result := by
  simp only [List.mem_cons, List.not_mem_nil, or_false] at h
  rcases h with rfl | rfl | rfl | rfl | rfl | rfl
  · exact ⟨_, _, apply⟩
  · exact ⟨_, _, score⟩
  · exact ⟨_, _, selectScored true⟩
  · exact ⟨_, _, selectScored false⟩
  · exact ⟨_, _, selectForced true⟩
  · exact ⟨_, _, selectForced false⟩

variable {i : Instr} {takesId : Bool} {result : State → List Byte → State} (h : MaskCommand i takesId result)
include h

theorem takesId_iff : takesId = true ↔ i ∈ [Instr.maskApply, .maskSelect true true, .maskSelect false true] := by
  cases h with
  | apply | score => decide
  | selectForced commit | selectScored commit => cases commit <;> decide

theorem runOf_eq (s : State) : runOf i s = firstError (maskChecks takesId s) (result s (boardCells s)) := by
  cases h <;> rfl

variable {s t : State}

theorem exec_of_pass (hp : MaskChecksPass takesId s) : exec i s = .next (succeedsWith s (result s (boardCells s)).res
    (result s (boardCells s)).scores (result s (boardCells s)).pens (result s (boardCells s)).ram) :=
  exec_ok ((h.runOf_eq s).trans (firstError_all_none (maskChecks_none_iff.2 hp)))

/-- A mask command that ends without an error has passed its checks and leaves its result. -/
theorem success (hexec : exec i s = .next t) (herr : t.status.err = false) : MaskChecksPass takesId s ∧
    t = succeedsWith s (result s (boardCells s)).res (result s (boardCells s)).scores (result s (boardCells s)).pens
      (result s (boardCells s)).ram := by
  obtain ⟨u, hrun, -, rfl⟩ := exec_success hexec herr
  rw [h.runOf_eq] at hrun
  obtain rfl := firstError_ok hrun
  exact ⟨maskChecks_none_iff.1 (all_none_of_firstError_ok hrun), rfl⟩

/-- The first check that fails gives the report (60_exceptions.md R152). -/
theorem exec_of_firstError {e : CmdError} (hfirst : ∀ u, firstError (maskChecks takesId s) u = .error e) :
    exec i s = .next (failsWith s e.kind.code e.sub.code e.idx) :=
  exec_error ((h.runOf_eq s).trans (hfirst _))

end MaskCommand

section
variable {s : State} {takesId : Bool} (u : State)

theorem firstError_maskChecks_config (hc : ¬ configLegal s.bcfg) : firstError (maskChecks takesId s) u =
    .error (raise .badVersion (BitVec.ofNat 24 (s.bcfg.word.toNat % 512))) := by
  rw [maskChecks, checkBcfg_of_illegal hc]
  cases takesId <;> rfl

theorem firstError_maskChecks_id {e : CmdError} (hc : configLegal s.bcfg) (hid : checkMaskId s (arg0 s) = some e) :
    firstError (maskChecks true s) u = .error e := by
  rw [maskChecks, checkBcfg_eq_none_iff.2 hc, hid]
  rfl

theorem firstError_maskChecks_board {e : CmdError} (hc : configLegal s.bcfg)
    (hid : takesId = true → maskIdLegal s.bcfg.micro (arg0 s)) (hboard : checkBoard (boardCells s) = some e) :
    firstError (maskChecks takesId s) u = .error e := by
  rw [maskChecks, checkBcfg_eq_none_iff.2 hc, hboard]
  cases takesId with
  | false => rfl
  | true => rw [checkMaskId_eq_none_iff.2 (hid rfl)]; rfl

end

/-- Settles O50: the list of checks stops at the first that fails. -/
theorem maskChecksInOrder : Obligations.MaskChecksInOrder := by
  intro i s hi
  obtain ⟨takesId, result, hcmd⟩ := MaskCommand.exists_of_mem hi
  refine ⟨fun hc => ?_, fun hc htakes => ?_, fun hc hid t _ hbad hbelow => ?_⟩
  · exact hcmd.exec_of_firstError fun u => firstError_maskChecks_config u hc
  · obtain rfl := hcmd.takesId_iff.2 htakes
    exact ⟨fun hm => hcmd.exec_of_firstError fun u => firstError_maskChecks_id u hc (checkMaskId_argRange hm),
      fun hm hid => hcmd.exec_of_firstError fun u => firstError_maskChecks_id u hc (checkMaskId_badMask hm hid)⟩
  · exact hcmd.exec_of_firstError fun u =>
      firstError_maskChecks_board u hc (hid ∘ hcmd.takesId_iff.1) (checkBoard_of_first hbad hbelow)

/-! ## MASK_APPLY -/

theorem toWord_arg0 (s : State) : toWord (arg0 s) = s.args.a0 := BitVec.eq_of_toNat_eq (toNat_toWord (BitVec.isLt _))

/-- Settles O48: the checks pass, and the RAM is the board under the mask. -/
theorem maskApplyInvertsCells : Obligations.MaskApplyInvertsCells := by
  intro s hw hc hid hboard
  refine ⟨maskedRam s (arg0 s), ?_, boardMasked_maskedRam hw hc (arg0 s)⟩
  have hexec := MaskCommand.apply.exec_of_pass ⟨hc, fun _ => hid, hboard⟩
  rwa [setRes0_res, toWord_arg0] at hexec

/-! ## A second mask command on the board that a mask has left -/

section
variable {s t : State} {m : Nat} (hw : s.ram.wf = true) (hc : configLegal s.bcfg) (hbcfg : t.bcfg = s.bcfg)
  (hram : t.ram = maskedRam s m)

include hw hc hbcfg hram

theorem boardCells_of_masked : boardCells t = applyMask (dimOf s) m (boardCells s) :=
  boardCells_of_written hw hc hbcfg (by rw [length_applyMask, length_boardCells]) hram

theorem boardWellFormed_of_masked (hboard : boardWellFormed s) : boardWellFormed t := by
  rwa [← checkBoard_eq_none_iff, boardCells_of_masked hw hc hbcfg hram, checkBoard_applyMask, checkBoard_eq_none_iff]

theorem maskedRam_of_masked (hk : boardKnown s) : maskedRam t m = s.ram := by
  rw [maskedRam, boardCells_of_masked hw hc hbcfg hram, dimOf_eq_of_bcfg hbcfg, applyMask_applyMask, hram]
  exact writeBytes_boardCells hw hk (by rw [length_applyMask, length_boardCells])

/-- MASK_APPLY of the mask that a board is under succeeds and gives the RAM from before the mask (43_mask.md R142). -/
theorem maskApply_restores {u : State} (hk : boardKnown s) (hboard : boardWellFormed s)
    (hid : maskIdLegal s.bcfg.micro m) (harg : arg0 t = m) (hexec : exec .maskApply t = .next u) :
    u.status.err = false ∧ u.ram = s.ram := by
  subst harg
  have hpass : MaskChecksPass true t :=
    ⟨hbcfg ▸ hc, fun _ => hbcfg ▸ hid, boardWellFormed_of_masked hw hc hbcfg hram hboard⟩
  obtain rfl := Host.Outcome.next.inj (hexec.symm.trans (MaskCommand.apply.exec_of_pass hpass))
  exact ⟨rfl, maskedRam_of_masked hw hc hbcfg hram hk⟩

end

/-- Settles O49: the first application leaves the board under its mask. -/
theorem maskApplyTwiceRestores : Obligations.MaskApplyTwiceRestores := by
  intro s t u hw hk hexec herr hexec'
  obtain ⟨⟨hc, hid, hboard⟩, ht⟩ := MaskCommand.apply.success hexec herr
  exact maskApply_restores hw hc (by rw [ht]; rfl) (by rw [ht]; rfl) hk hboard (hid rfl) (by rw [ht]; rfl) hexec'

/-! ## MASK_SELECT with FORCE -/

theorem commitMask_ram (commit : Bool) (s : State) (m : Nat) :
    (commitMask commit s m (boardCells s)).ram = if commit then maskedRam s m else s.ram := by
  cases commit <;> rfl

@[simp] theorem commitMask_res (commit : Bool) (s : State) (m : Nat) (cells : List Byte) :
    (commitMask commit s m cells).res = s.res := by cases commit <;> rfl

theorem slotOf_standard : ∀ m ≤ 7, slotOf false m = m := by decide

theorem slotOf_micro : ∀ slot < 4, slotOf true ([1, 4, 6, 7].getD slot 0) = slot := by decide

/-- Settles O54: the result of the forced command, its RAM by COMMIT. -/
theorem maskSelectTakesForcedMask : Obligations.MaskSelectTakesForcedMask := by
  intro commit s slot hw hc hid hboard hstandard hmicro
  have hslot : slotOf s.bcfg.micro (arg0 s) = slot := by
    cases hm : s.bcfg.micro with
    | false => rw [hstandard hm, slotOf_standard _ hid.1]
    | true =>
      obtain ⟨hlt, harg⟩ := hmicro hm
      rw [← harg, slotOf_micro slot hlt]
  have hexec := (MaskCommand.selectForced commit).exec_of_pass ⟨hc, fun _ => hid, hboard⟩
  rw [selectForced, hslot, setRes012_res, setRes012_scores, setRes012_pens, setRes012_ram, commitMask_res,
    commitMask_scores, commitMask_pens, commitMask_ram, toWord_arg0] at hexec
  refine ⟨_, hexec, fun hcommit => by rw [hcommit]; rfl, fun hcommit => ?_⟩
  rw [hcommit]
  exact boardMasked_maskedRam hw hc (arg0 s)

end Sys2Proof.Machine
end

section
/-! PROOFS. 43_mask.md R132 to R135: the lines of a board as its cells, and each penalty as a sum over positions. -/

namespace Sys2Proof.Machine

/-! ## Sums over positions -/

theorem sumUpTo_eq_sum (n : Nat) (f : Nat → Nat) : sumUpTo n f = ∑ k ∈ Finset.range n, f k := by
  induction n with
  | zero => rfl
  | succ n ih => rw [Finset.sum_range_succ, ← ih, sumUpTo, List.range_succ, List.map_append, List.sum_append]; rfl

theorem sumUpTo_add (m n : Nat) (f : Nat → Nat) : sumUpTo (m + n) f = sumUpTo m f + sumUpTo n fun k => f (m + k) := by
  rw [sumUpTo_eq_sum, sumUpTo_eq_sum, sumUpTo_eq_sum, Finset.sum_range_add]

theorem sumUpTo_mul (m n : Nat) (f : Nat → Nat) :
    sumUpTo (m * n) f = sumUpTo m fun r => sumUpTo n fun c => f (r * n + c) := by
  induction m with
  | zero => rw [Nat.zero_mul]; rfl
  | succ m ih => rw [Nat.succ_mul, sumUpTo_add, ih, sumUpTo_add m 1]; rfl

theorem sumUpTo_congr {n : Nat} {f g : Nat → Nat} (h : ∀ k, k < n → f k = g k) : sumUpTo n f = sumUpTo n g :=
  congrArg List.sum (List.map_congr_left fun k hk => h k (List.mem_range.1 hk))

theorem sumUpTo_mul_left (a n : Nat) (f : Nat → Nat) : sumUpTo n (fun k => a * f k) = a * sumUpTo n f := by
  rw [sumUpTo_eq_sum, sumUpTo_eq_sum, Finset.mul_sum]

theorem length_filter_range (n : Nat) (p : Nat → Bool) :
    ((List.range n).filter p).length = sumUpTo n fun k => if p k = true then 1 else 0 := by
  induction n with
  | zero => rfl
  | succ n ih =>
    rw [List.range_succ, List.filter_append, List.length_append, ih, sumUpTo_add n 1]
    cases hp : p n <;> simp [hp, sumUpTo]

theorem eq_map_getD {α : Type} (xs : List α) (d : α) : xs = (List.range xs.length).map fun k => xs.getD k d :=
  List.ext_getElem (by simp) fun k hk _ => by simp [hk]

theorem length_filter_eq_sumUpTo {α : Type} (xs : List α) (d : α) (p : α → Bool) :
    (xs.filter p).length = sumUpTo xs.length fun k => if p (xs.getD k d) = true then 1 else 0 := by
  conv_lhs => rw [eq_map_getD xs d, List.filter_map, List.length_map]
  exact length_filter_range _ _

/-! ## The lines of a board -/

/-- The cells `p .. p+m-1` of a line. -/
def stretch (line : Nat → Bool) (p m : Nat) : List Bool := (List.range' p m).map line

theorem stretch_succ (line : Nat → Bool) (p m : Nat) : stretch line p (m + 1) = line p :: stretch line (p + 1) m := rfl

theorem stretch_eq_map (line : Nat → Bool) (p m : Nat) :
    stretch line p m = (List.range m).map fun k => line (p + k) := by
  rw [stretch, List.range'_eq_map_range, List.map_map]
  rfl

theorem stretch_zero_eq_map (line : Nat → Bool) (n : Nat) : stretch line 0 n = (List.range n).map line := by
  simp only [stretch_eq_map, Nat.zero_add]

theorem rowsOf_eq (dim : Nat) : ∀ (n : Nat) (xs : List Bool), xs.length = n * dim →
    rowsOf dim n xs = (List.range n).map fun r => (List.range dim).map fun c => xs.getD (r * dim + c) false
  | 0, _, _ => rfl
  | n + 1, xs, hlen => by
    rw [Nat.succ_mul] at hlen
    have hfirst : (xs.take dim).length = dim := by rw [List.length_take]; omega
    rw [rowsOf, rowsOf_eq dim n (xs.drop dim) (by rw [List.length_drop]; omega), List.range_succ_eq_map, List.map_cons,
      List.map_map, eq_map_getD (xs.take dim) false, hfirst]
    refine congrArg₂ List.cons (List.map_congr_left fun c hc => ?_)
      (List.map_congr_left fun r _ => List.map_congr_left fun c _ => ?_)
    · rw [Nat.zero_mul, Nat.zero_add, List.getD_eq_getElem?_getD, List.getElem?_take_of_lt (List.mem_range.1 hc),
        List.getD_eq_getElem?_getD]
    · rw [List.getD_eq_getElem?_getD, List.getElem?_drop, List.getD_eq_getElem?_getD, Nat.succ_mul, Nat.add_right_comm,
        Nat.add_comm dim, Nat.add_right_comm]

theorem boardRows_eq {dim : Nat} {cells : List Byte} (hlen : cells.length = dim * dim) :
    boardRows dim cells = (List.range dim).map fun r => stretch (darkAt dim cells r) 0 dim := by
  rw [boardRows, rowsOf_eq dim dim _ (by rw [List.length_map, hlen])]
  refine List.map_congr_left fun r _ => ?_
  rw [stretch_zero_eq_map]
  refine List.map_congr_left fun c _ => ?_
  exact List.getD_map cells 0#8 cellDark

theorem columnsOf_map (f : Nat → Nat → Bool) (dim : Nat) (rows : List Nat) :
    columnsOf dim (rows.map fun r => (List.range dim).map (f r)) =
      (List.range dim).map fun c => rows.map fun r => f r c := by
  induction rows with
  | nil =>
    show List.replicate dim [] = (List.range dim).map fun _ => []
    rw [List.map_const', List.length_range]
  | cons r rows ih =>
    rw [columnsOf] at ih ⊢
    rw [List.map_cons, List.foldr_cons, ih, List.zipWith_map, List.zipWith_self]
    rfl

/-- Line `k` of a board is row `k`, or column `k - dim` (43_mask.md R132). -/
theorem boardLines_eq {dim : Nat} {cells : List Byte} (hlen : cells.length = dim * dim) :
    boardLines dim cells = (List.range (2 * dim)).map fun k => stretch (lineCell dim cells k) 0 dim := by
  rw [boardLines, boardRows_eq hlen, Nat.two_mul, List.range_add, List.map_append, List.map_map]
  refine congrArg₂ List.append (List.map_congr_left fun k hk => congrArg (stretch · 0 dim) ?_) ?_
  · exact funext fun p => (if_pos (List.mem_range.1 hk)).symm
  · simp only [stretch_zero_eq_map, columnsOf_map]
    refine List.map_congr_left fun k _ => List.map_congr_left fun p _ => ?_
    rw [lineCell, if_neg (Nat.not_lt.2 (Nat.le_add_right dim k)), Nat.add_sub_cancel_left]

/-! ## N1: runs -/

/-- What the maximal runs that start at cell `a` of a line of `n` cells score (43_mask.md R132). -/
def runsAt (n : Nat) (line : Nat → Bool) (a : Nat) : Nat :=
  sumUpTo (n + 1) fun len => if 5 ≤ len ∧ maximalRun n line a len = true then 3 + (len - 5) else 0

theorem maximalRun_iff {n : Nat} {line : Nat → Bool} {a len : Nat} : maximalRun n line a len = true ↔
    (1 ≤ len ∧ a + len ≤ n) ∧ (∀ t, t < len → line (a + t) = line a) ∧ (a = 0 ∨ line (a - 1) ≠ line a) ∧
      (a + len = n ∨ line (a + len) ≠ line a) := by
  simp [maximalRun, and_assoc]

/-- The cells `s .. s+run-1` of a line have colour `x`, and the cell before them does not. -/
structure RunFrom (line : Nat → Bool) (x : Bool) (s run : Nat) : Prop where
  pos : 1 ≤ run
  colour : ∀ k, k < run → line (s + k) = x
  left : s = 0 ∨ line (s - 1) ≠ x

namespace RunFrom

variable {n : Nat} {line : Nat → Bool} {x : Bool} {s run : Nat} (h : RunFrom line x s run)
include h

theorem extend (hx : line (s + run) = x) : RunFrom line x s (run + 1) where
  pos := Nat.le_add_left 1 run
  colour k hk := (Nat.lt_succ_iff_lt_or_eq.1 hk).elim (h.colour k) fun he => he ▸ hx
  left := h.left

theorem next (hx : line (s + run) ≠ x) : RunFrom line (line (s + run)) (s + run) 1 where
  pos := le_rfl
  colour k hk := by rw [Nat.lt_one_iff.1 hk]; rfl
  left := .inr (by rw [Nat.add_sub_assoc h.pos, h.colour _ (Nat.sub_lt h.pos Nat.one_pos)]; exact hx.symm)

/-- At the first cell of a run that ends where the colour changes, that run is the only maximal one. -/
theorem maximalRun_start_iff (hend : s + run = n ∨ (s + run < n ∧ line (s + run) ≠ x)) {len : Nat} :
    maximalRun n line s len = true ↔ len = run := by
  have hfirst : line s = x := h.colour 0 h.pos
  rw [maximalRun_iff, hfirst]
  constructor
  · rintro ⟨⟨hpos, hfits⟩, hsame, -, hright⟩
    rcases Nat.lt_trichotomy len run with hlt | heq | hgt
    · rcases hright with hn | hne
      · omega
      · exact absurd (h.colour len hlt) hne
    · exact heq
    · rcases hend with hn | ⟨-, hne⟩
      · omega
      · exact absurd (hsame run hgt) hne
  · rintro rfl
    exact ⟨⟨h.pos, by omega⟩, h.colour, h.left, hend.imp id And.right⟩

theorem runsAt_start (hend : s + run = n ∨ (s + run < n ∧ line (s + run) ≠ x)) : runsAt n line s = runScore run := by
  have hterm : ∀ len, (if 5 ≤ len ∧ maximalRun n line s len = true then 3 + (len - 5) else 0) =
      if len = run then runScore run else 0 := by
    intro len
    simp only [h.maximalRun_start_iff hend, runScore]
    split_ifs <;> omega
  simp only [runsAt, hterm, sumUpTo_eq_sum, Finset.sum_ite_eq', Finset.mem_range]
  exact if_pos (by omega)

theorem runsAt_inside {k : Nat} (hk : k + 1 < run) : runsAt n line (s + (k + 1)) = 0 := by
  have hterm : ∀ len, ¬ (5 ≤ len ∧ maximalRun n line (s + (k + 1)) len = true) := by
    rintro len ⟨-, hrun⟩
    obtain ⟨-, -, hleft, -⟩ := maximalRun_iff.1 hrun
    rcases hleft with h0 | hne
    · omega
    · exact hne ((h.colour k (by omega)).trans (h.colour (k + 1) hk).symm)
  simp only [runsAt, if_neg (hterm _), sumUpTo_eq_sum, Finset.sum_const_zero]

/-- The maximal runs that start in a whole run are that run. -/
theorem sum_runsAt (hend : s + run = n ∨ (s + run < n ∧ line (s + run) ≠ x)) :
    ∑ a ∈ Finset.Ico s (s + run), runsAt n line a = runScore run := by
  rw [Finset.sum_Ico_eq_sum_range, Nat.add_sub_cancel_left]
  obtain ⟨rest, rfl⟩ := Nat.exists_eq_add_of_le' h.pos
  rw [Finset.sum_range_succ', Finset.sum_eq_zero fun k hk => h.runsAt_inside (Nat.succ_lt_succ (Finset.mem_range.1 hk)),
    Nat.zero_add]
  exact h.runsAt_start hend

end RunFrom

theorem runsFrom_stretch {n : Nat} {line : Nat → Bool} : ∀ (m : Nat) {x : Bool} {s run : Nat}, RunFrom line x s run →
    s + run + m = n → runsFrom x run (stretch line (s + run) m) = ∑ a ∈ Finset.Ico s n, runsAt n line a
  | 0, x, s, run, h, hn => by
    obtain rfl : s + run = n := hn
    exact (h.sum_runsAt (.inl rfl)).symm
  | m + 1, x, s, run, h, hn => by
    have hrest : s + run + 1 + m = n := by omega
    rw [stretch_succ, runsFrom]
    split
    · next hx => exact runsFrom_stretch m (h.extend hx) hrest
    · next hx =>
      rw [runsFrom_stretch m (h.next hx) hrest, ← h.sum_runsAt (n := n) (.inr ⟨by omega, hx⟩)]
      exact Finset.sum_Ico_consecutive _ (Nat.le_add_right s run) (by omega)

theorem lineN1_stretch (line : Nat → Bool) : ∀ n : Nat, lineN1 (stretch line 0 n) = sumUpTo n (runsAt n line)
  | 0 => rfl
  | n + 1 => by
    have hfirst : RunFrom line (line 0) 0 1 := ⟨le_rfl, fun k hk => by rw [Nat.lt_one_iff.1 hk], .inl rfl⟩
    rw [sumUpTo_eq_sum, Finset.range_eq_Ico]
    exact runsFrom_stretch n hfirst (by omega)

/-! ## N2: blocks -/

/-- Whether the 2 x 2 cells at column `c` of two rows have one colour (43_mask.md R133), as a number. -/
def blockAt (upper lower : Nat → Bool) (c : Nat) : Nat :=
  if upper c = upper (c + 1) ∧ upper c = lower c ∧ upper c = lower (c + 1) then 1 else 0

theorem pairBlocks_stretch (upper lower : Nat → Bool) : ∀ m p : Nat,
    pairBlocks (stretch upper p m) (stretch lower p m) = ∑ k ∈ Finset.range (m - 1), blockAt upper lower (p + k)
  | 0, _ => rfl
  | 1, _ => rfl
  | m + 2, p => by
    show blockAt upper lower p + pairBlocks (stretch upper (p + 1) (m + 1)) (stretch lower (p + 1) (m + 1)) = _
    rw [pairBlocks_stretch upper lower (m + 1) (p + 1), Nat.add_comm, Nat.succ_sub_one (m + 1), Finset.sum_range_succ']
    simp only [Nat.add_assoc, Nat.add_comm 1, Nat.add_sub_cancel, Nat.add_zero]

theorem rowsBlocks_map (row : Nat → List Bool) : ∀ m p : Nat, rowsBlocks ((List.range' p m).map row) =
    ∑ k ∈ Finset.range (m - 1), pairBlocks (row (p + k)) (row (p + k + 1))
  | 0, _ => rfl
  | 1, _ => rfl
  | m + 2, p => by
    show pairBlocks (row p) (row (p + 1)) + rowsBlocks ((List.range' (p + 1) (m + 1)).map row) = _
    rw [rowsBlocks_map row (m + 1) (p + 1), Nat.add_comm, Nat.succ_sub_one (m + 1), Finset.sum_range_succ']
    simp only [Nat.add_assoc, Nat.add_comm 1, Nat.add_sub_cancel, Nat.add_zero]

theorem blockAt_darkAt (dim : Nat) (cells : List Byte) (r c : Nat) :
    blockAt (darkAt dim cells r) (darkAt dim cells (r + 1)) c = if uniformBlock dim cells r c = true then 1 else 0 := by
  rw [blockAt, uniformBlock]
  simp only [Bool.and_eq_true, beq_iff_eq, and_assoc, eq_comm (a := darkAt dim cells r c)]

theorem penaltyN2_eq {dim : Nat} {cells : List Byte} (hlen : cells.length = dim * dim) :
    penaltyN2 dim cells = 3 * sumUpTo (dim - 1) fun r => sumUpTo (dim - 1) fun c =>
      if uniformBlock dim cells r c = true then 1 else 0 := by
  rw [penaltyN2, boardRows_eq hlen, List.range_eq_range', rowsBlocks_map]
  simp only [pairBlocks_stretch, blockAt_darkAt, sumUpTo_eq_sum, Nat.zero_add]

/-! ## N3: windows -/

/-- How many of the two sequences stand at cell `p` of a line of `n` cells (43_mask.md R134). -/
def windowsAt (n : Nat) (line : Nat → Bool) (p : Nat) : Nat :=
  (if windowIs n line finderP1 p = true then 1 else 0) + (if windowIs n line finderP2 p = true then 1 else 0)

theorem windowIs_iff {n : Nat} {line : Nat → Bool} {seq : List Bool} {p : Nat} :
    windowIs n line seq p = true ↔ p + 11 ≤ n ∧ ∀ t, t < 11 → line (p + t) = seq.getD t false := by
  simp [windowIs]

theorem take_stretch_iff {seq : List Bool} (hseq : seq.length = 11) (line : Nat → Bool) (p m : Nat) :
    (stretch line p m).take 11 = seq ↔ windowIs (p + m) line seq p = true := by
  rw [windowIs_iff]
  by_cases hm : 11 ≤ m
  · obtain ⟨rest, rfl⟩ := Nat.exists_eq_add_of_le' hm
    have htake : (stretch line p (rest + 11)).take 11 = stretch line p 11 := rfl
    have hcells : seq = (List.range 11).map fun t => seq.getD t false := hseq ▸ eq_map_getD seq false
    rw [htake, stretch_eq_map, and_iff_right (by omega)]
    conv_lhs => rw [hcells, List.map_inj_left]
    simp only [List.mem_range]
  · refine iff_of_false (fun h => ?_) fun h => by omega
    have := congrArg List.length h
    rw [List.length_take, hseq, stretch, List.length_map, List.length_range'] at this
    omega

theorem lineN3_stretch {n : Nat} {line : Nat → Bool} : ∀ m p : Nat, p + m = n →
    lineN3 (stretch line p m) = 40 * ∑ k ∈ Finset.range m, windowsAt n line (p + k)
  | 0, _, _ => rfl
  | m + 1, p, hn => by
    have hrest : p + 1 + m = n := by omega
    rw [stretch_succ, lineN3, lineN3_stretch m (p + 1) hrest, ← stretch_succ, Finset.sum_range_succ']
    simp only [take_stretch_iff (show finderP1.length = 11 from rfl),
      take_stretch_iff (show finderP2.length = 11 from rfl), hn, windowsAt, Nat.add_assoc, Nat.add_comm 1, Nat.add_zero]
    split_ifs <;> omega

/-! ## Every line, and the dark cells -/

/-- A penalty summed over the lines of a board, from what it is for one line. -/
theorem sum_boardLines {dim : Nat} {cells : List Byte} (hlen : cells.length = dim * dim) {score : List Bool → Nat}
    {positions : (Nat → Bool) → Nat} (hline : ∀ line, score (stretch line 0 dim) = positions line) :
    ((boardLines dim cells).map score).sum = sumUpTo (2 * dim) fun k => positions (lineCell dim cells k) := by
  rw [boardLines_eq hlen, List.map_map]
  exact sumUpTo_congr fun k _ => hline _

theorem darkCount_eq {dim : Nat} {cells : List Byte} (hlen : cells.length = dim * dim) : darkCount cells =
    sumUpTo dim fun r => sumUpTo dim fun c => if darkAt dim cells r c = true then 1 else 0 := by
  rw [darkCount, length_filter_eq_sumUpTo cells 0#8, hlen, sumUpTo_mul]
  rfl

theorem balanceN4_eq (dark total : Nat) : balanceN4 dark total =
    if 10 ≤ 20 * dark / total then 10 * (20 * dark / total - 10) else 10 * (9 - 20 * dark / total) := by
  rw [balanceN4, absDiff, absDiff]
  generalize 20 * dark / total = k
  split_ifs <;> omega

/-- Settles O51: each penalty by what it is of a line or of two rows. -/
theorem penaltiesCellByCell : Obligations.PenaltiesCellByCell := by
  intro dim cells _ hlen
  have hn1 : penaltyN1 dim cells = _ :=
    sum_boardLines (positions := fun line => sumUpTo dim (runsAt dim line)) hlen (lineN1_stretch · dim)
  have hn3 : penaltyN3 dim cells = _ :=
    sum_boardLines (positions := fun line => 40 * sumUpTo dim (windowsAt dim line)) hlen fun line => by
      simp only [lineN3_stretch dim 0 (Nat.zero_add dim), sumUpTo_eq_sum, Nat.zero_add]
  rw [sumUpTo_mul_left] at hn3
  exact ⟨hn1, penaltyN2_eq hlen, hn3, darkCount_eq hlen, fun k hk => hk ▸ balanceN4_eq _ _⟩

end Sys2Proof.Machine
end

section
/-! PROOFS. 43_mask.md R137 to R142: the score of a board, the winner among the candidates, and the laws that hold over
two mask commands. -/

namespace Sys2Proof.Machine

/-! ## MASK_SCORE -/

theorem sumR_eq (dim : Nat) (cells : List Byte) :
    sumR dim cells = sumUpTo dim fun k => if darkAt dim cells k (dim - 1) = true then 1 else 0 :=
  length_filter_range dim _

theorem sumB_eq (dim : Nat) (cells : List Byte) :
    sumB dim cells = sumUpTo dim fun k => if darkAt dim cells (dim - 1) k = true then 1 else 0 :=
  length_filter_range dim _

@[simp] theorem putScore_ram (s : State) (cells : List Byte) : (putScore s cells).ram = s.ram := by
  unfold putScore
  split <;> rfl

theorem putScore_res_r0 (s : State) (cells : List Byte) :
    (putScore s cells).res.r0 = toWord (scoreOf s.bcfg.micro (dimOf s) cells) := by
  unfold putScore scoreOf
  split <;> rfl

/-- Settles O52: MASK_SCORE's result by the kind of the board. -/
theorem maskScoreReportsPenalties : Obligations.MaskScoreReportsPenalties := by
  intro s hc hboard
  have hexec := MaskCommand.score.exec_of_pass ⟨hc, nofun, hboard⟩
  refine ⟨fun hstandard => ?_, fun hmicro r b hr hb => ?_⟩
  · rw [putScore, if_neg (Bool.eq_false_iff.1 hstandard)] at hexec
    exact hexec
  · rw [← sumR_eq] at hr
    rw [← sumB_eq] at hb
    subst hr hb
    rw [putScore, if_pos hmicro] at hexec
    exact hexec

/-! ## The winning slot -/

/-- Slot `w` is the first best of the slots below `n` (43_mask.md R139). -/
structure FirstBest (micro : Bool) (score : Nat → Nat) (n w : Nat) : Prop where
  lt : w < n
  best : ∀ k, k < n → beats micro (score k) (score w) = false
  first : ∀ k, k < w → beats micro (score w) (score k) = true

theorem beats_of_beats_of_not_beats {micro : Bool} {a b c : Nat} (hab : beats micro a b = true)
    (hcb : beats micro c b = false) : beats micro a c = true := by
  cases micro <;> simp [beats] at * <;> omega

theorem not_beats_of_beats {micro : Bool} {a b : Nat} (h : beats micro a b = true) : beats micro b a = false := by
  cases micro <;> simp [beats] at * <;> omega

theorem not_beats_self (micro : Bool) (a : Nat) : beats micro a a = false := by
  cases micro <;> simp [beats]

namespace FirstBest

variable {micro : Bool} {score : Nat → Nat} {n w : Nat} (h : FirstBest micro score n w)
include h

theorem keeps (hn : beats micro (score n) (score w) = false) : FirstBest micro score (n + 1) w where
  lt := Nat.lt_succ_of_lt h.lt
  best k hk := (Nat.lt_succ_iff_lt_or_eq.1 hk).elim (h.best k) fun he => he ▸ hn
  first := h.first

theorem improves (hn : beats micro (score n) (score w) = true) : FirstBest micro score (n + 1) n where
  lt := Nat.lt_succ_self n
  best k hk := (Nat.lt_succ_iff_lt_or_eq.1 hk).elim
    (fun hlt => not_beats_of_beats (beats_of_beats_of_not_beats hn (h.best k hlt)))
    fun he => he ▸ not_beats_self micro _
  first k hk := beats_of_beats_of_not_beats hn (h.best k hk)

end FirstBest

section
variable {score : Nat → Nat} {n w k : Nat}

/-- On a standard board the first best slot is the first of the least score. -/
theorem FirstBest.least (h : FirstBest false score n w) (hk : k < n) :
    score w ≤ score k ∧ (k < w → score w < score k) :=
  ⟨Nat.le_of_not_lt (of_decide_eq_false (h.best k hk)), fun hlt => of_decide_eq_true (h.first k hlt)⟩

/-- On a Micro board it is the first of the greatest. -/
theorem FirstBest.greatest (h : FirstBest true score n w) (hk : k < n) :
    score k ≤ score w ∧ (k < w → score k < score w) :=
  ⟨Nat.le_of_not_lt (of_decide_eq_false (h.best k hk)), fun hlt => of_decide_eq_true (h.first k hlt)⟩

end

theorem bestFrom_firstBest {micro : Bool} {score : Nat → Nat} : ∀ (xs : List Nat) {n w : Nat},
    FirstBest micro score n w → (∀ k, k < xs.length → xs.getD k 0 = score (n + k)) →
    FirstBest micro score (n + xs.length) (bestFrom micro w (score w) n xs)
  | [], _, _, h, _ => h
  | x :: xs, n, w, h, hxs => by
    obtain rfl : x = score n := hxs 0 (Nat.succ_pos _)
    have hrest : ∀ k, k < xs.length → xs.getD k 0 = score (n + 1 + k) := fun k hk => by
      rw [Nat.add_right_comm]
      exact hxs (k + 1) (Nat.succ_lt_succ hk)
    rw [bestFrom, List.length_cons, ← Nat.add_assoc, Nat.add_right_comm]
    split
    · next hn => exact bestFrom_firstBest xs (h.improves hn) hrest
    · next hn => exact bestFrom_firstBest xs (h.keeps (Bool.eq_false_iff.2 hn)) hrest

theorem bestSlot_firstBest (micro : Bool) : ∀ {scores : List Nat}, scores ≠ [] →
    FirstBest micro (scores.getD · 0) scores.length (bestSlot micro scores)
  | x :: xs, _ => by
    have hhead : FirstBest micro ((x :: xs).getD · 0) 1 0 :=
      ⟨Nat.one_pos, fun k hk => by rw [Nat.lt_one_iff.1 hk]; exact not_beats_self micro _, nofun⟩
    rw [List.length_cons, Nat.add_comm]
    exact bestFrom_firstBest xs hhead fun k _ => by rw [Nat.add_comm]; rfl

/-! ## The candidates -/

section
variable (micro : Bool)

theorem length_candidates : (candidates micro).length = if micro then 4 else 8 := by cases micro <;> rfl

theorem candidateAt_eq : ∀ k < (candidates micro).length,
    candidateAt micro k = if micro then [1, 4, 6, 7].getD k 0 else k := by
  cases micro <;> decide

theorem candidateAt_legal : ∀ k < (candidates micro).length, maskIdLegal micro (candidateAt micro k) := by
  unfold maskIdLegal
  cases micro <;> decide

variable (dim : Nat) (cells : List Byte)

@[simp] theorem length_candidateScores : (candidateScores micro dim cells).length = (candidates micro).length :=
  List.length_map _

theorem getD_candidateScores {k : Nat} (hk : k < (candidates micro).length) :
    (candidateScores micro dim cells).getD k 0 = scoreOf micro dim (applyMask dim (candidateAt micro k) cells) := by
  rw [candidateScores, candidateAt, List.getD_eq_getElem _ _ (by rwa [List.length_map]), List.getElem_map,
    List.getD_eq_getElem _ _ hk]

end

/-- The slot that MASK_SELECT finds for the board of a state (43_mask.md R139). -/
def winningSlot (s : State) : Nat :=
  bestSlot s.bcfg.micro (candidateScores s.bcfg.micro (dimOf s) (boardCells s))

/-- The mask ID in that slot. -/
def winningMask (s : State) : Nat := candidateAt s.bcfg.micro (winningSlot s)

theorem winningSlot_firstBest (s : State) :
    FirstBest s.bcfg.micro ((candidateScores s.bcfg.micro (dimOf s) (boardCells s)).getD · 0)
      (candidates s.bcfg.micro).length (winningSlot s) := by
  rw [← length_candidateScores s.bcfg.micro (dimOf s) (boardCells s)]
  refine bestSlot_firstBest _ (List.ne_nil_of_length_pos ?_)
  rw [length_candidateScores, length_candidates]
  cases s.bcfg.micro <;> decide

theorem winningMask_legal (s : State) : maskIdLegal s.bcfg.micro (winningMask s) :=
  candidateAt_legal _ _ (winningSlot_firstBest s).lt

/-! ## MASK_SELECT without FORCE -/

/-- What MASK_SELECT without FORCE leaves (43_mask.md R141). -/
theorem exec_selectScored {s : State} (commit : Bool) (hc : configLegal s.bcfg) (hboard : boardWellFormed s) :
    exec (.maskSelect commit false) s = .next (succeedsWith s
      { s.res with
        r0 := toWord (winningMask s)
        r1 := toWord (scoreOf s.bcfg.micro (dimOf s) (applyMask (dimOf s) (winningMask s) (boardCells s)))
        r2 := toWord (winningSlot s) }
      (scoresOf (candidateScores s.bcfg.micro (dimOf s) (boardCells s))) s.pens
      (if commit then maskedRam s (winningMask s) else s.ram)) := by
  rw [(MaskCommand.selectScored commit).exec_of_pass ⟨hc, nofun, hboard⟩, ← commitMask_ram, winningMask,
    ← getD_candidateScores _ _ _ (winningSlot_firstBest s).lt]
  cases commit <;> rfl

/-- Settles O53: the winner is the first best slot, and the candidates are those of the board's kind. -/
theorem maskSelectFindsWinner : Obligations.MaskSelectFindsWinner := by
  intro commit s n mask score hw hc hboard hn hmask hscore
  rw [← length_candidates] at hn
  have hmaskAt : ∀ k, k < n → candidateAt s.bcfg.micro k = mask k :=
    fun k hk => (candidateAt_eq _ k (hn ▸ hk)).trans (hmask k).symm
  have hsc : ∀ k, (candidateScores s.bcfg.micro (dimOf s) (boardCells s)).getD k 0 = score k := fun k => by
    rw [hscore]
    split
    · next hk => rw [getD_candidateScores _ _ _ (hn ▸ hk), hmaskAt k hk]
    · next hk => exact List.getD_eq_default _ _ (by rw [length_candidateScores]; omega)
  have hwin : FirstBest s.bcfg.micro score n (winningSlot s) := by
    rw [hn, ← funext hsc]
    exact winningSlot_firstBest s
  have hmaskWin : winningMask s = mask (winningSlot s) := hmaskAt _ hwin.lt
  have hexec := exec_selectScored commit hc hboard
  rw [winningMask, ← getD_candidateScores _ _ _ (hn ▸ hwin.lt), ← winningMask, hmaskWin] at hexec
  simp only [scoresOf, hsc] at hexec
  refine ⟨winningSlot s, _, hwin.lt, hexec, fun hstandard k hk => (hstandard ▸ hwin).least hk,
    fun hmicro k hk => (hmicro ▸ hwin).greatest hk, fun hcommit => by rw [hcommit]; rfl, fun hcommit => ?_⟩
  rw [hcommit]
  exact boardMasked_maskedRam hw hc _

/-! ## Two mask commands -/

/-- What MASK_SELECT.C leaves that a later mask command sees (43_mask.md R141). -/
structure CommitsWinner (s t : State) : Prop where
  config : configLegal s.bcfg
  board : boardWellFormed s
  bcfg : t.bcfg = s.bcfg
  ram : t.ram = maskedRam s (winningMask s)
  r0 : t.res.r0 = toWord (winningMask s)
  r1 : t.res.r1 = toWord (scoreOf s.bcfg.micro (dimOf s) (applyMask (dimOf s) (winningMask s) (boardCells s)))

theorem commitsWinner_of_exec {s t : State} (hexec : exec (.maskSelect true false) s = .next t)
    (herr : t.status.err = false) : CommitsWinner s t := by
  obtain ⟨⟨hc, -, hboard⟩, -⟩ := (MaskCommand.selectScored true).success hexec herr
  obtain rfl := Host.Outcome.next.inj (hexec.symm.trans (exec_selectScored true hc hboard))
  exact ⟨hc, hboard, rfl, rfl, rfl, rfl⟩

/-- Settles O55: MASK_SCORE reads the board that MASK_SELECT scored under the winning mask. -/
theorem rescoringReproducesWinner : Obligations.RescoringReproducesWinner := by
  intro s t u hw _ hexec herr hexec'
  obtain ⟨hc, hboard, hbcfg, hram, -, hr1⟩ := commitsWinner_of_exec hexec herr
  have hpass : MaskChecksPass false t := ⟨hbcfg ▸ hc, nofun, boardWellFormed_of_masked hw hc hbcfg hram hboard⟩
  obtain rfl := Host.Outcome.next.inj (hexec'.symm.trans (MaskCommand.score.exec_of_pass hpass))
  refine ⟨rfl, ?_⟩
  rw [hr1, ← boardCells_of_masked hw hc hbcfg hram, ← dimOf_eq_of_bcfg hbcfg, ← hbcfg]
  exact putScore_res_r0 t (boardCells t)

theorem arg0_of_toWord {s : State} {m : Nat} (hm : m ≤ 7) (h : s.args.a0 = toWord m) : arg0 s = m := by
  rw [arg0, h, toNat_toWord (by omega)]

/-- MASK_SELECT.FC and MASK_APPLY have the same checks, so they report the same error or write the same board. -/
theorem selectForced_agrees_apply {s t u : State} (ht : exec (.maskSelect true true) s = .next t)
    (hu : exec .maskApply s = .next u) : t.ram = u.ram ∧ t.status.err = u.status.err ∧ t.errInfo = u.errInfo := by
  by_cases hpass : MaskChecksPass true s
  · obtain rfl := Host.Outcome.next.inj (ht.symm.trans ((MaskCommand.selectForced true).exec_of_pass hpass))
    obtain rfl := Host.Outcome.next.inj (hu.symm.trans (MaskCommand.apply.exec_of_pass hpass))
    exact ⟨rfl, rfl, rfl⟩
  · obtain ⟨e, he⟩ := exists_firstError_of_not_pass hpass
    obtain rfl := Host.Outcome.next.inj (ht.symm.trans ((MaskCommand.selectForced true).exec_of_firstError he))
    obtain rfl := Host.Outcome.next.inj (hu.symm.trans (MaskCommand.apply.exec_of_firstError he))
    exact ⟨rfl, rfl, rfl⟩

/-- Settles O56: both commit the mask, and both have the same checks. -/
theorem selectAndApplyAgree : Obligations.SelectAndApplyAgree := by
  refine ⟨fun s t u hw hk hexec herr hexec' => ?_, fun s t u => selectForced_agrees_apply⟩
  obtain ⟨hc, hboard, hbcfg, hram, hr0, -⟩ := commitsWinner_of_exec hexec herr
  have hid := winningMask_legal s
  exact maskApply_restores (t := { t with args := { t.args with a0 := t.res.r0 } }) hw hc hbcfg hram hk hboard hid
    (arg0_of_toWord hid.1 hr0) hexec'

namespace MaskCommand

variable {i : Instr} {takesId : Bool} {result : State → List Byte → State} (h : MaskCommand i takesId result)
include h

theorem result_ram (s : State) : (result s (boardCells s)).ram = s.ram ∨
    ∃ m, (result s (boardCells s)).ram = maskedRam s m := by
  cases h with
  | apply => exact .inr ⟨arg0 s, rfl⟩
  | score => exact .inl (putScore_ram s _)
  | selectForced commit | selectScored commit =>
    cases commit with
    | false => exact .inl rfl
    | true => exact .inr ⟨_, rfl⟩

/-- A mask command leaves the RAM alone, or leaves the board of a legal configuration under a mask. -/
theorem ram_cases {s t : State} (hexec : exec i s = .next t) :
    t.ram = s.ram ∨ configLegal s.bcfg ∧ ∃ m, t.ram = maskedRam s m := by
  by_cases hpass : MaskChecksPass takesId s
  · obtain rfl := Host.Outcome.next.inj (hexec.symm.trans (h.exec_of_pass hpass))
    exact (h.result_ram s).imp id (And.intro hpass.config)
  · obtain ⟨e, he⟩ := exists_firstError_of_not_pass hpass
    obtain rfl := Host.Outcome.next.inj (hexec.symm.trans (h.exec_of_firstError he))
    exact .inl rfl

end MaskCommand

/-- Settles O57: a mask changes bit 0 of a cell alone, and no function cell. -/
theorem masksKeepTagsAndFunctionCells : Obligations.MasksKeepTagsAndFunctionCells := by
  intro i s t k d hi hw hknown hexec hk
  obtain ⟨takesId, result, hcmd⟩ := MaskCommand.exists_of_mem hi
  rcases hcmd.ram_cases hexec with hram | ⟨hc, m, hram⟩
  · rw [hram]
    exact ⟨rfl, fun _ => byteKept_refl _ _⟩
  · have hrom := romByte_of_isRam (isRam_cell hc hk)
    have hbefore : ∀ d, readByte s.ram d (0x8000 + k) = planeGet s.ram.val (0x8000 + k) :=
      fun d => readByte_known d hrom (hknown k hk)
    have hafter : ∀ d, readByte t.ram d (0x8000 + k) =
        maskCell m (k / dimOf s) (k % dimOf s) (planeGet s.ram.val (0x8000 + k)) := fun d => by
      rw [hram, readByte_maskedRam hw hc m d hk, getD_boardCells hknown hk (isRam_cell hc hk)]
    have hknown' : planeGet t.ram.known (0x8000 + k) = 0xFF#8 := by rw [hram, maskedRam_known hw hc m hk]
    rw [hbefore, hafter]
    refine ⟨maskCell_div_two m _ _ _, fun htag => ?_⟩
    rw [maskCell_functionCell m _ _ _ htag] at hafter
    exact ⟨hknown'.trans (hknown k hk).symm, (readByte_known d hrom hknown').symm.trans (hafter d),
      fun d => (hafter d).trans (hbefore d).symm⟩

end Sys2Proof.Machine
end

section
/-! PROOFS. 44_control.md: the launch of a command, its end within the latency, and NOP. -/

namespace Sys2Proof.Machine

/-! ## The end of a running command -/

/-- A step of a running command ends it, or lets one of the host events pass that it waits for (R145). -/
theorem step_busy {s : State} (hbusy : s.status.busy = true) :
    ∃ t, step s = .next t ∧ (t.status.busy = false ∨ (t.status.busy = true ∧ t.wait + 1 = s.wait)) := by
  obtain ⟨t, hstep⟩ := step_next s
  refine ⟨t, hstep, ?_⟩
  rcases step_cases hstep with ⟨_, _, hrun⟩ | ⟨ev, rest, _, _, hwait, rfl⟩ | ⟨_, _, hidle, _⟩ | ⟨hidle, _⟩
  · obtain ⟨hended, _⟩ := runCommand_ends hrun
    exact .inl hended
  · refine (takeEvent_busy (s := { s with host := rest, wait := s.wait - 1 }) hbusy ev).imp_right ?_
    rintro ⟨hruns, hkept, _⟩
    exact ⟨hruns, hkept ▸ Nat.succ_pred hwait⟩
  · exact absurd (hidle.symm.trans hbusy) (by decide)
  · exact absurd (hidle.symm.trans hbusy) (by decide)

theorem core_run_ends_busy {s : State} (hbusy : s.status.busy = true) :
    ∃ k t, 1 ≤ k ∧ k ≤ s.wait + 1 ∧ core.run k s = .next t ∧ t.status.busy = false := by
  induction hn : s.wait using Nat.strong_induction_on generalizing s with
  | _ n ih =>
    obtain ⟨t, hstep, hended | ⟨hruns, hwait⟩⟩ := step_busy hbusy
    · exact ⟨1, t, le_rfl, Nat.le_add_left 1 n, core_run_succ hstep 0, hended⟩
    · obtain ⟨k, u, _, hk, hrun, hended⟩ := ih t.wait (by omega) hruns rfl
      exact ⟨k + 1, u, Nat.le_add_left 1 k, by omega, (core_run_succ hstep k).trans hrun, hended⟩

theorem safeRun (n : Nat) (s : State) : SafeRun n s := by
  induction n generalizing s with
  | zero => exact ⟨s, rfl⟩
  | succ n ih =>
    obtain ⟨t, hstep⟩ := step_next s
    obtain ⟨u, hrun⟩ := ih t
    exact ⟨u, (core_run_succ hstep n).trans hrun⟩

/-- Settles O7: by induction on the wait, which every step of a running command that does not end it lowers; and every
step has a next state. -/
theorem busyEndsWithinLatency : Obligations.BusyEndsWithinLatency := ⟨fun _ => core_run_ends_busy, safeRun⟩

/-! ## The launch, and NOP -/

theorem serve_cmd_busy {s : State} (hbusy : s.status.busy = true) (w : Word) :
    serve s (.write 0x000C .four w) = (dropWrite s, ⟨true, 0⟩) := by
  refine (serve_write_offset s .cmd w).trans ?_
  rw [writeReg_dropped hbusy rfl]

/-- Settles O6: the write launches the word while idle, and is dropped while BUSY. -/
theorem cmdWriteLaunches : Obligations.CmdWriteLaunches := fun _ w =>
  ⟨fun hidle => serve_cmd_idle hidle w, fun hbusy => serve_cmd_busy hbusy w⟩

/-- Settles O58: NOP's run succeeds with the state as it was. -/
theorem nopOnlyCompletes : Obligations.NopOnlyCompletes := by
  have hrun (s : State) : runOf .nop s = .ok s := rfl
  exact ⟨rfl, fun s => exec_ok (hrun s)⟩

end Sys2Proof.Machine
end

section
/-! PROOFS. 60_exceptions.md: what a command that fails leaves, the errors it reports, and the bus errors. -/

namespace Sys2Proof.Machine

/-! ## Command errors -/

/-- ECODE 0 means no error: no kind has it (60_exceptions.md R150). -/
theorem ErrorKind.code_ne_zero (k : ErrorKind) : k.code ≠ 0 := by cases k <;> decide

/-- A command that ends with ERR 1 raised an error, and its end is that error's report. -/
theorem exec_failure {i : Instr} {s t : State} (h : exec i s = .next t) (herr : t.status.err = true) :
    ∃ e, runOf i s = .error e ∧ t = failsWith s e.kind.code e.sub.code e.idx := by
  rcases exec_cases h with hfail | ⟨u, _, _, rfl⟩
  · exact hfail
  · cases herr

/-- Settles O8: the end is the report of the error raised, whose kind has a code other than 0. -/
theorem errorsAreAllOrNothing : Obligations.ErrorsAreAllOrNothing := by
  intro i s t hexec herr
  obtain ⟨e, _, rfl⟩ := exec_failure hexec herr
  exact ⟨e.kind.code_ne_zero, rfl⟩

/-- Settles O10: the report is that of the error raised, and every error a run raises is in the table. -/
theorem errorsOfEachCommand : Obligations.ErrorsOfEachCommand := by
  intro i s t hexec herr
  obtain ⟨e, hrun, rfl⟩ := exec_failure hexec herr
  exact runOf_error hrun

/-! ## Bus errors -/

theorem Size.bytes_eq_four_iff {size : Size} : size.bytes = 4 ↔ size = .four := by cases size <;> decide

theorem regAt_eq_none_iff (a : Nat) : regAt a = none ↔ a ∉ registerOffsets := by
  rw [← regAt_iff, ← Option.isSome_iff_exists, Option.not_isSome_iff_eq_none]

section
variable {s : State} {off : Offset} {size : Size}

/-- Outside the memories only a whole register word is accepted (20_memory.md R49, R50). -/
theorem target_eq_none_iff_of_noWindow (hwin : windowAt off.toNat = none) :
    target s off size = none ↔ size.bytes ≠ 4 ∨ off.toNat ∉ registerOffsets := by
  unfold target
  rw [hwin, Ne, Size.bytes_eq_four_iff, ← regAt_eq_none_iff]
  by_cases hsize : size = .four <;> simp [hsize]

/-- In a memory a misaligned access, and one to a RAM while BUSY, is not accepted (20_memory.md R53, R55). -/
theorem target_eq_none_iff_of_window {w : Window} (hwin : windowAt off.toNat = some w) :
    target s off size = none ↔ off.toNat % size.bytes ≠ 0 ∨ (0x1200 ≤ off.toNat ∧ s.status.busy = true) := by
  unfold target
  rw [hwin, ← windowAt_isRam hwin]
  by_cases halign : off.toNat % size.bytes = 0 <;> simp [halign]

/-- What a transaction does not reach is what 60_exceptions.md R156 lists. -/
theorem target_eq_none_iff : target s off size = none ↔ answersError s.status.busy off.toNat size.bytes := by
  have hmap := windowAt_none_iff off.isLt
  unfold answersError
  cases hwin : windowAt off.toNat with
  | none =>
    rw [target_eq_none_iff_of_noWindow hwin]
    by_cases hlisted : off.toNat ∈ registerOffsets
    · obtain ⟨hlow, halign⟩ := registerOffsets_lt hlisted
      simp only [hlisted, not_true_eq_false, or_false]
      omega
    · have hregion := hmap.1 hwin
      simp only [hlisted, not_false_eq_true, or_true, and_true, true_iff]
      omega
  | some w =>
    have hregion := hmap.not.1 (by simp [hwin])
    simp only [not_or] at hregion
    obtain ⟨hlow, hgap, hgap'⟩ := hregion
    rw [target_eq_none_iff_of_window hwin]
    simp only [hlow, hgap, hgap', Nat.not_lt.1 hlow, false_and, true_and, false_or]

end

theorem serve_read_none {s : State} {off : Offset} {size : Size} (h : target s off size = none) :
    serve s (.read off size) = (s, ⟨false, 0⟩) := by simp only [serve, h]; rfl

/-- A transaction is refused as a whole with no data, or answered OKAY. -/
theorem serve_refused_or_okay (s : State) (t : Transaction) :
    (answersError s.status.busy t.span.1 t.span.2 ∧ serve s t = (s, ⟨false, 0⟩)) ∨
      (¬ answersError s.status.busy t.span.1 t.span.2 ∧ (serve s t).2.okay = true) := by
  cases t with
  | read off size =>
    rw [Transaction.span, ← target_eq_none_iff]
    cases htarget : target s off size with
    | none => exact .inl ⟨rfl, serve_read_none htarget⟩
    | some x =>
      refine .inr ⟨nofun, ?_⟩
      cases x with
      | reg r => rw [serve_read_reg htarget]
      | mem w => rw [serve_read_mem htarget]
  | write off size wdata =>
    rw [Transaction.span, ← target_eq_none_iff]
    cases htarget : target s off size with
    | none => exact .inl ⟨rfl, serve_write_none wdata htarget⟩
    | some x =>
      refine .inr ⟨nofun, ?_⟩
      cases x with
      | reg r => rw [serve_write_reg wdata htarget]
      | mem w => rw [serve_write_mem wdata htarget]

/-- Settles O20: a transaction of the list is refused as a whole, and any other is answered OKAY. -/
theorem busErrorsExactly : Obligations.BusErrorsExactly := by
  intro s t
  rcases serve_refused_or_okay s t with ⟨hlisted, hserve⟩ | ⟨hnot, hokay⟩
  · rw [hserve]
    exact ⟨⟨fun _ => hlisted, fun _ => rfl⟩, fun _ => ⟨rfl, rfl⟩⟩
  · rw [hokay]
    exact ⟨⟨nofun, fun h => absurd h hnot⟩, nofun⟩

end Sys2Proof.Machine
end

section
/-! PROOFS. 70_reset_and_hazards.md: the soft reset, and what the abort of a running command takes from the RAMs. -/

namespace Sys2Proof.Machine

/-! ## What forgetting a region does to each bit -/

/-- A canonical plane lists RAM bytes alone. -/
theorem planeGet_of_not_isRam : ∀ {p : List Host.Cell} {lo a : Nat}, planeWfFrom lo p = true → ¬ isRam a = true →
    planeGet p a = 0#8
  | [], _, _, _, _ => rfl
  | (k, c) :: rest, lo, a, hwf, hrom => by
    simp only [planeWfFrom, Bool.and_eq_true] at hwf
    obtain ⟨⟨⟨_, hram⟩, _⟩, hrest⟩ := hwf
    have hne : k ≠ a := fun e => hrom (e ▸ hram)
    rw [planeGet, if_neg hne, planeGet_of_not_isRam hrest hrom, ite_self]

/-- A bit of BITBUF's range lies in the region, wherever the range ends. -/
theorem inRegion_of_bitIn {p n a j : Nat} (hj : j < 8) (h : bitIn p n a j) : inRegion (.bits p n) a j := by
  obtain ⟨hlo, hhi, hfirst, hlast⟩ := h
  obtain ⟨_, haddr, hplace⟩ := (bit_place hj).2 ⟨hlo, hhi, rfl⟩
  exact ⟨bitIndex a j, hfirst, hlast, haddr, hplace⟩

section
variable {m : Memory} {d : Destination} {a j : Nat}

theorem sameBit_forgetRegion (hw : m.wf = true) (hj : j < 8) (hout : ¬ inRegion d a j) :
    sameBit m (forgetRegion m d) a j := by
  cases d with
  | nothing => exact sameBit_refl m a j
  | bytes base n =>
    have hbyte : a < base ∨ base + n ≤ a := by
      by_contra hin
      exact hout ⟨by omega, by omega⟩
    refine ⟨?_, congrArg (·.getLsbD j) (forgetBytes_val_out n hw base a hbyte)⟩
    rw [forgetRegion, forgetBytes_known n hw, if_neg (by omega)]
  | bits p n =>
    have hbit : ¬ bitIn p n a j := fun h => hout (inRegion_of_bitIn hj h)
    refine ⟨?_, forgetBitRange_val_out n hw p hj hbit⟩
    rw [Bool.eq_iff_iff, forgetRegion, forgetBitRange_known n hw p hj]
    exact and_iff_right hbit

/-- A bit range that ends in BITBUF, or a byte range, loses every value. -/
theorem forgetRegion_known (hw : m.wf = true) (hj : j < 8) (hfits : ∀ p n, d = .bits p n → p + n ≤ 32768)
    (hin : inRegion d a j) : (planeGet (forgetRegion m d).known a).getLsbD j = false := by
  cases d with
  | nothing => exact hin.elim
  | bytes base n =>
    obtain ⟨hlo, hhi⟩ := hin
    rw [forgetRegion, forgetBytes_known n hw]
    by_cases hram : isRam a = true
    · rw [if_pos ⟨hlo, hhi, hram⟩, BitVec.getLsbD_zero]
    · rw [if_neg (fun h => hram h.2.2), planeGet_of_not_isRam (known_planeWf hw) hram, BitVec.getLsbD_zero]
  | bits p n =>
    have hbit : bitIn p n a j := (inRegion_bits hj (hfits p n rfl)).1 hin
    rw [Bool.eq_false_iff, forgetRegion, ne_eq, forgetBitRange_known n hw p hj]
    exact fun h => h.1 hbit

end

/-! ## The abort of a running command -/

theorem runOf_of_wouldSucceed {i : Instr} {s : State} (h : wouldSucceed i s = true) : ∃ u, runOf i s = .ok u := by
  cases hrun : runOf i s with
  | error e => rw [wouldSucceed, exec_error hrun] at h; cases h
  | ok u => exact ⟨u, rfl⟩

theorem mem_packers_of_destination {i : Instr} {s : State} {p n : Nat} (h : destination i s = .bits p n) :
    i ∈ [Instr.packNum, .packAlnum, .packKanji, .packByte, .packBits] := by
  cases i with
  | packNum | packAlnum | packKanji | packByte | packBits => decide
  | maskSelect commit force => cases commit <;> cases h
  | _ => cases h

/-- The bits of a command that would succeed end in BITBUF: its range check has passed (42_pack.md R109). -/
theorem destination_fits {i : Instr} {s : State} (h : wouldSucceed i s = true) (p n : Nat)
    (hd : destination i s = .bits p n) : p + n ≤ 32768 := by
  obtain ⟨u, hrun⟩ := runOf_of_wouldSucceed h
  obtain ⟨n', hd', hfits, _⟩ := runOf_packer (mem_packers_of_destination hd) hrun
  cases hd.symm.trans hd'
  exact hfits

section
variable {s : State}

theorem abortedRam_idle (hidle : s.status.busy = false) : abortedRam s = s.ram := by
  rw [abortedRam, hidle]; rfl

theorem abortedRam_illegal {e : DecodeError} (hd : decodeWord s.cmd = .error e) : abortedRam s = s.ram := by
  rcases abortedRam_cases s with hkept | ⟨i, _, hdec, _⟩
  · exact hkept
  · cases hd.symm.trans hdec

theorem abortedRam_of_fails {i : Instr} (hd : decodeWord s.cmd = .ok i) (hfails : wouldSucceed i s = false) :
    abortedRam s = s.ram := by
  rcases abortedRam_cases s with hkept | ⟨i', _, hdec, hsucc, _⟩
  · exact hkept
  · cases hd.symm.trans hdec
    cases hfails.symm.trans hsucc

theorem abortedRam_of_succeeds {i : Instr} (hbusy : s.status.busy = true) (hd : decodeWord s.cmd = .ok i)
    (hsucc : wouldSucceed i s = true) : abortedRam s = forgetRegion s.ram (destination i s) := by
  rw [abortedRam, if_pos hbusy, hd]
  exact if_pos hsucc

/-- Whatever runs, or nothing, no RAM bit outside the destination region changes. -/
theorem sameBit_abortedRam {i : Instr} (hw : s.ram.wf = true) (hd : decodeWord s.cmd = .ok i) {a j : Nat} (hj : j < 8)
    (hout : ¬ inRegion (destination i s) a j) : sameBit s.ram (abortedRam s) a j := by
  rcases abortedRam_cases s with hkept | ⟨i', _, hdec, _, hforgot⟩
  · rw [hkept]; exact sameBit_refl _ _ _
  · cases hd.symm.trans hdec
    rw [hforgot]; exact sameBit_forgetRegion hw hj hout

end

/-! ## The write to CTRL with SRST -/

theorem serve_ctrl_reset (s : State) {w : Word} (h : w.getLsbD 1 = true) :
    serve s (.write 0x0004 .four w) = ({ softReset s with ctrl := ⟨w.getLsbD 0⟩ }, ⟨true, 0⟩) := by
  refine (serve_write_offset s .ctrl w).trans ?_
  rw [writeReg_ctrl_reset h]

theorem readReg_softReset (s : State) (r : Reg) : readReg (softReset s) r = readReg State.reset r := by
  cases r <;> rfl

/-- Settles O17: the write is the soft reset and then IE; its RAM is that of the abort. -/
theorem softResetValues : Obligations.SoftResetValues := by
  intro s w hsrst
  rw [serve_ctrl_reset s hsrst]
  refine ⟨rfl, fun r => ?_, rfl, Bool.and_false _, abortedRam_idle, fun i hw hd a j hj hout =>
    sameBit_abortedRam hw hd hj hout⟩
  rw [readReg_setCtrl, readReg_softReset, readReg_reset]
  by_cases hid : r = .id
  · subst hid; rfl
  · rw [if_neg hid, if_neg hid]

/-- Settles O18: the RAM after the write is that of the abort, which forgets the destination of a command that would
succeed, a region within BITBUF where it is one of bits, and nothing else. -/
theorem abortForgetsTheDestination : Obligations.AbortForgetsTheDestination := by
  refine ⟨fun s w i hw hbusy hsrst hd => ?_, fun s w e hsrst hd => ?_, fun s => ?_⟩
  · rw [serve_ctrl_reset s hsrst]
    refine ⟨fun hsucc a j hj => ⟨fun hin => ?_, fun hout => sameBit_abortedRam hw hd hj hout⟩, abortedRam_of_fails hd⟩
    show (planeGet (abortedRam s).known a).getLsbD j = false
    rw [abortedRam_of_succeeds hbusy hd hsucc]
    exact forgetRegion_known hw hj (destination_fits hsucc) hin
  · rw [serve_ctrl_reset s hsrst]
    exact abortedRam_illegal hd
  · have hnum : destination .packNum s = .bits (arg2 s) (10 * (arg1 s / 3) + [0, 4, 7].getD (arg1 s % 3) 0) :=
      congrArg (Destination.bits (arg2 s)) (numBits_eq (arg1 s))
    exact ⟨rfl, rfl, rfl, rfl, rfl, rfl, rfl, rfl, rfl, rfl, rfl, rfl, hnum, rfl, fun _ => ⟨rfl, rfl⟩⟩

end Sys2Proof.Machine
end
